-- ==== Sys2Proof/Word.lean ====
section
/-! DEFINITION. The value types of the ISCC: bytes (samples), register halves and register words.

00_scope.md R6 (a sample is 8 bits unsigned), 10_state.md section 0 (every register is 32 bits), R32 (HEIGHT and
WIDTH are 16 bits each). Every widening is a zero extension (R10): `BitVec.setWidth` and `BitVec.toNat`. -/

namespace Sys2Proof

/-- One 8-bit unsigned sample or data byte (00_scope.md R6). -/
abbrev Byte := BitVec 8

/-- One half of a register that holds a pair of 16-bit fields (10_state.md R32, R36, R37). -/
abbrev Half := BitVec 16

/-- One 32-bit register value, bus offset or command word (20_memory.md R60, R64; 30_encoding.md R90). -/
abbrev Word := BitVec 32

end Sys2Proof
end

