-- ==== Sys2Proof/Syntax.lean ====
section
/-! DEFINITION. The thirteen commands of 30_encoding.md R97, one constructor per row of opcode_table.json.

`bpp` and `p0` to `p3` are the numbers the fields BPP and P0 to P3 encode (R94, R95): any value 0 to 15, legal or not.
A value of the field that the operation does not accept is still that command and raises ConfigError (R99). -/

namespace Sys2Proof

/-- One command (R97). -/
inductive Instr where
  /-- `sys.nop` (43_sys_commands.md R200). -/
  | sysNop
  /-- `sys.clrerr` (R201). -/
  | sysClrerr
  /-- `sys.sreset` (R202). -/
  | sysSreset
  /-- `bpc.embed b` (42_bpc_bitplane_codec.md R170). -/
  | bpcEmbed (bpp : Nat)
  /-- `bpc.extract b` (R171). -/
  | bpcExtract (bpp : Nat)
  /-- `bpc.embedf b` (R172). -/
  | bpcEmbedf (bpp : Nat)
  /-- `bpc.extractf b` (R173). -/
  | bpcExtractf (bpp : Nat)
  /-- `mlea.enc` (41_mlea_cipher.md R143). -/
  | mleaEnc
  /-- `mlea.dec` (R144). -/
  | mleaDec
  /-- `bpe.split` (40_bpe_block_permutation.md R121). -/
  | bpeSplit
  /-- `bpe.perm p0,p1,p2,p3` (R122). -/
  | bpePerm (p0 p1 p2 p3 : Nat)
  /-- `bpe.unperm p0,p1,p2,p3` (R123). -/
  | bpeUnperm (p0 p1 p2 p3 : Nat)
  /-- `bpe.merge` (R124). -/
  | bpeMerge
deriving DecidableEq, Repr

/-- The command's name as the opcode table spells it. -/
def Instr.mnemonic : Instr → String
  | .sysNop => "sys.nop"
  | .sysClrerr => "sys.clrerr"
  | .sysSreset => "sys.sreset"
  | .bpcEmbed _ => "bpc.embed"
  | .bpcExtract _ => "bpc.extract"
  | .bpcEmbedf _ => "bpc.embedf"
  | .bpcExtractf _ => "bpc.extractf"
  | .mleaEnc => "mlea.enc"
  | .mleaDec => "mlea.dec"
  | .bpeSplit => "bpe.split"
  | .bpePerm _ _ _ _ => "bpe.perm"
  | .bpeUnperm _ _ _ _ => "bpe.unperm"
  | .bpeMerge => "bpe.merge"

end Sys2Proof
end

