-- ==== Sys2Proof/WellFormed.lean ====
section
/-! DEFINITION. Which commands have an encoding: each operand fits its 4-bit field (30_encoding.md R94, R95, R101). -/

namespace Sys2Proof

/-- The value fits a 4-bit operand field: "an integer 0 to 15" (R94, R95). -/
def fitsField (v : Nat) : Bool := decide (v < 16)

/-- The command can be written as a command word (R101: "operand b may be any integer 0 to 15 and each p any integer
0 to 15"). Whether the operation accepts the operand is checked when it runs (R94, R95). -/
def Instr.wellFormed : Instr → Bool
  | .sysNop | .sysClrerr | .sysSreset => true
  | .mleaEnc | .mleaDec | .bpeSplit | .bpeMerge => true
  | .bpcEmbed b | .bpcExtract b | .bpcEmbedf b | .bpcExtractf b => fitsField b
  | .bpePerm p0 p1 p2 p3 | .bpeUnperm p0 p1 p2 p3 =>
    fitsField p0 && fitsField p1 && fitsField p2 && fitsField p3

end Sys2Proof
end

