-- ==== Sys2Proof/Decode.lean ====
section
/-! DEFINITION. Decoding a command word, total and rejecting by name (30_encoding.md R90 to R99), the encoder written
from the same format tables (R91 to R93, R101), and the opcode table of R97 as data. -/

namespace Sys2Proof

/-- Why a word is no command: the two sub-codes of IllegalCommand (R98). -/
inductive DecodeError where
  /-- `w[7:0]` is not one of the 13 opcodes (sub-code 1). -/
  | unknownOpcode
  /-- The opcode is known and a reserved bit of its format is 1 (sub-code 2). -/
  | reservedBit
deriving DecidableEq, Repr

/-- `w[lo + n - 1 : lo]` as a number (00_scope.md section 5). -/
def bitField (w : Word) (lo n : Nat) : Nat := (w.extractLsb' lo n).toNat

/-- `OP`, bits [7:0] (R90). -/
def opcodeField (w : Word) : Nat := bitField w 0 8

/-- `BPP`, bits [11:8] (R92, R94). -/
def bppField (w : Word) : Nat := bitField w 8 4

/-- The permutation field `P0` (`i = 0`) to `P3` (`i = 3`), bits [11 + 4i : 8 + 4i] (R93, R95). -/
def permField (w : Word) (i : Nat) : Nat := bitField w (8 + 4 * i) 4

/-- Format N: bits [31:8] must be 0 (R91). -/
def decodeN (w : Word) (i : Instr) : Except DecodeError Instr :=
  if bitField w 8 24 = 0 then .ok i else .error .reservedBit

/-- Format B: bits [31:12] must be 0 (R92). -/
def decodeB (w : Word) (mk : Nat → Instr) : Except DecodeError Instr :=
  if bitField w 12 20 = 0 then .ok (mk (bppField w)) else .error .reservedBit

/-- Format P: bits [31:24] must be 0 (R93). -/
def decodeP (w : Word) (mk : Nat → Nat → Nat → Nat → Instr) : Except DecodeError Instr :=
  if bitField w 24 8 = 0 then
    .ok (mk (permField w 0) (permField w 1) (permField w 2) (permField w 3))
  else .error .reservedBit

/-- The command a word stands for (R97); the opcode is tested first, then the reserved bits (R98). -/
def decode (w : Word) : Except DecodeError Instr :=
  match opcodeField w with
  | 0x00 => decodeN w .sysNop
  | 0x01 => decodeN w .sysClrerr
  | 0x02 => decodeN w .sysSreset
  | 0x10 => decodeB w .bpcEmbed
  | 0x11 => decodeB w .bpcExtract
  | 0x12 => decodeB w .bpcEmbedf
  | 0x13 => decodeB w .bpcExtractf
  | 0x20 => decodeN w .mleaEnc
  | 0x21 => decodeN w .mleaDec
  | 0x30 => decodeN w .bpeSplit
  | 0x31 => decodeP w .bpePerm
  | 0x32 => decodeP w .bpeUnperm
  | 0x33 => decodeN w .bpeMerge
  | _    => .error .unknownOpcode

/-- Format N: reserved bits 0, then the opcode (R91). -/
def encodeN (op : Byte) : Word := (0 : BitVec 24) ++ op

/-- Format B: reserved bits 0, BPP, opcode (R92). -/
def encodeB (op : Byte) (bpp : Nat) : Word := ((0 : BitVec 20) ++ BitVec.ofNat 4 bpp) ++ op

/-- Format P: reserved bits 0, P3, P2, P1, P0, opcode (R93). -/
def encodeP (op : Byte) (p0 p1 p2 p3 : Nat) : Word :=
  (((((0 : Byte) ++ BitVec.ofNat 4 p3) ++ BitVec.ofNat 4 p2) ++ BitVec.ofNat 4 p1) ++ BitVec.ofNat 4 p0) ++ op

/-- The word the host writes to `CMD` for a command (R101). -/
def encode : Instr → Word
  | .sysNop => encodeN 0x00
  | .sysClrerr => encodeN 0x01
  | .sysSreset => encodeN 0x02
  | .bpcEmbed b => encodeB 0x10 b
  | .bpcExtract b => encodeB 0x11 b
  | .bpcEmbedf b => encodeB 0x12 b
  | .bpcExtractf b => encodeB 0x13 b
  | .mleaEnc => encodeN 0x20
  | .mleaDec => encodeN 0x21
  | .bpeSplit => encodeN 0x30
  | .bpePerm p0 p1 p2 p3 => encodeP 0x31 p0 p1 p2 p3
  | .bpeUnperm p0 p1 p2 p3 => encodeP 0x32 p0 p1 p2 p3
  | .bpeMerge => encodeN 0x33

/-- One row of the opcode map of R97. -/
structure OpcodeRow where
  /-- The mnemonic column. -/
  mnemonic : String
  /-- The match column. -/
  pattern  : Word
  /-- The mask column: the opcode and the reserved bits of the row's format. -/
  mask     : Word
deriving DecidableEq, Repr

/-- The opcode map of R97, row by row. The decoder above does not read it: that the two agree is a statement. -/
def opcodeTable : List OpcodeRow := [
  ⟨"sys.nop",      0x00000000, 0xFFFFFFFF⟩,
  ⟨"sys.clrerr",   0x00000001, 0xFFFFFFFF⟩,
  ⟨"sys.sreset",   0x00000002, 0xFFFFFFFF⟩,
  ⟨"bpc.embed",    0x00000010, 0xFFFFF0FF⟩,
  ⟨"bpc.extract",  0x00000011, 0xFFFFF0FF⟩,
  ⟨"bpc.embedf",   0x00000012, 0xFFFFF0FF⟩,
  ⟨"bpc.extractf", 0x00000013, 0xFFFFF0FF⟩,
  ⟨"mlea.enc",     0x00000020, 0xFFFFFFFF⟩,
  ⟨"mlea.dec",     0x00000021, 0xFFFFFFFF⟩,
  ⟨"bpe.split",    0x00000030, 0xFFFFFFFF⟩,
  ⟨"bpe.perm",     0x00000031, 0xFF0000FF⟩,
  ⟨"bpe.unperm",   0x00000032, 0xFF0000FF⟩,
  ⟨"bpe.merge",    0x00000033, 0xFFFFFFFF⟩]

/-- The 13 opcodes of R97. -/
def knownOpcodes : List Nat :=
  [0x00, 0x01, 0x02, 0x10, 0x11, 0x12, 0x13, 0x20, 0x21, 0x30, 0x31, 0x32, 0x33]

/-- What the decoder reads from an instruction whose bits are `w`, of which the table gives `nbits` (the rest 0). A
command is one 32-bit value on the bus, with no byte order of its own (20_memory.md R64). -/
def decodeTableWord (nbits w : Nat) : Option Instr :=
  match decode (BitVec.ofNat 32 (w % 2 ^ nbits)) with
  | .ok i => some i
  | .error _ => none

end Sys2Proof
end

