-- ==== Sys2Proof/Config.lean ====
section
/-! DEFINITION. What an implementation fixes (00_scope.md R7, R8; 93_implementation_defined.md U3, U4) and the one
free value the spec leaves (10_state.md R48, U1: the power-on contents of the memories). -/

namespace Sys2Proof

/-- The bounds of R7 on `PM_MAX` and `DB_MAX`, and the bounds and the permutation condition of R8 on `TILE_LEN`
(the length of `pat`) and `PAT`. -/
def Config.check (pmMax dbMax : Nat) (pat : List Nat) : Bool :=
  decide (1 ≤ pmMax) && decide (pmMax ≤ 2 ^ 24) &&
  decide ((pmMax + 1) / 2 ≤ dbMax) && decide (dbMax ≤ 2 ^ 23) &&
  decide (1 ≤ pat.length) && decide (pat.length ≤ 256) &&
  pat.isPerm (List.range pat.length)

/-- The configuration of one ISCC (R7, R8). An illegal configuration cannot be built: "the model refuses to be built
with it" (R8; U3, U4), so the check is a field. -/
structure Config where
  /-- `PM_MAX`, the samples the plane memory holds (R7). -/
  pmMax : Nat
  /-- `DB_MAX`, the bytes the data buffer holds (R7). -/
  dbMax : Nat
  /-- `PAT`, the traversal pattern (R8). -/
  pat   : List Nat
  /-- The bounds of R7 and R8 hold. -/
  legal : Config.check pmMax dbMax pat = true
deriving DecidableEq, Repr

/-- `TILE_LEN`, the number of entries of `PAT` (R8). -/
def Config.tileLen (c : Config) : Nat := c.pat.length

/-- The defaults of R7 and R8, which every test vector of the spec uses: the 4x4 magic square, row by row, minus 1.
DESIGN CHOICE (entry 5): this is the configuration of `State.reset`; no statement about every state rests on it. -/
def Config.default : Config where
  pmMax := 2 ^ 24
  dbMax := 2 ^ 23
  pat   := [15, 2, 1, 12, 4, 9, 10, 7, 8, 5, 6, 11, 3, 14, 13, 0]
  legal := by decide

/-- The six memories whose bytes are unspecified after a hard reset (10_state.md R48). -/
inductive MemId where
  | pm
  | db
  | qb (k : Fin 4)
deriving DecidableEq, Repr

/-- Names one draw of unspecified bytes: which hard reset made it, and for which memory. -/
structure Draw where
  /-- How many hard resets came before. -/
  resets : Nat
  /-- The memory the bytes were drawn for. -/
  mem    : MemId
deriving DecidableEq, Repr

/-- The byte at an index of a memory that nothing has written since the draw was made: "each byte has some value 0 to
255 that this spec does not fix; the value is stable" (R48), "one draw per byte at reset" (U1). A FREE VALUE: it has no
body, so nothing can be proved of it (entry 1). -/
opaque Config.powerOnByte : Draw → Nat → Byte

end Sys2Proof
end

