-- ==== Sys2Proof/Machine/State.lean ====
section
/-! DEFINITION. The state of the ISCC (10_state.md R20), of the one host beside it (R21, R47; 70_reset_and_hazards.md
R254), and the state after reset (R48). Plain data throughout. -/

namespace Sys2Proof.Machine

/-- One byte memory: the bytes written since its unspecified bytes were drawn, in ONE canonical form (`Memory.wf`:
indices strictly rising). An index not listed has no entry to equal: it reads as the free value of `draw`
(`Memory.unlisted`, entry 1). -/
structure Memory where
  /-- Which draw of unspecified bytes the unlisted indices read from (R48, U1). -/
  draw  : Draw
  /-- The written bytes by index. -/
  cells : List Host.Cell
deriving DecidableEq, Repr

/-- Two 16-bit fields of one register: bits [31:16] and bits [15:0]. DIMS holds HEIGHT, WIDTH (R32); SPLITPT holds SPR,
SPC (R36); QDIMk holds ROWS, COLS (R37). -/
structure Shape where
  /-- Bits [31:16]. -/
  rows : Half
  /-- Bits [15:0]. -/
  cols : Half
deriving DecidableEq, Repr

/-- One quadrant buffer with its descriptor register QDIMk, which moves with the data (R37, R44). -/
structure Quadrant where
  /-- QDIMk. -/
  shape : Shape
  /-- `QB[k].data`. -/
  data  : Memory
deriving DecidableEq, Repr

/-- One bus access (20_memory.md R60): `off < 2^32`, `n` the width in bytes, `v` an unsigned value of `8*n` bits. -/
inductive Access where
  /-- `MemRead(off, n)`. -/
  | read (off : Word) (n : Nat)
  /-- `MemWrite(off, n, v)`. -/
  | write (off : Word) (n : Nat) (v : BitVec (8 * n))
deriving DecidableEq, Repr

/-- What the outside world does to the ISCC. -/
inductive HostEvent where
  /-- The host makes one access (R60, R62). -/
  | access (a : Access)
  /-- The platform applies a hard reset (70_reset_and_hazards.md R240; entry 4). -/
  | hardReset
deriving DecidableEq, Repr

/-- What an access returns (R60, R61). -/
inductive Response where
  /-- `OK`, of a write. -/
  | ok
  /-- `OK` with the 8-bit value a 1-byte read returns. -/
  | okByte (v : Byte)
  /-- `OK` with the 32-bit value a register read returns. -/
  | okWord (v : Word)
  /-- `BusError`: the access was not accepted and returns no value. -/
  | busError
deriving DecidableEq, Repr

/-- The whole state. -/
structure State where
  /-- `PM_MAX`, `DB_MAX`, `TILE_LEN`, `PAT`: constant, no step writes it (R40, R45, R47; entry 5). -/
  cfg      : Config
  /-- STATUS.ERR (R24, R26). -/
  err      : Bool
  /-- STATUS.QV (R24, R25). -/
  qv       : Bool
  /-- ERRCODE.CODE (R27). -/
  errCode  : Byte
  /-- ERRCODE.SUB (R27). -/
  errSub   : Byte
  /-- ERRREQL (R28). -/
  errReqL  : Word
  /-- ERRREQH (R28). -/
  errReqH  : Word
  /-- ERRAVAIL (R29). -/
  errAvail : Word
  /-- ERRCMD (R30). -/
  errCmd   : Word
  /-- DIMS: rows is HEIGHT, cols is WIDTH (R32). -/
  dims     : Shape
  /-- DBLEN (R33). -/
  dblen    : Word
  /-- NUMBITS (R34). -/
  numbits  : Word
  /-- KDLEN (R31). -/
  kdlen    : Word
  /-- VOK (R35). -/
  vok      : Word
  /-- SPLITPT: rows is SPR, cols is SPC (R36). -/
  splitpt  : Shape
  /-- HDRLEN (R39). -/
  hdrlen   : Word
  /-- KD, the key-digest file (R43). -/
  kd       : Vector Byte 64
  /-- PM, the plane memory (R41). -/
  pm       : Memory
  /-- DB, the data buffer (R42). -/
  db       : Memory
  /-- QB[0] to QB[3] with QDIM0 to QDIM3 (R37, R44). -/
  qb       : Vector Quadrant 4
  /-- The host's events not yet made, first first (R47, R254; entry 2). -/
  pending  : List HostEvent
  /-- The host's command pointer `cp`, the accesses made so far (R21, R254; entry 2). -/
  cp       : Nat
  /-- The results of the accesses made, last first (R60, R254; entry 2). -/
  results  : List Response
  /-- The MODEL's own: hard resets so far, the index of the next draw of unspecified bytes (entry 1). -/
  resets   : Nat
deriving DecidableEq, Repr

/-- Why the machine stops: never. Every access has a response and a next state (20_memory.md R60 to R62), a failing
command takes the error entry (60_exceptions.md R216) and BusError is a response (R223), so no constructor is needed and
none can be raised (safe; entry 7). -/
inductive Fault where
deriving DecidableEq, Repr

/-- Why an instruction is turned away by the model. -/
inductive Refusal where
  /-- Raised by an arm of `exec` whose instruction has no meaning yet (safe). No arm raises it. -/
  | notModelled (mnemonic : String)
deriving DecidableEq, Repr

/-- What an instruction or a step answers. -/
abbrev Result := Host.Outcome State Fault Refusal

/-- A memory nothing has written since the hard reset number `r` (R48). -/
def Memory.afterReset (r : Nat) (m : MemId) : Memory := ⟨⟨r, m⟩, []⟩

/-- A register of two fields, both 0. -/
def Shape.zero : Shape := ⟨0, 0⟩

/-- The "after hard reset" column of R48 for hard reset number `r` of an ISCC with configuration `c`: every register 0,
`KD` all 0, `PM`, `DB` and the quadrant data unspecified. The host's side is empty. -/
def State.powerOn (c : Config) (r : Nat) : State where
  cfg      := c
  err      := false
  qv       := false
  errCode  := 0
  errSub   := 0
  errReqL  := 0
  errReqH  := 0
  errAvail := 0
  errCmd   := 0
  dims     := Shape.zero
  dblen    := 0
  numbits  := 0
  kdlen    := 0
  vok      := 0
  splitpt  := Shape.zero
  hdrlen   := 0
  kd       := Vector.replicate 64 0
  pm       := Memory.afterReset r .pm
  db       := Memory.afterReset r .db
  qb       := #v[⟨Shape.zero, Memory.afterReset r (.qb 0)⟩, ⟨Shape.zero, Memory.afterReset r (.qb 1)⟩,
                 ⟨Shape.zero, Memory.afterReset r (.qb 2)⟩, ⟨Shape.zero, Memory.afterReset r (.qb 3)⟩]
  pending  := []
  cp       := 0
  results  := []
  resets   := r

/-- The machine right after reset (R48), with the default configuration (entry 5). -/
def State.reset : State := State.powerOn Config.default 0

end Sys2Proof.Machine
end

