-- ==== Sys2Proof/Machine/Flags.lean ====
section
/-! DEFINITION. The flags of STATUS, the error codes and sub-codes, and the figures an error records
(10_state.md R24 to R30; 60_exceptions.md R211, R212, R214). -/

namespace Sys2Proof.Machine

/-- Why a command failed: one constructor per row of R212, with the figures the row records (R214). -/
inductive Cause where
  /-- ConfigError 1: `bpp` is 0 or 5 to 15. -/
  | bppRange
  /-- ConfigError 2: the permutation field is not a bijection on {0,1,2,3}. -/
  | permInvalid
  /-- ConfigError 3: `HEIGHT * WIDTH > PM_MAX`. -/
  | dimsTooLarge
  /-- ConfigError 4: `DBLEN > DB_MAX`. -/
  | dblenTooLarge
  /-- ConfigError 5: `KDLEN = 0` or `KDLEN > 64`. -/
  | kdlenRange
  /-- CapacityError 1: payload bits exceed `N*bpp`. -/
  | payloadTooLong (req avail : Nat)
  /-- CapacityError 2: `NUMBITS > N*bpp`. -/
  | extractTooLong (req avail : Nat)
  /-- CapacityError 3: `32 > N*bpp`, the plane cannot hold a header. -/
  | noRoomForHeader (req avail : Nat)
  /-- FramingError 1: `32 + 8*cipher_length > N*bpp`. -/
  | headerTooLarge (req avail : Nat)
  /-- IllegalCommand 1: `w[7:0]` is not an opcode. -/
  | unknownOpcode
  /-- IllegalCommand 2: opcode known, a reserved bit is 1. -/
  | reservedBit
  /-- QuadrantError 1: `STATUS.QV = 0`. -/
  | noSplit
  /-- QuadrantError 2: `SPLITPT` outside the plane, or a `QDIMk` differs from the shape of position `k`. -/
  | shapeMismatch
deriving DecidableEq, Repr

/-- `ERRCODE.CODE` (R211): 1 ConfigError, 2 CapacityError, 3 FramingError, 4 IllegalCommand, 5 QuadrantError. -/
def Cause.code : Cause → Byte
  | .bppRange | .permInvalid | .dimsTooLarge | .dblenTooLarge | .kdlenRange => 1
  | .payloadTooLong _ _ | .extractTooLong _ _ | .noRoomForHeader _ _ => 2
  | .headerTooLarge _ _ => 3
  | .unknownOpcode | .reservedBit => 4
  | .noSplit | .shapeMismatch => 5

/-- `ERRCODE.SUB` (R212). -/
def Cause.sub : Cause → Byte
  | .bppRange => 1
  | .permInvalid => 2
  | .dimsTooLarge => 3
  | .dblenTooLarge => 4
  | .kdlenRange => 5
  | .payloadTooLong _ _ => 1
  | .extractTooLong _ _ => 2
  | .noRoomForHeader _ _ => 3
  | .headerTooLarge _ _ => 1
  | .unknownOpcode => 1
  | .reservedBit => 2
  | .noSplit => 1
  | .shapeMismatch => 2

/-- `ERRREQ`, the bits required: exact, 0 but for CapacityError and FramingError (R28, R214). -/
def Cause.req : Cause → Nat
  | .payloadTooLong r _ | .extractTooLong r _ | .noRoomForHeader r _ | .headerTooLarge r _ => r
  | .bppRange | .permInvalid | .dimsTooLarge | .dblenTooLarge | .kdlenRange
  | .unknownOpcode | .reservedBit | .noSplit | .shapeMismatch => 0

/-- `ERRAVAIL`, the bits available, `N*bpp`: 0 but for CapacityError and FramingError (R29, R214). -/
def Cause.avail : Cause → Nat
  | .payloadTooLong _ a | .extractTooLong _ a | .noRoomForHeader _ a | .headerTooLarge _ a => a
  | .bppRange | .permInvalid | .dimsTooLarge | .dblenTooLarge | .kdlenRange
  | .unknownOpcode | .reservedBit | .noSplit | .shapeMismatch => 0

/-- The IllegalCommand a word that does not decode raises (30_encoding.md R98). -/
def illegalCause : DecodeError → Cause
  | .unknownOpcode => .unknownOpcode
  | .reservedBit => .reservedBit

/-- STATUS as the host reads it: bit 0 ERR, bit 1 QV, bits [31:2] 0 (R24). -/
def statusWord (s : State) : Word := ((0 : BitVec 30) ++ BitVec.ofBool s.qv) ++ BitVec.ofBool s.err

/-- ERRCODE as the host reads it: CODE in [7:0], SUB in [15:8], bits [31:16] 0 (R27). -/
def errCodeWord (s : State) : Word := ((0 : Half) ++ s.errSub) ++ s.errCode

/-- `ERRREQ = ERRREQH * 2^32 + ERRREQL` (R28). -/
def errReq (s : State) : Nat := s.errReqH.toNat * 2 ^ 32 + s.errReqL.toNat

end Sys2Proof.Machine
end

