-- ==== Sys2Proof/Machine/Ops.lean ====
section
/-! DEFINITION. The named operations over memories and registers, the error entry (60_exceptions.md R216) and the return
from it (R219), the resets (10_state.md R48), and the frame every command runs in (R218; 00_scope.md R12). -/

namespace Sys2Proof.Machine

/-! ## Byte memories -/

/-- What an index that nothing has written reads as: the free value of the memory's draw (R48, U1; entry 1). -/
def Memory.unlisted (m : Memory) (i : Nat) : Byte := Config.powerOnByte m.draw i

/-- The byte written at an index, if any. -/
def lookupCell : List Host.Cell → Nat → Option Byte
  | [], _ => none
  | c :: cs, i => if c.1 = i then some c.2 else lookupCell cs i

/-- The cells with the byte at one index replaced, kept in rising order of index. -/
def insertCell (i : Nat) (b : Byte) : List Host.Cell → List Host.Cell
  | [] => [(i, b)]
  | c :: cs =>
    if i < c.1 then (i, b) :: c :: cs
    else if i = c.1 then (i, b) :: cs
    else c :: insertCell i b cs

/-- Read one byte (`PM[i]`, `DB[i]`, `QB[k].data[i]`; 00_scope.md R12). -/
def Memory.read (m : Memory) (i : Nat) : Byte := (lookupCell m.cells i).getD (m.unlisted i)

/-- Replace one byte "and nothing else" (20_memory.md R65; `X <- v` of R12). -/
def Memory.write (m : Memory) (i : Nat) (b : Byte) : Memory := { m with cells := insertCell i b m.cells }

/-- Write a list of (index, byte) pairs, first first. -/
def Memory.writeAll (m : Memory) (ws : List (Nat × Byte)) : Memory :=
  ws.foldl (fun m w => m.write w.1 w.2) m

/-- Write a byte sequence at indices 0, 1, 2, ... (R72: element 0 is the first byte of the sequence). -/
def Memory.load (m : Memory) (bytes : List Byte) : Memory :=
  m.writeAll ((List.range bytes.length).zip bytes)

/-- The byte sequence at indices `0 .. n-1`. -/
def Memory.bytes (m : Memory) (n : Nat) : List Byte := (List.range n).map m.read

/-- The canonical form of a memory of `size` bytes: indices strictly rising, each below the size. -/
abbrev Memory.wf (size : Nat) (m : Memory) : Prop :=
  m.cells.Pairwise (fun a b => a.1 < b.1) ∧ ∀ c ∈ m.cells, c.1 < size

/-! ## The key-digest file -/

/-- Read `KD[i]`, `i < 64` (R43). No access and no command reads an index of 64 or more; the function is total and
gives 0 there (entry 9). -/
def kdRead (kd : Vector Byte 64) (i : Nat) : Byte := (kd[i]?).getD 0

/-- Write `KD[i]`, `i < 64` (R43); no access writes an index of 64 or more. -/
def kdWrite (kd : Vector Byte 64) (i : Nat) (b : Byte) : Vector Byte 64 := kd.setIfInBounds i b

/-! ## Two-field registers -/

/-- The 32-bit value of a register of two 16-bit fields (R32, R36, R37). -/
def Shape.toWord (d : Shape) : Word := d.rows ++ d.cols

/-- The fields of a 32-bit register value (R32). -/
def Shape.ofWord (w : Word) : Shape := ⟨w.extractLsb' 16 16, w.extractLsb' 0 16⟩

/-- The register value for two numbers below 2^16. -/
def Shape.ofNats (rows cols : Nat) : Shape := ⟨BitVec.ofNat 16 rows, BitVec.ofNat 16 cols⟩

/-! ## Error entry and return -/

/-- ERROR ENTRY (R216): the command `w` failed with cause `c`. Nothing else changes. -/
def errorEntry (c : Cause) (w : Word) (s : State) : State :=
  { s with
    err := true
    errCode := c.code
    errSub := c.sub
    errReqL := BitVec.ofNat 32 (c.req % 2 ^ 32)
    errReqH := BitVec.ofNat 32 (c.req / 2 ^ 32)
    errAvail := BitVec.ofNat 32 c.avail
    errCmd := w }

/-- RETURN (R219, R201): the recorded error is cleared and the gate re-opened; nothing is restored. -/
def clearError (s : State) : State :=
  { s with err := false, errCode := 0, errSub := 0, errReqL := 0, errReqH := 0, errAvail := 0, errCmd := 0 }

/-! ## Resets -/

/-- The "after sys.sreset" column of R48: every register and `KD` 0; `PM`, `DB` and the quadrant data keep their bytes
(R202, R241). -/
def softReset (s : State) : State :=
  { s with
    err := false, qv := false, errCode := 0, errSub := 0, errReqL := 0, errReqH := 0, errAvail := 0, errCmd := 0
    dims := Shape.zero, dblen := 0, numbits := 0, kdlen := 0, vok := 0, splitpt := Shape.zero, hdrlen := 0
    kd := Vector.replicate 64 0
    qb := #v[⟨Shape.zero, s.qb[0].data⟩, ⟨Shape.zero, s.qb[1].data⟩, ⟨Shape.zero, s.qb[2].data⟩,
             ⟨Shape.zero, s.qb[3].data⟩] }

/-- A hard reset (R240): the "after hard reset" column of R48, with a fresh draw of the unspecified bytes. The host's
side is not the ISCC's and stays (entry 4). -/
def hardReset (s : State) : State :=
  { State.powerOn s.cfg (s.resets + 1) with pending := s.pending, cp := s.cp, results := s.results }

/-! ## The frame of a command -/

/-- What a command's checks and writes come to: the state it leaves, or the cause of the first check that failed, in
which case every write is discarded (R12, R68). -/
abbrev Effect := Except Cause State

/-- The command `i` with effect `e` in state `s`: ignored while an error is recorded (R218), else completed, or failed
with the error entry and the command's own word in `ERRCMD` (R30, R216). -/
def runCommand (i : Instr) (s : State) (e : Effect) : State :=
  if s.err then s
  else match e with
    | .ok t => t
    | .error c => errorEntry c (encode i) s

/-- A word that is no command (30_encoding.md R98), under the same gate (R215, R218). -/
def illegalCommand (d : DecodeError) (w : Word) (s : State) : State :=
  if s.err then s else errorEntry (illegalCause d) w s

/-! ## The host's side of one access -/

/-- The access at the head of the host's list is made: it leaves the list, `cp` advances by one and its response is
recorded (R21, R254; entry 2). -/
def State.answer (s : State) (rest : List HostEvent) (r : Response) : State :=
  { s with pending := rest, cp := s.cp + 1, results := r :: s.results }

end Sys2Proof.Machine
end

