-- ==== Sys2Proof/Machine/Operands.lean ====
section
/-! DEFINITION. The operands of the commands and the arithmetic on them: fields of the command word, operand registers,
bit sequences, the visiting order, groups of bits in samples, and quadrant geometry
(00_scope.md R10 to R13; 30_encoding.md R94, R95; 40 R120, R125; 42 R160 to R169). -/

namespace Sys2Proof.Machine

/-! ## Operand fields -/

/-- `1 <= bpp <= 4` (R94). -/
def bppLegal (b : Nat) : Bool := decide (1 ≤ b) && decide (b ≤ 4)

/-- `permvalid([p0, p1, p2, p3])`: all in {0,1,2,3} and pairwise distinct (R95, R125). -/
def permValid (p0 p1 p2 p3 : Nat) : Bool :=
  [p0, p1, p2, p3].all (fun p => decide (p ≤ 3)) && decide [p0, p1, p2, p3].Nodup

/-! ## Operand registers -/

/-- `H`, DIMS.HEIGHT (R32). -/
def State.height (s : State) : Nat := s.dims.rows.toNat

/-- `W`, DIMS.WIDTH (R32). -/
def State.width (s : State) : Nat := s.dims.cols.toNat

/-- `N = H * W`, without truncation (R12, R13). -/
def State.count (s : State) : Nat := s.height * s.width

/-- `avail = N * bpp` (R165). -/
def State.capacity (s : State) (b : Nat) : Nat := s.count * b

/-- `KDLEN` is legal for a cipher command: 1 to 64 (R31). -/
def State.kdlenLegal (s : State) : Bool := decide (1 ≤ s.kdlen.toNat) && decide (s.kdlen.toNat ≤ 64)

/-- Keystream byte `ks(i) = KD[i mod KDLEN]` (41_mlea_cipher.md R140). -/
def State.keystream (s : State) (i : Nat) : Byte := kdRead s.kd (i % s.kdlen.toNat)

/-! ## Bytes and bits -/

/-- `ceil(a/b) = (a + b - 1) div b` (00_scope.md section 5). -/
def ceilDiv (a b : Nat) : Nat := (a + b - 1) / b

/-- Rotate a byte left by one bit (R10). -/
def rotl8 (v : Byte) : Byte := (v <<< 1) ||| (v >>> 7)

/-- Rotate a byte right by one bit (R10). -/
def rotr8 (v : Byte) : Byte := (v >>> 1) ||| ((v &&& 1) <<< 7)

/-- `BE32(n)`, most significant byte first (R11). -/
def be32 (n : Word) : List Byte :=
  [n.extractLsb' 24 8, n.extractLsb' 16 8, n.extractLsb' 8 8, n.extractLsb' 0 8]

/-- `UBE32(s)` of a 4-byte sequence: the first byte is the most significant (R11). -/
def ube32 (s : List Byte) : Nat := s.foldl (fun acc b => acc * 2 ^ 8 + b.toNat) 0

/-- The bits of a byte, most significant first (R11, R71). -/
def byteBits (v : Byte) : List Bool := (List.range 8).map fun j => v.getLsbD (7 - j)

/-- `unpack(s)` (R11, R166). -/
def unpack (s : List Byte) : List Bool := s.flatMap byteBits

/-- The number whose binary digits are `bits`, the first the most significant: `sum over t of bit[t] << (len-1-t)`. -/
def bitsValue (bits : List Bool) : Nat := bits.foldl (fun acc b => 2 * acc + b.toNat) 0

/-- `pack(t)` for a bit sequence whose length is a multiple of 8 (R11). -/
def pack (t : List Bool) : List Byte :=
  (List.range (t.length / 8)).map fun i => BitVec.ofNat 8 (bitsValue ((t.drop (8 * i)).take 8))

/-! ## Visiting order -/

/-- The indices tile `t` contributes to `VO(N)`: `t*T + PAT[j]`, kept when below `N` (R160). -/
def tileOrder (pat : List Nat) (n t : Nat) : List Nat :=
  (pat.map fun p => t * pat.length + p).filter fun i => decide (i < n)

/-- `VO(N)` (R160). -/
def visitingOrder (pat : List Nat) (n : Nat) : List Nat :=
  (List.range (ceilDiv n pat.length)).flatMap (tileOrder pat n)

/-- `VO(N)` of the current plane. -/
def State.order (s : State) : List Nat := visitingOrder s.cfg.pat s.count

/-! ## Groups of bits in samples -/

/-- `put(v, g, b)`: clear the low `b` bits, then write the group (R169). -/
def putGroup (v : Byte) (g b : Nat) : Byte :=
  (v &&& (0xFF ^^^ BitVec.ofNat 8 (2 ^ b - 1))) ||| BitVec.ofNat 8 g

/-- The low `b` bits of a sample, the highest first: the bits one sample gives `readbits` (R163). -/
def sampleBits (v : Byte) (b : Nat) : List Bool := (List.range b).map fun t => v.getLsbD (b - 1 - t)

/-- The groups of `writebits`: `bits` padded with 0 to a whole number of groups of `b`, each read as a number with its
first bit most significant (R163, R168). -/
def groups (bits : List Bool) (b : Nat) : List Nat :=
  let np := ceilDiv bits.length b
  let padded := bits ++ List.replicate (np * b - bits.length) false
  (List.range np).map fun k => bitsValue ((padded.drop (k * b)).take b)

/-- `writebits(bits, b)` along a visiting order: pixel number `k` gets group `k` (R163). Each pixel is written at most
once (R162), so every sample is taken from the plane before the command (entry 8). -/
def writeBits (order : List Nat) (bits : List Bool) (b : Nat) (pm : Memory) : Memory :=
  pm.writeAll (List.zipWith (fun i g => (i, putGroup (pm.read i) g b)) order (groups bits b))

/-- `readbits(n, b)` along a visiting order (R163). -/
def readBits (order : List Nat) (n b : Nat) (pm : Memory) : List Bool :=
  ((order.take (ceilDiv n b)).flatMap fun i => sampleBits (pm.read i) b).take n

/-! ## Quadrant geometry -/

/-- One region of a plane: origin and shape (R120). -/
structure Region where
  /-- First row. -/
  r0   : Nat
  /-- First column. -/
  c0   : Nat
  /-- Rows. -/
  rows : Nat
  /-- Columns. -/
  cols : Nat
deriving DecidableEq, Repr

/-- Region `k` of an `h` by `w` plane at split point `(h2, w2)`: 0 top-left, 1 top-right, 2 bottom-left, 3 bottom-right
(R120). -/
def region (h w h2 w2 : Nat) (k : Fin 4) : Region :=
  match k with
  | 0 => ⟨0, 0, h2, w2⟩
  | 1 => ⟨0, w2, h2, w - w2⟩
  | 2 => ⟨h2, 0, h - h2, w2⟩
  | 3 => ⟨h2, w2, h - h2, w - w2⟩

/-- For each element `(r, c)` of a region, row by row: its index in the quadrant and its flat index in a plane of width
`w` (R13, R120). -/
def Region.cells (g : Region) (w : Nat) : List (Nat × Nat) :=
  (List.range g.rows).flatMap fun r =>
    (List.range g.cols).map fun c => (r * g.cols + c, (g.r0 + r) * w + g.c0 + c)

/-- The four positions. -/
def positions : List (Fin 4) := [0, 1, 2, 3]

end Sys2Proof.Machine
end

