-- ==== Sys2Proof/Machine/Bus.lean ====
section
/-! DEFINITION. The host bus: the address map, register and window accesses (20_memory.md R60 to R66; 10_state.md R22 to
R45, R49). The command port alone is not here: `Step.lean` runs the command a `CMD` write carries. -/

namespace Sys2Proof.Machine

/-- The registers of the window (10_state.md, register summary). -/
inductive Reg where
  | id | cmd | status | errcode | errreql | errreqh | erravail | errcmd
  | dims | dblen | numbits | kdlen | splitpt
  | qdim (k : Fin 4)
  | vok | voidx | hdrlen | pmmax | dbmax | tilelen
deriving DecidableEq, Repr

/-- What an access reaches: a register, or one byte of a window by its index (R63). -/
inductive Target where
  | reg (r : Reg)
  | kd (i : Nat)
  | pat (i : Nat)
  | db (i : Nat)
  | pm (i : Nat)
  | qb (k : Fin 4) (i : Nat)
deriving DecidableEq, Repr

/-- The register at an offset; offsets 0x5C to 0xFF are reserved (R49), and no register stands at an offset that is not
a multiple of 4 (R64). -/
def regAt (off : Nat) : Option Reg :=
  match off with
  | 0x00 => some .id
  | 0x04 => some .cmd
  | 0x08 => some .status
  | 0x0C => some .errcode
  | 0x10 => some .errreql
  | 0x14 => some .errreqh
  | 0x18 => some .erravail
  | 0x1C => some .errcmd
  | 0x20 => some .dims
  | 0x24 => some .dblen
  | 0x28 => some .numbits
  | 0x2C => some .kdlen
  | 0x30 => some .splitpt
  | 0x34 => some (.qdim 0)
  | 0x38 => some (.qdim 1)
  | 0x3C => some (.qdim 2)
  | 0x40 => some (.qdim 3)
  | 0x44 => some .vok
  | 0x48 => some .voidx
  | 0x4C => some .hdrlen
  | 0x50 => some .pmmax
  | 0x54 => some .dbmax
  | 0x58 => some .tilelen
  | _    => none

/-- The byte of a window at an offset (R63), only if its index is below the memory's size (R65). -/
def windowAt (c : Config) (off : Nat) : Option Target :=
  if 0x100 ≤ off ∧ off < 0x140 then some (.kd (off - 0x100))
  else if 0x200 ≤ off ∧ off < 0x300 then
    if off - 0x200 < c.tileLen then some (.pat (off - 0x200)) else none
  else if 0x00800000 ≤ off ∧ off < 0x01000000 then
    if off - 0x00800000 < c.dbMax then some (.db (off - 0x00800000)) else none
  else if 0x01000000 ≤ off ∧ off < 0x02000000 then
    if off - 0x01000000 < c.pmMax then some (.pm (off - 0x01000000)) else none
  else if 0x02000000 ≤ off ∧ off < 0x03000000 then
    if off - 0x02000000 < c.pmMax then some (.qb 0 (off - 0x02000000)) else none
  else if 0x03000000 ≤ off ∧ off < 0x04000000 then
    if off - 0x03000000 < c.pmMax then some (.qb 1 (off - 0x03000000)) else none
  else if 0x04000000 ≤ off ∧ off < 0x05000000 then
    if off - 0x04000000 < c.pmMax then some (.qb 2 (off - 0x04000000)) else none
  else if 0x05000000 ≤ off ∧ off < 0x06000000 then
    if off - 0x05000000 < c.pmMax then some (.qb 3 (off - 0x05000000)) else none
  else none

/-- What an access of width `n` at an offset reaches; none is a BusError: registers accept only 4-byte accesses, windows
only 1-byte accesses (R61, R64, R65). -/
def locate (c : Config) (off n : Nat) : Option Target :=
  if n = 4 then (regAt off).map .reg
  else if n = 1 then windowAt c off
  else none

/-- `VOIDX` (10_state.md R38): `VO(N)[VOK]` if `VOK < N`, else 0xFFFFFFFF. -/
def voidx (s : State) : Word :=
  match s.order[s.vok.toNat]? with
  | some i => BitVec.ofNat 32 i
  | none => 0xFFFFFFFF

/-- The 32-bit value a read of a register returns. -/
def readReg (s : State) : Reg → Word
  | .id => 0x49534301
  | .cmd => 0
  | .status => statusWord s
  | .errcode => errCodeWord s
  | .errreql => s.errReqL
  | .errreqh => s.errReqH
  | .erravail => s.errAvail
  | .errcmd => s.errCmd
  | .dims => s.dims.toWord
  | .dblen => s.dblen
  | .numbits => s.numbits
  | .kdlen => s.kdlen
  | .splitpt => s.splitpt.toWord
  | .qdim k => s.qb[k].shape.toWord
  | .vok => s.vok
  | .voidx => voidx s
  | .hdrlen => s.hdrlen
  | .pmmax => BitVec.ofNat 32 s.cfg.pmMax
  | .dbmax => BitVec.ofNat 32 s.cfg.dbMax
  | .tilelen => BitVec.ofNat 32 s.cfg.tileLen

/-- The response to a read of what `locate` found. -/
def readTarget (s : State) : Target → Response
  | .reg r => .okWord (readReg s r)
  | .kd i => .okByte (kdRead s.kd i)
  | .pat i => .okByte (BitVec.ofNat 8 (s.cfg.pat.getD i 0))
  | .db i => .okByte (s.db.read i)
  | .pm i => .okByte (s.pm.read i)
  | .qb k i => .okByte (s.qb[k].data.read i)

/-- `MemRead(off, n)` (R60). A read changes nothing (R67). -/
def busRead (s : State) (off n : Nat) : Response :=
  match locate s.cfg off n with
  | some t => readTarget s t
  | none => .busError

/-- The state after a write of `v` to a register, or none: a write to a read-only register is a BusError (R64). `CMD` is
writable and stores nothing (10_state.md R23); the command it carries is run by the step. -/
def writeReg (s : State) (v : Word) : Reg → Option State
  | .cmd => some s
  | .dims => some { s with dims := Shape.ofWord v }
  | .dblen => some { s with dblen := v }
  | .numbits => some { s with numbits := v }
  | .kdlen => some { s with kdlen := v }
  | .vok => some { s with vok := v }
  | .id | .status | .errcode | .errreql | .errreqh | .erravail | .errcmd | .splitpt | .qdim _
  | .voidx | .hdrlen | .pmmax | .dbmax | .tilelen => none

/-- The state after a write of `v` to what `locate` found, or none for a read-only place (R64, R65). -/
def writeTarget (s : State) (v : Word) : Target → Option State
  | .reg r => writeReg s v r
  | .kd i => some { s with kd := kdWrite s.kd i (v.setWidth 8) }
  | .db i => some { s with db := s.db.write i (v.setWidth 8) }
  | .pm i => some { s with pm := s.pm.write i (v.setWidth 8) }
  | .pat _ | .qb _ _ => none

/-- `MemWrite(off, n, v)` (R60), `v` zero-extended to 32 bits; none is a BusError. -/
def busWrite (s : State) (off n : Nat) (v : Word) : Option State :=
  (locate s.cfg off n).bind (writeTarget s v)

/-- The access is a write to the command port: 4 bytes at offset 0x04 (10_state.md R23). -/
def isCommandPort (off n : Nat) : Bool := decide (off = 0x04) && decide (n = 4)

end Sys2Proof.Machine
end

