-- ==== Sys2Proof/Machine/Bpc.lean ====
section
/-! DEFINITION. BPC, the LSB bit-plane codec and framer (42_bpc_bitplane_codec.md R160 to R173). -/

namespace Sys2Proof.Machine

/-- The payload of `bpc.embed`: `DB[0 .. DBLEN)` as it is (R170). -/
def rawPayload (s : State) : List Byte := s.db.bytes s.dblen.toNat

/-- The payload of `bpc.embedf`: `BE32(DBLEN) ++ DB[0 .. DBLEN)` (R172). -/
def framedPayload (s : State) : List Byte := be32 s.dblen ++ s.db.bytes s.dblen.toNat

/-- The checks of both embed commands in the order of R170 and R172 for a payload of `len` bytes, then
`writebits(unpack(payload), b)`. -/
def embedEffect (b len : Nat) (payload : List Byte) (s : State) : Effect :=
  if bppLegal b = false then .error .bppRange
  else if s.cfg.pmMax < s.count then .error .dimsTooLarge
  else if s.cfg.dbMax < s.dblen.toNat then .error .dblenTooLarge
  else if s.capacity b < 8 * len then .error (.payloadTooLong (8 * len) (s.capacity b))
  else .ok { s with pm := writeBits s.order (unpack payload) b s.pm }

/-- `bpc.embed b` (R170). -/
def execBpcEmbed (bpp : Nat) (s : State) : Result :=
  .next (runCommand (.bpcEmbed bpp) s (embedEffect bpp s.dblen.toNat (rawPayload s) s))

/-- `bpc.embedf b` (R172): the header is put into the stream, not into the buffer. -/
def execBpcEmbedf (bpp : Nat) (s : State) : Result :=
  .next (runCommand (.bpcEmbedf bpp) s (embedEffect bpp (s.dblen.toNat + 4) (framedPayload s) s))

/-- The checks and writes of `bpc.extract b` (R171): `NUMBITS` bits, the last byte padded with 0 bits. -/
def extractEffect (b : Nat) (s : State) : Effect :=
  if bppLegal b = false then .error .bppRange
  else if s.cfg.pmMax < s.count then .error .dimsTooLarge
  else
    let n := s.numbits.toNat
    if s.capacity b < n then .error (.extractTooLong n (s.capacity b))
    else
      let lout := ceilDiv n 8
      let out := pack (readBits s.order n b s.pm ++ List.replicate (8 * lout - n) false)
      .ok { s with db := s.db.load out, dblen := BitVec.ofNat 32 lout }

/-- `bpc.extract b` (R171). -/
def execBpcExtract (bpp : Nat) (s : State) : Result :=
  .next (runCommand (.bpcExtract bpp) s (extractEffect bpp s))

/-- `cipher_length`: the 32 header bits as a big-endian number (`read_header`, R173). -/
def headerLength (b : Nat) (s : State) : Nat := ube32 (pack (readBits s.order 32 b s.pm))

/-- The checks and writes of `bpc.extractf b` (R173). -/
def extractfEffect (b : Nat) (s : State) : Effect :=
  if bppLegal b = false then .error .bppRange
  else if s.cfg.pmMax < s.count then .error .dimsTooLarge
  else if s.capacity b < 32 then .error (.noRoomForHeader 32 (s.capacity b))
  else
    let len := headerLength b s
    let req := 32 + 8 * len
    if s.capacity b < req then .error (.headerTooLarge req (s.capacity b))
    else
      let body := pack ((readBits s.order req b s.pm).drop 32)
      .ok { s with db := s.db.load body, dblen := BitVec.ofNat 32 len, hdrlen := BitVec.ofNat 32 len }

/-- `bpc.extractf b` (R173). -/
def execBpcExtractf (bpp : Nat) (s : State) : Result :=
  .next (runCommand (.bpcExtractf bpp) s (extractfEffect bpp s))

end Sys2Proof.Machine
end

