-- ==== Sys2Proof/Machine/Bpe.lean ====
section
/-! DEFINITION. BPE, the block permutation engine (40_bpe_block_permutation.md R120 to R125). -/

namespace Sys2Proof.Machine

/-- Region `k` of the current plane at the split point of `bpe.split`, `(H div 2, W div 2)` (R121), also where one
dimension is 0 (DESIGN CHOICE, entry 14). -/
def State.splitRegion (s : State) (k : Fin 4) : Region :=
  region s.height s.width (s.height / 2) (s.width / 2) k

/-- Region `k` of the current plane at the recorded split point `SPLITPT` (R124). -/
def State.mergeRegion (s : State) (k : Fin 4) : Region :=
  region s.height s.width s.splitpt.rows.toNat s.splitpt.cols.toNat k

/-- Quadrant `k` after `bpe.split`: region `k` of the plane, row-major; data beyond the shape unchanged (R121). -/
def splitQuadrant (s : State) (k : Fin 4) : Quadrant :=
  let g := s.splitRegion k
  { shape := Shape.ofNats g.rows g.cols
    data := s.qb[k].data.writeAll ((g.cells s.width).map fun x => (x.1, s.pm.read x.2)) }

/-- The checks and writes of `bpe.split` (R121). SPLITPT is `(H div 2, W div 2)` in every case, as the pseudocode and R36
have it; where just one dimension is 0 and the other is at least 2, R121's corner cases say `SPLITPT = 0` instead, and the
spec does not settle which holds (DESIGN CHOICE, entry 14). -/
def splitEffect (s : State) : Effect :=
  if s.cfg.pmMax < s.count then .error .dimsTooLarge
  else .ok { s with
    qb := #v[splitQuadrant s 0, splitQuadrant s 1, splitQuadrant s 2, splitQuadrant s 3]
    splitpt := Shape.ofNats (s.height / 2) (s.width / 2)
    qv := true }

/-- `bpe.split` (R121). -/
def execBpeSplit (s : State) : Result := .next (runCommand .bpeSplit s (splitEffect s))

/-- The buffer at position `p`. `bpe.perm` asks only for `p <= 3` (the permutation is checked first). -/
def quadrantAt (qb : Vector Quadrant 4) (p : Nat) : Quadrant := qb[Fin.ofNat 4 p]

/-- `for i in 0..3: QB[i] <- old[p[i]]`, whole buffers (R122). -/
def permuteQuadrants (qb : Vector Quadrant 4) (p0 p1 p2 p3 : Nat) : Vector Quadrant 4 :=
  #v[quadrantAt qb p0, quadrantAt qb p1, quadrantAt qb p2, quadrantAt qb p3]

/-- `for i in 0..3: QB[p[i]] <- old[i]`, whole buffers (R123). -/
def unpermuteQuadrants (qb : Vector Quadrant 4) (p0 p1 p2 p3 : Nat) : Vector Quadrant 4 :=
  (((qb.setIfInBounds p0 qb[0]).setIfInBounds p1 qb[1]).setIfInBounds p2 qb[2]).setIfInBounds p3 qb[3]

/-- The checks of `bpe.perm` and `bpe.unperm`, then the buffers replaced (R122, R123). -/
def reorderEffect (p0 p1 p2 p3 : Nat) (qb' : Vector Quadrant 4) (s : State) : Effect :=
  if permValid p0 p1 p2 p3 = false then .error .permInvalid
  else if s.qv = false then .error .noSplit
  else .ok { s with qb := qb' }

/-- `bpe.perm p0,p1,p2,p3` (R122). -/
def execBpePerm (p0 p1 p2 p3 : Nat) (s : State) : Result :=
  .next (runCommand (.bpePerm p0 p1 p2 p3) s
    (reorderEffect p0 p1 p2 p3 (permuteQuadrants s.qb p0 p1 p2 p3) s))

/-- `bpe.unperm p0,p1,p2,p3` (R123). -/
def execBpeUnperm (p0 p1 p2 p3 : Nat) (s : State) : Result :=
  .next (runCommand (.bpeUnperm p0 p1 p2 p3) s
    (reorderEffect p0 p1 p2 p3 (unpermuteQuadrants s.qb p0 p1 p2 p3) s))

/-- The quadrant at position `k` has exactly the shape of region `k`, compared as a pair (R124). -/
def fitsPosition (s : State) (k : Fin 4) : Bool :=
  decide (s.qb[k].shape.rows.toNat = (s.mergeRegion k).rows) &&
  decide (s.qb[k].shape.cols.toNat = (s.mergeRegion k).cols)

/-- The writes of `bpe.merge`: every element of every quadrant to its place in the plane (R124). -/
def mergeWrites (s : State) : List (Nat × Byte) :=
  positions.flatMap fun k => ((s.mergeRegion k).cells s.width).map fun x => (x.2, s.qb[k].data.read x.1)

/-- The checks and writes of `bpe.merge` (R124). -/
def mergeEffect (s : State) : Effect :=
  if s.cfg.pmMax < s.count then .error .dimsTooLarge
  else if s.qv = false then .error .noSplit
  else if s.height < s.splitpt.rows.toNat ∨ s.width < s.splitpt.cols.toNat then .error .shapeMismatch
  else if positions.all (fitsPosition s) = false then .error .shapeMismatch
  else .ok { s with pm := s.pm.writeAll (mergeWrites s) }

/-- `bpe.merge` (R124). -/
def execBpeMerge (s : State) : Result := .next (runCommand .bpeMerge s (mergeEffect s))

end Sys2Proof.Machine
end

