-- ==== Sys2Proof/Machine/Mlea.lean ====
section
/-! DEFINITION. MLEA, the byte cipher (41_mlea_cipher.md R140 to R144). -/

namespace Sys2Proof.Machine

/-- The byte scrambler `E` (R141). -/
def scramble (x : Byte) : Byte :=
  let r := rotl8 x
  let b1 := r.extractLsb' 4 4
  let b2 := r.extractLsb' 0 4
  (b2 ^^^ b1) ++ b1

/-- The byte unscrambler `Dinv` (R142). -/
def unscramble (y : Byte) : Byte :=
  let b2e := y.extractLsb' 4 4
  let b1 := y.extractLsb' 0 4
  rotr8 (b1 ++ (b2e ^^^ b1))

/-- The checks of both cipher commands, then `DB[i] <- f(i, DB[i])` for `i < DBLEN` (R143, R144). -/
def cipherEffect (f : Nat → Byte → Byte) (s : State) : Effect :=
  if s.cfg.dbMax < s.dblen.toNat then .error .dblenTooLarge
  else if s.kdlenLegal = false then .error .kdlenRange
  else .ok { s with db := s.db.writeAll ((List.range s.dblen.toNat).map fun i => (i, f i (s.db.read i))) }

/-- `mlea.enc` (R143). -/
def execMleaEnc (s : State) : Result :=
  .next (runCommand .mleaEnc s (cipherEffect (fun i x => scramble x ^^^ s.keystream i) s))

/-- `mlea.dec` (R144). -/
def execMleaDec (s : State) : Result :=
  .next (runCommand .mleaDec s (cipherEffect (fun i y => unscramble (y ^^^ s.keystream i)) s))

end Sys2Proof.Machine
end

