-- ==== Sys2Proof/Machine/Sys.lean ====
section
/-! DEFINITION. SYS, the housekeeping commands (43_sys_commands.md R200 to R202). -/

namespace Sys2Proof.Machine

/-- `sys.nop` (R200): nothing, whatever the state. -/
def execSysNop (s : State) : Result := .next s

/-- `sys.clrerr` (R201), executed whether STATUS.ERR is 0 or 1 (R218). -/
def execSysClrerr (s : State) : Result := .next (clearError s)

/-- `sys.sreset` (R202), executed whether STATUS.ERR is 0 or 1 (R218). -/
def execSysSreset (s : State) : Result := .next (softReset s)

end Sys2Proof.Machine
end

