-- ==== Sys2Proof/Machine/Dispatch.lean ====
section
/-! DEFINITION. One arm per command (30_encoding.md R97). -/

namespace Sys2Proof.Machine

def exec (i : Instr) (s : State) : Host.Outcome State Fault Refusal :=
  match i with
  | .sysNop => Sys2Proof.Machine.execSysNop s
  | .sysClrerr => Sys2Proof.Machine.execSysClrerr s
  | .sysSreset => Sys2Proof.Machine.execSysSreset s
  | .bpcEmbed bpp => Sys2Proof.Machine.execBpcEmbed bpp s
  | .bpcExtract bpp => Sys2Proof.Machine.execBpcExtract bpp s
  | .bpcEmbedf bpp => Sys2Proof.Machine.execBpcEmbedf bpp s
  | .bpcExtractf bpp => Sys2Proof.Machine.execBpcExtractf bpp s
  | .mleaEnc => Sys2Proof.Machine.execMleaEnc s
  | .mleaDec => Sys2Proof.Machine.execMleaDec s
  | .bpeSplit => Sys2Proof.Machine.execBpeSplit s
  | .bpePerm p0 p1 p2 p3 => Sys2Proof.Machine.execBpePerm p0 p1 p2 p3 s
  | .bpeUnperm p0 p1 p2 p3 => Sys2Proof.Machine.execBpeUnperm p0 p1 p2 p3 s
  | .bpeMerge => Sys2Proof.Machine.execBpeMerge s

end Sys2Proof.Machine
end

