-- ==== Sys2Proof/Machine/Step.lean ====
section
/-! DEFINITION. One step of the machine: the first event of the host's list is made, completely (20_memory.md R62). -/

namespace Sys2Proof.Machine

/-- The command word `w` is executed (10_state.md R23): decoded and run, or recorded as an illegal command
(30_encoding.md R97, R98). The gate of R218 is inside: every command but `sys.clrerr` and `sys.sreset`, and every
illegal word, is ignored while an error is recorded. -/
def executeWord (w : Word) (s : State) : Result :=
  match decode w with
  | .ok i => exec i s
  | .error d => .next (illegalCommand d w s)

/-- One access (R60, R62), `rest` being what the host does after it. A `CMD` write answers OK whatever the command does
(60_exceptions.md R216, R218). -/
def performAccess (s : State) (rest : List HostEvent) : Access → Result
  | .read off n => .next (s.answer rest (busRead s off.toNat n))
  | .write off n v =>
    if isCommandPort off.toNat n then executeWord (v.setWidth 32) (s.answer rest .ok)
    else match busWrite s off.toNat n (v.setWidth 32) with
      | some t => .next (t.answer rest .ok)
      | none => .next (s.answer rest .busError)

/-- One step: the host's next access, or a hard reset; with nothing left to do the run has ended and the ISCC, which
"does nothing on its own" (70_reset_and_hazards.md R240, R254), stays as it is (entry 3). -/
def step (s : State) : Host.Outcome State Fault Refusal :=
  match s.pending with
  | [] => .next s
  | .hardReset :: rest => .next (hardReset { s with pending := rest })
  | .access a :: rest => performAccess s rest a

/-- The state in which the host's next access is the `CMD` write of the table word `w` (entry 2). -/
def State.withFetchWord (s : State) (nbits w : Nat) : State :=
  { s with pending :=
      .access (.write 0x04 4 (BitVec.ofNat 32 (w % 2 ^ nbits))) :: s.pending }

end Sys2Proof.Machine
end

