-- ==== Sys2Proof/Safety.lean ====
section
/-! DEFINITION. What a well-behaved ISCC state is, in the terms the statements use. -/

namespace Sys2Proof.Machine

/-- Every memory is in its canonical form and holds only indices it has (10_state.md R41, R42, R44). -/
def State.memoriesWf (s : State) : Prop :=
  s.pm.wf s.cfg.pmMax ∧ s.db.wf s.cfg.dbMax ∧ ∀ k : Fin 4, s.qb[k].data.wf s.cfg.pmMax

/-- Each quadrant's samples `QB[k].data[0 .. ROWS*COLS)` exist: "a quadrant never needs more than PM_MAX bytes"
(R44). -/
def State.quadrantsFit (s : State) : Prop :=
  ∀ k : Fin 4, s.qb[k].shape.rows.toNat * s.qb[k].shape.cols.toNat ≤ s.cfg.pmMax

/-- No error is recorded and the error registers read 0 (R27 to R30: each "0 when no error is recorded"). -/
def State.errorClear (s : State) : Prop :=
  s.errCode = 0 ∧ s.errSub = 0 ∧ s.errReqL = 0 ∧ s.errReqH = 0 ∧ s.errAvail = 0 ∧ s.errCmd = 0

/-- An error is recorded: a code of R211, and figures within the bounds of R29 and R214. -/
def State.errorRecorded (s : State) : Prop :=
  1 ≤ s.errCode.toNat ∧ s.errCode.toNat ≤ 5 ∧ s.errAvail.toNat ≤ 2 ^ 26 ∧
  errReq s ≤ 2 ^ 35 + 24

/-- STATUS.ERR says whether an error is recorded (R26, R27). -/
def State.errorConsistent (s : State) : Prop :=
  if s.err then s.errorRecorded else s.errorClear

/-- While STATUS.QV is 0 no split has completed since reset, so SPLITPT and the QDIMk hold their reset value 0
(R25, R36, R37, R48). -/
def State.quadrantsUnsplit (s : State) : Prop :=
  s.qv = false → s.splitpt = Shape.zero ∧ ∀ k : Fin 4, s.qb[k].shape = Shape.zero

/-- The invariant of the ISCC: it holds after reset and every step keeps it. -/
structure State.Inv (s : State) : Prop where
  memories  : s.memoriesWf
  fit       : s.quadrantsFit
  errors    : s.errorConsistent
  unsplit   : s.quadrantsUnsplit
  /-- Every access made has exactly one recorded result (R60, R254). -/
  responses : s.results.length = s.cp

/-- The ISCC parts of two states are the same; the host's list, `cp` and results may differ. "A BusError changes no
state at all" (20_memory.md R61) says it of the ISCC. -/
def State.sameDevice (s t : State) : Prop :=
  t = { s with pending := t.pending, cp := t.cp, results := t.results }

/-! ## The terms of the statements, written from the rules and not from the meanings -/

/-- `s` with an error recorded: code, sub-code, bits required, bits available, and the word that failed
(60_exceptions.md R216). -/
def State.failed (s : State) (code sub : Byte) (req avail : Nat) (w : Word) : State :=
  { s with
    err := true, errCode := code, errSub := sub
    errReqL := BitVec.ofNat 32 (req % 2 ^ 32), errReqH := BitVec.ofNat 32 (req / 2 ^ 32)
    errAvail := BitVec.ofNat 32 avail, errCmd := w }

/-- Every register reads its reset value and every byte of KD is 0 (10_state.md R48, both columns). -/
def State.registersClear (s : State) : Prop :=
  s.err = false ∧ s.qv = false ∧ s.errCode = 0 ∧ s.errSub = 0 ∧ s.errReqL = 0 ∧ s.errReqH = 0 ∧ s.errAvail = 0 ∧
  s.errCmd = 0 ∧ s.dims = ⟨0, 0⟩ ∧ s.dblen = 0 ∧ s.numbits = 0 ∧ s.kdlen = 0 ∧ s.splitpt = ⟨0, 0⟩ ∧ s.vok = 0 ∧
  s.hdrlen = 0 ∧ (∀ k : Fin 4, s.qb[k].shape = ⟨0, 0⟩) ∧ ∀ i, kdRead s.kd i = 0

/-- The host's next access is the `CMD` write of `w` (10_state.md R23). -/
def cmdWrite (w : Word) : HostEvent := .access (.write 0x04 4 w)

/-- A read of `n` bytes at `off` is answered with `r` and changes nothing of the ISCC (20_memory.md R60, R67). -/
def readsAs (s : State) (off : Word) (n : Nat) (r : Response) : Prop :=
  ∀ rest, step { s with pending := .access (.read off n) :: rest } = .next (s.answer rest r)

/-- A write of `v`, `n` bytes wide, at `off` is answered OK and leaves the ISCC as in `t` (R60). -/
def writesAs (s : State) (off : Word) (n : Nat) (v : BitVec (8 * n)) (t : State) : Prop :=
  ∀ rest, step { s with pending := .access (.write off n v) :: rest } = .next (t.answer rest .ok)

/-- An access is answered BusError and changes nothing of the ISCC (R61). -/
def notAccepted (s : State) (a : Access) : Prop :=
  ∀ rest, step { s with pending := .access a :: rest } = .next (s.answer rest .busError)

/-- The byte windows of R63: first offset, number of mapped bytes (R65), and whether the host may write there. -/
def windows (c : Config) : List (Nat × Nat × Bool) := [
  (0x00000100, 64, true), (0x00000200, c.tileLen, false), (0x00800000, c.dbMax, true), (0x01000000, c.pmMax, true),
  (0x02000000, c.pmMax, false), (0x03000000, c.pmMax, false), (0x04000000, c.pmMax, false),
  (0x05000000, c.pmMax, false)]

/-- The ISCC accepts the access: an aligned 4-byte read of a register; a 4-byte write of a writable register, those of
the register summary marked WO or RW; a 1-byte access to a mapped byte of a window, a write only where the host may
write (R61, R63 to R65; 10_state.md register summary). -/
def accepted (c : Config) : Access → Prop
  | .read off n => (n = 4 ∧ off.toNat % 4 = 0 ∧ off.toNat < 0x5C) ∨
    (n = 1 ∧ ∃ x ∈ windows c, x.1 ≤ off.toNat ∧ off.toNat < x.1 + x.2.1)
  | .write off n _ => (n = 4 ∧ off.toNat ∈ [0x04, 0x20, 0x24, 0x28, 0x2C, 0x44]) ∨
    (n = 1 ∧ ∃ x ∈ windows c, x.2.2 = true ∧ x.1 ≤ off.toNat ∧ off.toNat < x.1 + x.2.1)

/-- A response is of the kind an accepted access has: a read returns a value of `8*n` bits, a write none (R60). -/
def Access.answeredBy : Access → Response → Prop
  | .read _ n, r => (n = 1 ∧ ∃ v, r = .okByte v) ∨ (n = 4 ∧ ∃ v, r = .okWord v)
  | .write _ _ _, r => r = .ok

/-- The word of a format B command, `OP | (b << 8)` (30_encoding.md R92, R101). -/
def wordB (op b : Nat) : Word := BitVec.ofNat 32 (op + b * 2 ^ 8)

/-- The word of a format P command, `OP | (p0 << 8) | (p1 << 12) | (p2 << 16) | (p3 << 20)` (R93, R101). -/
def wordP (op p0 p1 p2 p3 : Nat) : Word :=
  BitVec.ofNat 32 (op + p0 * 2 ^ 8 + p1 * 2 ^ 12 + p2 * 2 ^ 16 + p3 * 2 ^ 20)

/-- Commands run one after the other, each on the state the last left; stops where one does. -/
def execSeq : List Instr → State → Result
  | [], s => .next s
  | i :: is, s =>
    match exec i s with
    | .next t => execSeq is t
    | .fault f => .fault f
    | .refused r => .refused r

/-- Bit `m` of the stream `DB[0 .. DBLEN)`: bit `7 - (m mod 8)` of byte `m div 8` (42 R166). -/
def rawBit (s : State) (m : Nat) : Bool := (s.db.read (m / 8)).getLsbD (7 - m % 8)

/-- Bit `m` of the stream `BE32(DBLEN) ++ DB[0 .. DBLEN)`: the header's 32 bits, most significant first, then the data
(42 R172; 20 R70, R71). -/
def framedBit (s : State) (m : Nat) : Bool :=
  if m < 32 then s.dblen.getLsbD (31 - m) else rawBit s (m - 32)

/-- Bit `m` of the stream the plane holds at `b` bits per pixel: bit `b - 1 - (m mod b)` of the sample visited at
position `m div b` (42 R167, R168). -/
def planeBit (s : State) (b m : Nat) : Bool :=
  (s.pm.read (s.order.getD (m / b) 0)).getLsbD (b - 1 - m % b)

/-- `pm'` is the plane of `s` with a stream of `n` bits written at `b` bits per pixel: pixel number `k` of the first
`ceil(n/b)` holds stream bits `k*b ..` in its low `b` bits, the earlier bit higher, 0 past the end, and keeps its other
bits; every other byte is kept (42 R167 to R169, R175). -/
def embedsStream (s : State) (pm' : Memory) (b n : Nat) (bit : Nat → Bool) : Prop :=
  (∀ k i, k < ceilDiv n b → s.order[k]? = some i → ∀ u < 8,
    (pm'.read i).getLsbD u =
      if u < b then decide (k * b + (b - 1 - u) < n) && bit (k * b + (b - 1 - u)) else (s.pm.read i).getLsbD u) ∧
  ∀ j, j ∉ s.order.take (ceilDiv n b) → pm'.read j = s.pm.read j

/-- `db'` is the data buffer of `s` with its first `ceil(n/8)` bytes replaced by a stream of `n` bits, most significant
first, the last byte filled with 0 bits; every other byte is kept (42 R171). -/
def holdsStream (s : State) (db' : Memory) (n : Nat) (bit : Nat → Bool) : Prop :=
  (∀ q < ceilDiv n 8, ∀ u < 8,
    (db'.read q).getLsbD (7 - u) = (decide (8 * q + u < n) && bit (8 * q + u))) ∧
  ∀ j, ceilDiv n 8 ≤ j → db'.read j = s.db.read j

/-- What an error records (60_exceptions.md R214). -/
structure ErrorFigures where
  /-- ERRCODE.CODE (R211). -/
  code  : Byte
  /-- ERRCODE.SUB (R212). -/
  sub   : Byte
  /-- Bits required. -/
  req   : Nat
  /-- Bits available. -/
  avail : Nat
deriving DecidableEq, Repr

/-- SPLITPT lies in the plane and every QDIMk is the shape of position `k` at SPLITPT (40 R120, R124). -/
def quadrantsFitPositions (s : State) : Prop :=
  let h2 := s.splitpt.rows.toNat
  let w2 := s.splitpt.cols.toNat
  let dim (k : Fin 4) := (s.qb[k].shape.rows.toNat, s.qb[k].shape.cols.toNat)
  h2 ≤ s.height ∧ w2 ≤ s.width ∧ dim 0 = (h2, w2) ∧ dim 1 = (h2, s.width - w2) ∧
  dim 2 = (s.height - h2, w2) ∧ dim 3 = (s.height - h2, s.width - w2)

end Sys2Proof.Machine

namespace Sys2Proof

/-- The `bpp` operand of a command that has one (30_encoding.md R94). -/
def Instr.bppOperand : Instr → Option Nat
  | .bpcEmbed b | .bpcExtract b | .bpcEmbedf b | .bpcExtractf b => some b
  | .sysNop | .sysClrerr | .sysSreset | .mleaEnc | .mleaDec | .bpeSplit | .bpePerm _ _ _ _ | .bpeUnperm _ _ _ _
  | .bpeMerge => none

/-- The permutation operand of a command that has one (R95). -/
def Instr.permOperand : Instr → Option (List Nat)
  | .bpePerm p0 p1 p2 p3 | .bpeUnperm p0 p1 p2 p3 => some [p0, p1, p2, p3]
  | .sysNop | .sysClrerr | .sysSreset | .mleaEnc | .mleaDec | .bpeSplit | .bpeMerge
  | .bpcEmbed _ | .bpcExtract _ | .bpcEmbedf _ | .bpcExtractf _ => none

/-- The commands for which R212 lists the `DIMS` check. -/
def Instr.checksDims (i : Instr) : Bool :=
  ["bpe.split", "bpe.merge", "bpc.embed", "bpc.extract", "bpc.embedf", "bpc.extractf"].contains i.mnemonic

/-- The commands for which R212 lists the `DBLEN` check. -/
def Instr.checksDblen (i : Instr) : Bool :=
  ["bpc.embed", "bpc.embedf", "mlea.enc", "mlea.dec"].contains i.mnemonic

/-- The commands for which R212 lists the `KDLEN` check. -/
def Instr.checksKdlen (i : Instr) : Bool := ["mlea.enc", "mlea.dec"].contains i.mnemonic

/-- The commands for which R212 lists the `STATUS.QV` check. -/
def Instr.checksSplit (i : Instr) : Bool := ["bpe.perm", "bpe.unperm", "bpe.merge"].contains i.mnemonic

/-- The bits a capacity check requires, with the sub-code of R212 it reports. -/
def Instr.capacityRequest (i : Instr) (s : Machine.State) : Option (Byte × Nat) :=
  match i with
  | .bpcEmbed _ => some (1, 8 * s.dblen.toNat)
  | .bpcEmbedf _ => some (1, 8 * (s.dblen.toNat + 4))
  | .bpcExtract _ => some (2, s.numbits.toNat)
  | .bpcExtractf _ => some (3, 32)
  | .sysNop | .sysClrerr | .sysSreset | .mleaEnc | .mleaDec | .bpeSplit | .bpePerm _ _ _ _ | .bpeUnperm _ _ _ _
  | .bpeMerge => none

end Sys2Proof

namespace Sys2Proof.Machine

/-- `e` is an error of command `i` in state `s` at stage `n` of the priority order of R215, with the figures of R212 and
R214: 3 operand fields of the word, 4 to 6 operand registers `DIMS`, `DBLEN`, `KDLEN`, 7 and 8 quadrant state,
9 capacity, 10 framing. Stages 1 and 2, the gate and the decoder, are not about a decoded command. -/
inductive errorAt (i : Instr) (s : State) : Nat → ErrorFigures → Prop where
  | bpp {b} (h : i.bppOperand = some b) (hb : ¬(1 ≤ b ∧ b ≤ 4)) : errorAt i s 3 ⟨1, 1, 0, 0⟩
  | perm {p} (h : i.permOperand = some p) (hp : ¬(p.Perm [0, 1, 2, 3])) : errorAt i s 3 ⟨1, 2, 0, 0⟩
  | dims (h : i.checksDims = true) (hn : s.cfg.pmMax < s.height * s.width) : errorAt i s 4 ⟨1, 3, 0, 0⟩
  | dblen (h : i.checksDblen = true) (hn : s.cfg.dbMax < s.dblen.toNat) : errorAt i s 5 ⟨1, 4, 0, 0⟩
  | kdlen (h : i.checksKdlen = true) (hn : s.kdlen.toNat = 0 ∨ 64 < s.kdlen.toNat) : errorAt i s 6 ⟨1, 5, 0, 0⟩
  | noSplit (h : i.checksSplit = true) (hq : s.qv = false) : errorAt i s 7 ⟨5, 1, 0, 0⟩
  | shapes (h : i = .bpeMerge) (hf : ¬quadrantsFitPositions s) : errorAt i s 8 ⟨5, 2, 0, 0⟩
  | capacity {b sub req} (h : i.bppOperand = some b) (hr : i.capacityRequest s = some (sub, req))
      (hc : s.height * s.width * b < req) : errorAt i s 9 ⟨2, sub, req, s.height * s.width * b⟩
  | framing {b len} (h : i = .bpcExtractf b) (hl : len < 2 ^ 32)
      (hh : ∀ m < 32, len.testBit (31 - m) = planeBit s b m) (hc : s.height * s.width * b < 32 + 8 * len) :
      errorAt i s 10 ⟨3, 1, 32 + 8 * len, s.height * s.width * b⟩

/-- `e` is the error command `i` reports in state `s`: the failing check that comes first in the order of R215. -/
def reports (i : Instr) (s : State) (e : ErrorFigures) : Prop :=
  ∃ n, errorAt i s n e ∧ ∀ m f, errorAt i s m f → n ≤ m

end Sys2Proof.Machine
end

