-- ==== Sys2Proof/Certificates/Slice0/Obligations.lean ====
section
/-! DEFINITION. The statements about the ISCC, from the numbered rules of the spec. -/

open Sys2Proof Sys2Proof.Machine

/-! ## Encoding (30_encoding.md) -/

/-- The words 95_test_vectors.md section 2.1 and R91 to R93 write out decode to the commands they stand for. -/
def Obligations.DecodesTheWordsTheSpecWritesOut : Prop :=
  decode 0x00000000 = .ok .sysNop ∧ decode 0x00000001 = .ok .sysClrerr ∧ decode 0x00000002 = .ok .sysSreset ∧
  decode 0x00000310 = .ok (.bpcEmbed 3) ∧ decode 0x00000311 = .ok (.bpcExtract 3) ∧
  decode 0x00000212 = .ok (.bpcEmbedf 2) ∧ decode 0x00000413 = .ok (.bpcExtractf 4) ∧
  decode 0x00000020 = .ok .mleaEnc ∧ decode 0x00000021 = .ok .mleaDec ∧ decode 0x00000030 = .ok .bpeSplit ∧
  decode 0x00130231 = .ok (.bpePerm 2 0 3 1) ∧ decode 0x00130232 = .ok (.bpeUnperm 2 0 3 1) ∧
  decode 0x00000033 = .ok .bpeMerge ∧
  decode 0xFFFFFFFF = .error .unknownOpcode ∧ decode 0x01130231 = .error .reservedBit

/-- Decoding the encoding of a command gives it back, with every operand at every value the field admits. -/
def Obligations.DecodeOfEncodeIsTheCommand : Prop :=
  ∀ i : Instr, i.wellFormed = true → decode (encode i) = .ok i

/-- A word that decodes is exactly the encoding of the command it decodes to: no bit is ignored. -/
def Obligations.EncodeOfDecodeIsTheWord : Prop :=
  ∀ (w : Word) (i : Instr), decode w = .ok i → i.wellFormed = true ∧ encode i = w

/-- R97: a word selects the row whose `(w & mask) = match`; at most one row can match; a word that matches a row is
that row's command and a word that matches none is no command. While an error is recorded a word is not acted on, the
two of R218 apart. The decoder is not written from the rows. -/
def Obligations.DecodeFollowsTheOpcodeTable : Prop :=
  (∀ (w : Word) (r : OpcodeRow), r ∈ opcodeTable → w &&& r.mask = r.pattern →
    ∃ i, decode w = .ok i ∧ i.mnemonic = r.mnemonic) ∧
  (∀ (w : Word) (i : Instr), decode w = .ok i →
    ∃ r ∈ opcodeTable, w &&& r.mask = r.pattern ∧ r.mnemonic = i.mnemonic) ∧
  (∀ (w : Word) (r r' : OpcodeRow), r ∈ opcodeTable → r' ∈ opcodeTable →
    w &&& r.mask = r.pattern → w &&& r'.mask = r'.pattern → r = r') ∧
  (∀ (s : State) (w : Word) (rest : List HostEvent), s.err = true → w ≠ 1 → w ≠ 2 → s.pending = cmdWrite w :: rest →
    step s = .next (s.answer rest .ok))

/-- R98: a word that matches no row, written while STATUS.ERR = 0, raises IllegalCommand (code 4) and does nothing
else; sub-code 1 where `w[7:0]` is not one of the 13 opcodes, sub-code 2 where it is. Decoding is total. -/
def Obligations.WordsThatAreNoCommandRaiseIllegalCommand : Prop :=
  (∀ (s : State) (w : Word) (rest : List HostEvent), s.err = false → s.pending = cmdWrite w :: rest →
    (∀ r ∈ opcodeTable, w &&& r.mask ≠ r.pattern) →
    step s = .next ((s.answer rest .ok).failed 4 (if w.toNat % 256 ∈ knownOpcodes then 2 else 1) 0 0 w)) ∧
  (∀ w : Word, (∃ i, decode w = .ok i) ∨ ∃ d, decode w = .error d)

/-- R99: the reserved opcodes all raise IllegalCommand sub-code 1; a legal opcode with an out-of-range operand field is
not an illegal command: it decodes, and raises ConfigError. -/
def Obligations.ReservedOpcodesAreIllegalAndBadOperandsAreNot : Prop :=
  (∀ (s : State) (w : Word) (rest : List HostEvent), s.err = false → s.pending = cmdWrite w :: rest →
    ((0x03 ≤ w.toNat % 256 ∧ w.toNat % 256 ≤ 0x0F) ∨ (0x14 ≤ w.toNat % 256 ∧ w.toNat % 256 ≤ 0x1F) ∨
     (0x22 ≤ w.toNat % 256 ∧ w.toNat % 256 ≤ 0x2F) ∨ (0x34 ≤ w.toNat % 256 ∧ w.toNat % 256 ≤ 0xFF)) →
    step s = .next ((s.answer rest .ok).failed 4 1 0 0 w)) ∧
  (∀ (s : State) (rest : List HostEvent) (b : Nat), s.err = false → b < 16 → b = 0 ∨ 5 ≤ b →
    ∀ i ∈ [Instr.bpcEmbed b, .bpcExtract b, .bpcEmbedf b, .bpcExtractf b],
      s.pending = cmdWrite (encode i) :: rest →
      decode (encode i) = .ok i ∧ step s = .next ((s.answer rest .ok).failed 1 1 0 0 (encode i))) ∧
  (∀ (s : State) (rest : List HostEvent) (p0 p1 p2 p3 : Nat), s.err = false →
    p0 < 16 → p1 < 16 → p2 < 16 → p3 < 16 → ¬[p0, p1, p2, p3].Perm [0, 1, 2, 3] →
    ∀ i ∈ [Instr.bpePerm p0 p1 p2 p3, .bpeUnperm p0 p1 p2 p3],
      s.pending = cmdWrite (encode i) :: rest →
      decode (encode i) = .ok i ∧ step s = .next ((s.answer rest .ok).failed 1 2 0 0 (encode i)))

/-! ## The step and the host's list -/

/-- R23: a 32-bit write of `w` to CMD executes the command word `w`: the command it decodes to, or, where it is none
and no error is recorded, IllegalCommand; the write is answered OK. A read of CMD returns 0 and has no effect. CMD
stores nothing: the state the command leaves is all there is. -/
def Obligations.CmdWriteRunsTheDecodedCommand : Prop :=
  (∀ (s : State) (w : Word) (i : Instr) (rest : List HostEvent), s.pending = cmdWrite w :: rest → decode w = .ok i →
    step s = exec i (s.answer rest .ok)) ∧
  (∀ (s : State) (w : Word) (d : DecodeError) (rest : List HostEvent), s.pending = cmdWrite w :: rest →
    decode w = .error d → s.err = false → ∃ sub, step s = .next ((s.answer rest .ok).failed 4 sub 0 0 w)) ∧
  (∀ s : State, readsAs s 0x04 4 (.okWord 0))

/-- R62: one access is one step, made completely and in the host's order: exactly the first access of the list is made,
exactly one result is recorded, `cp` advances by one and the rest of the list waits (the list, `cp` and the results are
the model's record of the host, entry 2). The ISCC's state after it and the result are a function of the ISCC's state
before it and of the access alone, whatever the host did before or does next. -/
def Obligations.EachAccessIsOneStepWithOneResult : Prop :=
  ∀ (s : State) (a : Access) (rest : List HostEvent), s.pending = .access a :: rest →
    ∃ (t : State) (r : Response), step s = .next t ∧ t.pending = rest ∧ t.cp = s.cp + 1 ∧ t.results = r :: s.results ∧
      ∀ (s' : State) (rest' : List HostEvent), s.sameDevice s' → s'.pending = .access a :: rest' →
        ∃ t', step s' = .next t' ∧ t.sameDevice t' ∧ t'.results = r :: s'.results

/-- R254: a program of accesses ends when its last access has completed, one step each, with `cp` advanced by the
length of the list and one result each; then (the model's choice, entry 3, from R240 "it does nothing on its own")
nothing changes any more. -/
def Obligations.ProgramsEndAfterTheirLastAccess : Prop :=
  ∀ (s : State) (as : List Access), s.pending = as.map HostEvent.access →
    ∃ t, Sys2Proof.core.run as.length s = .next t ∧ t.pending = [] ∧ t.cp = s.cp + as.length ∧
      t.results.length = s.results.length + as.length ∧ s.results <:+ t.results ∧
      ∀ k, Sys2Proof.core.run (as.length + k) s = .next t

/-! ## The bus (20_memory.md, 10_state.md) -/

/-- R61: an access the ISCC does not accept is answered BusError, returns no value and changes no state at all; every
other access is answered OK, a read of width `n` with a value of `8*n` bits. Which accesses are accepted is `accepted`,
written from the map and not from the bus. -/
def Obligations.AccessesAreAcceptedExactlyAsTheMapSays : Prop :=
  ∀ (s : State) (a : Access) (rest : List HostEvent), s.pending = .access a :: rest →
    (¬accepted s.cfg a → step s = .next (s.answer rest .busError)) ∧
    (accepted s.cfg a → ∃ t r, step s = .next t ∧ t.results = r :: s.results ∧ a.answeredBy r)

/-- R65: the windows. A 1-byte read returns the byte, a 1-byte write of a writable window replaces that one byte and
nothing else; an access of another width, a write to PAT or QB[k], and an access whose index is at or beyond the
memory's size are BusErrors. -/
def Obligations.WindowsReadAndWriteOneByte : Prop :=
  (∀ (s : State) (i : Nat) (v : Byte), i < 64 →
    readsAs s (BitVec.ofNat 32 (0x100 + i)) 1 (.okByte (kdRead s.kd i)) ∧
    ∃ kd', writesAs s (BitVec.ofNat 32 (0x100 + i)) 1 v { s with kd := kd' } ∧
      ∀ j, kdRead kd' j = if j = i then v else kdRead s.kd j) ∧
  (∀ (s : State) (i p : Nat) (v : Byte), s.cfg.pat[i]? = some p →
    readsAs s (BitVec.ofNat 32 (0x200 + i)) 1 (.okByte (BitVec.ofNat 8 p)) ∧
    notAccepted s (.write (BitVec.ofNat 32 (0x200 + i)) 1 v)) ∧
  (∀ (s : State) (i : Nat) (v : Byte), i < s.cfg.dbMax →
    readsAs s (BitVec.ofNat 32 (0x00800000 + i)) 1 (.okByte (s.db.read i)) ∧
    ∃ db', writesAs s (BitVec.ofNat 32 (0x00800000 + i)) 1 v { s with db := db' } ∧
      ∀ j, db'.read j = if j = i then v else s.db.read j) ∧
  (∀ (s : State) (i : Nat) (v : Byte), i < s.cfg.pmMax →
    readsAs s (BitVec.ofNat 32 (0x01000000 + i)) 1 (.okByte (s.pm.read i)) ∧
    ∃ pm', writesAs s (BitVec.ofNat 32 (0x01000000 + i)) 1 v { s with pm := pm' } ∧
      ∀ j, pm'.read j = if j = i then v else s.pm.read j) ∧
  (∀ (s : State) (k : Fin 4) (i : Nat) (v : Byte), i < s.cfg.pmMax →
    readsAs s (BitVec.ofNat 32 (0x02000000 + k.val * 0x01000000 + i)) 1 (.okByte (s.qb[k].data.read i)) ∧
    notAccepted s (.write (BitVec.ofNat 32 (0x02000000 + k.val * 0x01000000 + i)) 1 v)) ∧
  (∀ (s : State) (off : Word) (n : Nat) (v : BitVec (8 * n)), 0x100 ≤ off.toNat → n ≠ 1 →
    notAccepted s (.read off n) ∧ notAccepted s (.write off n v)) ∧
  (∀ (s : State) (off : Word) (v : Byte),
    (0x200 + s.cfg.tileLen ≤ off.toNat ∧ off.toNat < 0x300) ∨
    (0x00800000 + s.cfg.dbMax ≤ off.toNat ∧ off.toNat < 0x01000000) ∨
    (∃ k < 5, 0x01000000 * (k + 1) + s.cfg.pmMax ≤ off.toNat ∧ off.toNat < 0x01000000 * (k + 2)) →
    notAccepted s (.read off 1) ∧ notAccepted s (.write off 1 v))

/-- R22: ID reads 0x49534301; a write is a BusError and changes nothing. -/
def Obligations.IdReadsItsConstant : Prop :=
  ∀ (s : State) (v : Word), readsAs s 0x00 4 (.okWord 0x49534301) ∧ notAccepted s (.write 0x00 4 v)

/-- R49: offsets 0x5C to 0xFF are reserved, every access there is a BusError and changes nothing; the reserved bits of
STATUS and ERRCODE read 0. R24: STATUS reads ERR in bit 0, QV in bit 1, and a write to it is a BusError. -/
def Obligations.ReservedOffsetsAndBits : Prop :=
  (∀ (s : State) (off : Word) (n : Nat) (v : BitVec (8 * n)), 0x5C ≤ off.toNat → off.toNat ≤ 0xFF →
    notAccepted s (.read off n) ∧ notAccepted s (.write off n v)) ∧
  (∀ (s : State) (v : Word), notAccepted s (.write 0x08 4 v) ∧
    ∃ st ec : Word, readsAs s 0x08 4 (.okWord st) ∧ readsAs s 0x0C 4 (.okWord ec) ∧
      st.toNat = s.err.toNat + 2 * s.qv.toNat ∧ ec.toNat = s.errCode.toNat + 256 * s.errSub.toNat)

/-- What each register with stored contents reads as, and that a write to a read-only one is a BusError (10_state.md
register summary). -/
def Obligations.RegistersReadTheirContents : Prop :=
  ∀ (s : State) (v : Word),
    readsAs s 0x10 4 (.okWord s.errReqL) ∧ readsAs s 0x14 4 (.okWord s.errReqH) ∧
    readsAs s 0x18 4 (.okWord s.errAvail) ∧ readsAs s 0x1C 4 (.okWord s.errCmd) ∧
    readsAs s 0x20 4 (.okWord (s.dims.rows ++ s.dims.cols)) ∧ readsAs s 0x24 4 (.okWord s.dblen) ∧
    readsAs s 0x28 4 (.okWord s.numbits) ∧ readsAs s 0x2C 4 (.okWord s.kdlen) ∧
    readsAs s 0x30 4 (.okWord (s.splitpt.rows ++ s.splitpt.cols)) ∧
    (∀ k : Fin 4, readsAs s (BitVec.ofNat 32 (0x34 + 4 * k.val)) 4
      (.okWord (s.qb[k].shape.rows ++ s.qb[k].shape.cols))) ∧
    readsAs s 0x44 4 (.okWord s.vok) ∧ readsAs s 0x4C 4 (.okWord s.hdrlen) ∧
    readsAs s 0x50 4 (.okWord (BitVec.ofNat 32 s.cfg.pmMax)) ∧
        readsAs s 0x54 4 (.okWord (BitVec.ofNat 32 s.cfg.dbMax)) ∧
    readsAs s 0x58 4 (.okWord (BitVec.ofNat 32 s.cfg.tileLen)) ∧
    ∀ off ∈ [(0x08 : Word), 0x0C, 0x10, 0x14, 0x18, 0x1C, 0x30, 0x34, 0x38, 0x3C, 0x40, 0x48, 0x4C, 0x50, 0x54, 0x58],
      notAccepted s (.write off 4 v)

/-- R31 to R35: the operand registers hold any value written, and a write to one changes nothing else ("writing DIMS
moves no data and does not clear QV"). -/
def Obligations.OperandRegistersHoldAnyValueWritten : Prop :=
  ∀ (s : State) (v : Word),
    (∃ d : Shape, writesAs s 0x20 4 v { s with dims := d } ∧
      d.rows.toNat = v.toNat / 2 ^ 16 ∧ d.cols.toNat = v.toNat % 2 ^ 16) ∧
    writesAs s 0x24 4 v { s with dblen := v } ∧ writesAs s 0x28 4 v { s with numbits := v } ∧
    writesAs s 0x2C 4 v { s with kdlen := v } ∧ writesAs s 0x44 4 v { s with vok := v }

/-- R38: VOIDX reads `VO(N)[VOK]` where `VOK < N` (the index is one of the plane's), else 0xFFFFFFFF; the read has no
side effect; it looks at no error and at no PM_MAX. It is read-only. -/
def Obligations.VoidxReadsTheVisitingOrder : Prop :=
  ∀ s : State,
    (s.vok.toNat < s.height * s.width → ∃ i, (visitingOrder s.cfg.pat (s.height * s.width))[s.vok.toNat]? = some i ∧
      i < s.height * s.width ∧ ∃ v : Word, v.toNat = i ∧ readsAs s 0x48 4 (.okWord v)) ∧
    (s.height * s.width ≤ s.vok.toNat → readsAs s 0x48 4 (.okWord 0xFFFFFFFF)) ∧
    ∀ v : Word, notAccepted s (.write 0x48 4 v)

/-- R66: a window access looks at no length and at no gate: it is answered alike whatever DIMS, DBLEN, KDLEN, the QDIMk
and STATUS.ERR hold, and changes no register and not STATUS.ERR. -/
def Obligations.WindowAccessesIgnoreLengthsAndTheGate : Prop :=
  ∀ (s : State) (off : Word) (v : Byte) (d : Shape) (l k : Word) (q : Fin 4 → Shape) (e : Bool),
    let s' : State := { s with
      dims := d, dblen := l, kdlen := k, err := e
      qb := #v[{ s.qb[0] with shape := q 0 }, { s.qb[1] with shape := q 1 }, { s.qb[2] with shape := q 2 },
               { s.qb[3] with shape := q 3 }] }
    (∀ r, readsAs s off 1 r ↔ readsAs s' off 1 r) ∧
    (notAccepted s (.write off 1 v) ↔ notAccepted s' (.write off 1 v)) ∧
    (∀ t, writesAs s off 1 v t → t.sameDevice { s with pm := t.pm, db := t.db, kd := t.kd })

/-- R67: every read is free of side effects and idempotent; every write other than to CMD is idempotent, and changes
what no other offset reads as (VOIDX apart, which is computed from DIMS and VOK). The spec marks this law as its own
inference (R67, 'derived: from rule R61, rule R64, rule R65 and 10_state.md rule R38'); it is stated as a consequence
of the rules it is derived from. -/
def Obligations.ReadsHaveNoEffectAndWritesAreIdempotent : Prop :=
  (∀ (s : State) (off : Word) (n : Nat), ∃ r, readsAs s off n r ∧ ∀ rest, readsAs (s.answer rest r) off n r) ∧
  (∀ (s : State) (off : Word) (n : Nat) (v : BitVec (8 * n)), ¬(off = 0x04 ∧ n = 4) →
    notAccepted s (.write off n v) ∨
    ∃ t, writesAs s off n v t ∧ writesAs t off n v t ∧
      ∀ (off' : Word) (n' : Nat) (r : Response), off' ≠ off → off' ≠ 0x48 →
        (readsAs t off' n' r ↔ readsAs s off' n' r))

/-! ## Reset (10_state.md R48, 70_reset_and_hazards.md) -/

/-- R48 (after hard reset), R240: after reset, and after any hard reset, every register and every byte of KD is 0,
STATUS is 0 and VOIDX reads 0xFFFFFFFF; a hard reset makes the memories' bytes those of a fresh draw (the free value of
entry 1) and touches neither the configuration nor the host's side (the model's, entry 4). -/
def Obligations.HardResetClearsEveryRegister : Prop :=
  State.reset.registersClear ∧ readsAs State.reset 0x48 4 (.okWord 0xFFFFFFFF) ∧
  (∀ (s : State) (rest : List HostEvent), s.pending = .hardReset :: rest →
    ∃ t, step s = .next t ∧ t.registersClear ∧ readsAs t 0x48 4 (.okWord 0xFFFFFFFF) ∧
      t.pending = rest ∧ t.cp = s.cp ∧ t.results = s.results ∧ t.cfg = s.cfg ∧ t.resets = s.resets + 1 ∧
      ∀ j, t.pm.read j = Config.powerOnByte ⟨s.resets + 1, .pm⟩ j ∧
        t.db.read j = Config.powerOnByte ⟨s.resets + 1, .db⟩ j ∧
        ∀ k : Fin 4, t.qb[k].data.read j = Config.powerOnByte ⟨s.resets + 1, .qb k⟩ j)

/-- R202, R241: `sys.sreset`, error recorded or not, makes every register and every byte of KD 0 and keeps the bytes of
PM, DB and the quadrant buffers. -/
def Obligations.SoftResetClearsRegistersAndKeepsMemories : Prop :=
  decode 0x00000002 = .ok .sysSreset ∧
  ∀ s : State, ∃ t, exec .sysSreset s = .next t ∧ t.registersClear ∧ t.pm = s.pm ∧ t.db = s.db ∧
    (∀ k : Fin 4, t.qb[k].data = s.qb[k].data) ∧ t.cfg = s.cfg ∧ t.pending = s.pending ∧ t.cp = s.cp ∧
    t.results = s.results ∧ t.resets = s.resets

/-- The reset state meets the invariant. -/
def Obligations.ResetStateMeetsTheInvariant : Prop := State.reset.Inv

/-! ## SYS (43_sys_commands.md) -/

/-- R200: `sys.nop` changes nothing, error recorded or not. -/
def Obligations.SysNopChangesNothing : Prop :=
  decode 0x00000000 = .ok .sysNop ∧ ∀ s : State, exec .sysNop s = .next s

/-- R201, R219: `sys.clrerr`, error recorded or not, makes STATUS.ERR and the error registers 0 and changes nothing
else; with no error recorded it changes nothing; after a command that failed it gives back the state before that
command. -/
def Obligations.SysClrerrRestoresTheStateBeforeTheError : Prop :=
  decode 0x00000001 = .ok .sysClrerr ∧
  (∀ s : State, exec .sysClrerr s = .next { s with
    err := false, errCode := 0, errSub := 0, errReqL := 0, errReqH := 0, errAvail := 0, errCmd := 0 }) ∧
  (∀ s : State, s.err = false → s.errorConsistent → exec .sysClrerr s = .next s) ∧
  (∀ (i : Instr) (s t : State), s.err = false → s.errorConsistent → exec i s = .next t → t.err = true →
    exec .sysClrerr t = .next s) ∧
  (∀ w : Word, w.toNat % 256 = 1 → w ≠ 1 → decode w = .error .reservedBit)

/-! ## Errors (60_exceptions.md) -/

/-- R216: a command that raises an error writes STATUS.ERR, ERRCODE, ERRREQ (the required figure, low and high word),
ERRAVAIL and ERRCMD (its own word), and nothing else; the code is one of R211; the CMD write is answered OK. -/
def Obligations.FailingCommandsWriteOnlyTheErrorRegisters : Prop :=
  ∀ (s t : State) (w : Word) (rest : List HostEvent), s.err = false → s.pending = cmdWrite w :: rest →
    step s = .next t → t.err = true →
    ∃ (code sub : Byte) (req avail : Nat), t = (s.answer rest .ok).failed code sub req avail w ∧
      1 ≤ code.toNat ∧ code.toNat ≤ 5 ∧ req < 2 ^ 64 ∧ avail < 2 ^ 32

/-- R212, R214, R215: one command reports one error, the failing check that comes first in the fixed order, with the
code, sub-code and exact figures of the tables: the gate, then the decoding of the word, then the checks of the command
(`reports`). A command none of whose checks fails completes with no error recorded. -/
def Obligations.TheFirstFailingCheckIsReported : Prop :=
  ∀ (s : State) (w : Word) (rest : List HostEvent), s.pending = cmdWrite w :: rest →
    (s.err = true → w ≠ 1 → w ≠ 2 → step s = .next (s.answer rest .ok)) ∧
    (s.err = false → (∀ i, decode w ≠ .ok i) →
      step s = .next ((s.answer rest .ok).failed 4 (if w.toNat % 256 ∈ knownOpcodes then 2 else 1) 0 0 w)) ∧
    (s.err = false → ∀ i, decode w = .ok i →
      (∀ e, reports i s e → step s = .next ((s.answer rest .ok).failed e.code e.sub e.req e.avail w) ∧
        e.req ≤ 2 ^ 35 + 24 ∧ e.avail ≤ 2 ^ 26 ∧ (e.code = 2 → e.sub = 1 → e.req < 2 ^ 27)) ∧
      ((¬∃ e, reports i s e) → ∃ t, step s = .next t ∧ t.err = false))

/-- R218: while STATUS.ERR = 1 a CMD write of exactly 1 or 2 executes `sys.clrerr` or `sys.sreset`; every other word,
legal or not, is ignored; the response is OK in every case. Register and window accesses are not gated. -/
def Obligations.CommandsAreIgnoredWhileAnErrorIsRecorded : Prop :=
  (∀ (s : State) (w : Word) (rest : List HostEvent), s.err = true → s.pending = cmdWrite w :: rest →
    (w = 1 → step s = exec .sysClrerr (s.answer rest .ok)) ∧
    (w = 2 → step s = exec .sysSreset (s.answer rest .ok)) ∧
    (w ≠ 1 → w ≠ 2 → step s = .next (s.answer rest .ok))) ∧
  (∀ (s : State) (off : Word) (n : Nat) (v : BitVec (8 * n)) (e : Bool), ¬(off = 0x04 ∧ n = 4) →
    (notAccepted s (.read off n) ↔ notAccepted { s with err := e } (.read off n)) ∧
    (notAccepted s (.write off n v) ↔ notAccepted { s with err := e } (.write off n v)) ∧
    (∀ t, writesAs s off n v t → writesAs { s with err := e } off n v { t with err := e }))

/-- R26: STATUS.ERR is set only by the error entry of a command written to CMD, together with that word in ERRCMD, and
cleared only by `sys.clrerr`, `sys.sreset` or a hard reset. -/
def Obligations.ErrIsSetAndClearedOnlyAsTheRulesSay : Prop :=
  ∀ s t : State, step s = .next t →
    (s.err = false → t.err = true → ∃ w rest, s.pending = cmdWrite w :: rest ∧ t.errCmd = w ∧
      1 ≤ t.errCode.toNat ∧ t.errCode.toNat ≤ 5) ∧
    (s.err = true → t.err = false → ∃ rest, s.pending = cmdWrite 1 :: rest ∨ s.pending = cmdWrite 2 :: rest ∨
      s.pending = .hardReset :: rest)

/-! ## BPE (40_bpe_block_permutation.md) -/

/-- R120: the origins and shapes of the four regions; at any split point in the plane they are disjoint and together
cover the plane; their element counts sum to the plane's; at the split point of `bpe.split` the bottom and right
regions are one row or column larger where the dimension is odd. -/
def Obligations.TheFourRegionsPartitionThePlane : Prop :=
  ∀ h w h2 w2 : Nat, h2 ≤ h → w2 ≤ w →
    region h w h2 w2 0 = ⟨0, 0, h2, w2⟩ ∧ region h w h2 w2 1 = ⟨0, w2, h2, w - w2⟩ ∧
    region h w h2 w2 2 = ⟨h2, 0, h - h2, w2⟩ ∧ region h w h2 w2 3 = ⟨h2, w2, h - h2, w - w2⟩ ∧
    (∀ p < h * w, ∃! x : Fin 4 × Nat × Nat,
      x.2.1 < (region h w h2 w2 x.1).rows ∧ x.2.2 < (region h w h2 w2 x.1).cols ∧
      p = ((region h w h2 w2 x.1).r0 + x.2.1) * w + (region h w h2 w2 x.1).c0 + x.2.2) ∧
    (∀ (k : Fin 4) (r c : Nat), r < (region h w h2 w2 k).rows → c < (region h w h2 w2 k).cols →
      ((region h w h2 w2 k).r0 + r) * w + (region h w h2 w2 k).c0 + c < h * w) ∧
    h2 * w2 + h2 * (w - w2) + (h - h2) * w2 + (h - h2) * (w - w2) = h * w ∧
    h - h / 2 = h / 2 + h % 2 ∧ w - w / 2 = w / 2 + w % 2

/-- R121: `bpe.split` copies region `k` of the plane into QB[k], row by row, records the shapes and the split point,
sets QV and changes nothing else; it fails only where the plane is larger than PM_MAX. The split point is `(H div 2, W
div 2)` in every case, as R121's pseudocode and R36 have it; where just one dimension is 0 and the other is at least 2
that is the model's choice (entry 14), as R121's corner cases say 0 there. -/
def Obligations.BpeSplitCopiesTheFourRegions : Prop :=
  decode 0x00000030 = .ok .bpeSplit ∧ ∀ s : State, s.err = false →
    (s.cfg.pmMax < s.height * s.width → exec .bpeSplit s = .next (s.failed 1 3 0 0 0x00000030)) ∧
    (s.height * s.width ≤ s.cfg.pmMax → ∃ (qb' : Vector Quadrant 4) (sp : Shape),
      exec .bpeSplit s = .next { s with qb := qb', splitpt := sp, qv := true } ∧
      sp.rows.toNat = s.height / 2 ∧ sp.cols.toNat = s.width / 2 ∧
      ∀ k : Fin 4, ∀ g, g = region s.height s.width (s.height / 2) (s.width / 2) k →
        qb'[k].shape.rows.toNat = g.rows ∧ qb'[k].shape.cols.toNat = g.cols ∧
        (∀ r < g.rows, ∀ c < g.cols,
          qb'[k].data.read (r * g.cols + c) = s.pm.read ((g.r0 + r) * s.width + g.c0 + c)) ∧
        ∀ j, g.rows * g.cols ≤ j → qb'[k].data.read j = s.qb[k].data.read j)

/-- R122: `bpe.perm p` puts the whole buffer QB[p[i]] at position `i` and changes nothing else; it fails, in this
order, where `p` is no bijection and where no split has completed. -/
def Obligations.BpePermMovesWholeBuffers : Prop :=
  (∀ (s : State) (p : Equiv.Perm (Fin 4)), s.err = false → s.qv = true → ∃ qb' : Vector Quadrant 4,
    exec (.bpePerm (p 0) (p 1) (p 2) (p 3)) s = .next { s with qb := qb' } ∧ ∀ i : Fin 4, qb'[i] = s.qb[p i]) ∧
  (∀ (s : State) (p0 p1 p2 p3 : Nat), p0 < 16 → p1 < 16 → p2 < 16 → p3 < 16 →
    decode (wordP 0x31 p0 p1 p2 p3) = .ok (.bpePerm p0 p1 p2 p3) ∧
    (s.err = false → ¬[p0, p1, p2, p3].Perm [0, 1, 2, 3] →
      exec (.bpePerm p0 p1 p2 p3) s = .next (s.failed 1 2 0 0 (wordP 0x31 p0 p1 p2 p3))) ∧
    (s.err = false → [p0, p1, p2, p3].Perm [0, 1, 2, 3] → s.qv = false →
      exec (.bpePerm p0 p1 p2 p3) s = .next (s.failed 5 1 0 0 (wordP 0x31 p0 p1 p2 p3))))

/-- R123: `bpe.unperm p` puts the whole buffer QB[i] at position `p[i]` and changes nothing else; the errors are those
of `bpe.perm`; `bpe.unperm p` has the same effect as `bpe.perm` of the inverse of `p`. The last clause the rule marks
as its own inference ('derived: from rule R122 and rule R125'). -/
def Obligations.BpeUnpermMovesWholeBuffersBack : Prop :=
  (∀ (s : State) (p : Equiv.Perm (Fin 4)), s.err = false → s.qv = true → (∃ qb' : Vector Quadrant 4,
    exec (.bpeUnperm (p 0) (p 1) (p 2) (p 3)) s = .next { s with qb := qb' } ∧ ∀ i : Fin 4, qb'[p i] = s.qb[i]) ∧
    exec (.bpeUnperm (p 0) (p 1) (p 2) (p 3)) s
      = exec (.bpePerm (p.symm 0) (p.symm 1) (p.symm 2) (p.symm 3)) s) ∧
  (∀ (s : State) (p0 p1 p2 p3 : Nat), p0 < 16 → p1 < 16 → p2 < 16 → p3 < 16 →
    decode (wordP 0x32 p0 p1 p2 p3) = .ok (.bpeUnperm p0 p1 p2 p3) ∧
    (s.err = false → ¬[p0, p1, p2, p3].Perm [0, 1, 2, 3] →
      exec (.bpeUnperm p0 p1 p2 p3) s = .next (s.failed 1 2 0 0 (wordP 0x32 p0 p1 p2 p3))) ∧
    (s.err = false → [p0, p1, p2, p3].Perm [0, 1, 2, 3] → s.qv = false →
      exec (.bpeUnperm p0 p1 p2 p3) s = .next (s.failed 5 1 0 0 (wordP 0x32 p0 p1 p2 p3))))

/-- R124: `bpe.merge` writes every element of quadrant `k` to its place in region `k` at the recorded split point,
leaves PM beyond the plane and everything else; it fails, in this order, where the plane is larger than PM_MAX, where
no split has completed, and where SPLITPT or a shape does not fit. -/
def Obligations.BpeMergeWritesThePlane : Prop :=
  decode 0x00000033 = .ok .bpeMerge ∧ ∀ s : State, s.err = false →
    (s.cfg.pmMax < s.height * s.width → exec .bpeMerge s = .next (s.failed 1 3 0 0 0x00000033)) ∧
    (s.height * s.width ≤ s.cfg.pmMax → s.qv = false → exec .bpeMerge s = .next (s.failed 5 1 0 0 0x00000033)) ∧
    (s.height * s.width ≤ s.cfg.pmMax → s.qv = true → ¬quadrantsFitPositions s →
      exec .bpeMerge s = .next (s.failed 5 2 0 0 0x00000033)) ∧
    (s.height * s.width ≤ s.cfg.pmMax → s.qv = true → quadrantsFitPositions s → ∃ pm' : Memory,
      exec .bpeMerge s = .next { s with pm := pm' } ∧
      (∀ k : Fin 4, ∀ g, g = region s.height s.width s.splitpt.rows.toNat s.splitpt.cols.toNat k →
        ∀ r < g.rows, ∀ c < g.cols,
          pm'.read ((g.r0 + r) * s.width + g.c0 + c) = s.qb[k].data.read (r * g.cols + c)) ∧
      ∀ j, s.height * s.width ≤ j → pm'.read j = s.pm.read j)

/-- R126: for every valid `p`, `bpe.perm p` then `bpe.unperm p` leaves the quadrant buffers and their shapes (and all
the rest) exactly as they were, and so does `bpe.unperm p` then `bpe.perm p`. -/
def Obligations.PermAndUnpermAreInverse : Prop :=
  ∀ (s : State) (p : Equiv.Perm (Fin 4)), s.err = false → s.qv = true →
    execSeq [.bpePerm (p 0) (p 1) (p 2) (p 3), .bpeUnperm (p 0) (p 1) (p 2) (p 3)] s = .next s ∧
    execSeq [.bpeUnperm (p 0) (p 1) (p 2) (p 3), .bpePerm (p 0) (p 1) (p 2) (p 3)] s = .next s

/-- R127: `bpe.split` then `bpe.merge` leaves every byte of PM unchanged, odd or even dimensions. The spec marks this
law as its own inference (R127, 'derived: from rule R120, rule R121 and rule R124'); it is stated as a consequence of
the rules it is derived from. -/
def Obligations.SplitThenMergeIsTheIdentity : Prop :=
  ∀ s : State, s.err = false → s.height * s.width ≤ s.cfg.pmMax →
    ∃ t, execSeq [.bpeSplit, .bpeMerge] s = .next t ∧ t.err = false ∧ ∀ j, t.pm.read j = s.pm.read j

/-- R128: after `bpe.split` and `bpe.perm p`, `bpe.merge` succeeds exactly when region `p[i]` has the shape of region
`i` for every `i`. With both dimensions even every permutation fits; with H odd and W even (W at least 2) only those
that keep {0,1} and {2,3} apart; with H even (at least 2) and W odd only those that keep {0,2} and {1,3} apart; with
both odd only the identity. Otherwise it raises QuadrantError sub-code 2. The spec marks this law as its own inference
(R128, 'derived: from rule R120, rule R122 and rule R124'); it is stated as a consequence of the rules it is derived
from. On a plane with one dimension 0 the split point is that of entry 14. -/
def Obligations.WhichShufflesFit : Prop :=
  ∀ (s : State) (p : Equiv.Perm (Fin 4)), s.err = false → s.height * s.width ≤ s.cfg.pmMax →
    let g := region s.height s.width (s.height / 2) (s.width / 2)
    let fits := ∀ i : Fin 4, (g (p i)).rows = (g i).rows ∧ (g (p i)).cols = (g i).cols
    (∃ t, execSeq [.bpeSplit, .bpePerm (p 0) (p 1) (p 2) (p 3)] s = .next t ∧
      (fits → ∃ u, exec .bpeMerge t = .next u ∧ u.err = false) ∧
      (¬fits → exec .bpeMerge t = .next (t.failed 5 2 0 0 0x00000033))) ∧
    (s.height % 2 = 0 → s.width % 2 = 0 → fits) ∧
    (s.height % 2 = 1 → s.width % 2 = 0 → 2 ≤ s.width → (fits ↔ ∀ i : Fin 4, (p i).val / 2 = i.val / 2)) ∧
    (s.height % 2 = 0 → s.width % 2 = 1 → 2 ≤ s.height → (fits ↔ ∀ i : Fin 4, (p i).val % 2 = i.val % 2)) ∧
    (s.height % 2 = 1 → s.width % 2 = 1 → (fits ↔ p = 1))

/-- R129: on an even plane, `bpe.split`, `bpe.perm p`, `bpe.merge` turns plane X into the plane S whose region `i` is
region `p[i]` of X; and `bpe.split`, `bpe.unperm p`, `bpe.merge` on S gives X back, every byte of PM. The spec marks
this law as its own inference (R129, 'derived: from rule R121 to rule R126'); it is stated as a consequence of the
rules it is derived from. On a plane with one dimension 0 the split point is that of entry 14. -/
def Obligations.ShuffleThenUnshuffleRestoresThePlane : Prop :=
  ∀ (s : State) (p : Equiv.Perm (Fin 4)), s.err = false → s.height * s.width ≤ s.cfg.pmMax →
    s.height % 2 = 0 → s.width % 2 = 0 →
    let g := region s.height s.width (s.height / 2) (s.width / 2)
    ∃ t u, execSeq [.bpeSplit, .bpePerm (p 0) (p 1) (p 2) (p 3), .bpeMerge] s = .next t ∧ t.err = false ∧
      (∀ i : Fin 4, ∀ r < s.height / 2, ∀ c < s.width / 2,
        t.pm.read (((g i).r0 + r) * s.width + (g i).c0 + c)
          = s.pm.read (((g (p i)).r0 + r) * s.width + (g (p i)).c0 + c)) ∧
      execSeq [.bpeSplit, .bpeUnperm (p 0) (p 1) (p 2) (p 3), .bpeMerge] t = .next u ∧ u.err = false ∧
      ∀ j, u.pm.read j = s.pm.read j

/-! ## MLEA (41_mlea_cipher.md) -/

/-- R141: with `r` the byte rotated left by one bit, the scrambled byte has high nibble `r[3:0] xor r[7:4]` and low
nibble `r[7:4]`; the scrambler is a bijection; its values the rule lists; its only fixed points are 0x00 and 0xB6. That
it is a bijection the rule marks as its own inference ('derived: rule R142 gives its inverse'). -/
def Obligations.TheScramblerIsTheRulesBijection : Prop :=
  (∀ x : Byte, (scramble x).toNat =
    ((2 * x.toNat % 256 + x.toNat / 128) % 16 ^^^ (2 * x.toNat % 256 + x.toNat / 128) / 16) * 16
      + (2 * x.toNat % 256 + x.toNat / 128) / 16) ∧
  Function.Bijective scramble ∧
  scramble 0x00 = 0x00 ∧ scramble 0xFF = 0x0F ∧ scramble 0x01 = 0x20 ∧ scramble 0x80 = 0x10 ∧ scramble 0x41 = 0xA8 ∧
  ∀ x : Byte, scramble x = x ↔ x = 0x00 ∨ x = 0xB6

/-- R142: the unscrambled byte is `r` rotated right by one bit, where `r` has high nibble `y[3:0]` and low nibble
`y[7:4] xor y[3:0]`; the unscrambler inverts the scrambler, both ways. The inverse laws the rule marks as its own
inference ('derived: (B2 ^ B1) ^ B1 = B2'). -/
def Obligations.TheUnscramblerInvertsTheScrambler : Prop :=
  (∀ y : Byte, ∃ r : Nat, r = y.toNat % 16 * 16 + (y.toNat / 16 ^^^ y.toNat % 16) ∧
    (unscramble y).toNat = r / 2 + r % 2 * 128) ∧
  ∀ x : Byte, unscramble (scramble x) = x ∧ scramble (unscramble x) = x

/-- R143, R140: `mlea.enc` replaces `DB[i]` by `E(DB[i]) xor KD[i mod KDLEN]` for `i < DBLEN` and changes nothing else;
it fails, in this order, where DBLEN > DB_MAX and where KDLEN is not 1 to 64. -/
def Obligations.MleaEncScramblesThenAddsTheKeystream : Prop :=
  decode 0x00000020 = .ok .mleaEnc ∧ ∀ s : State, s.err = false →
    (s.cfg.dbMax < s.dblen.toNat → exec .mleaEnc s = .next (s.failed 1 4 0 0 0x00000020)) ∧
    (s.dblen.toNat ≤ s.cfg.dbMax → s.kdlen.toNat = 0 ∨ 64 < s.kdlen.toNat →
      exec .mleaEnc s = .next (s.failed 1 5 0 0 0x00000020)) ∧
    (s.dblen.toNat ≤ s.cfg.dbMax → 1 ≤ s.kdlen.toNat → s.kdlen.toNat ≤ 64 → ∃ db' : Memory,
      exec .mleaEnc s = .next { s with db := db' } ∧
      (∀ i < s.dblen.toNat, db'.read i = scramble (s.db.read i) ^^^ kdRead s.kd (i % s.kdlen.toNat)) ∧
      ∀ j, s.dblen.toNat ≤ j → db'.read j = s.db.read j)

/-- R144: `mlea.dec` replaces `DB[i]` by `Dinv(DB[i] xor KD[i mod KDLEN])` for `i < DBLEN` and changes nothing else;
the errors are those of `mlea.enc`. Last clause: neither command is its own inverse, nor are the two one function; in
some state `mlea.enc` twice does not give DB back, `mlea.dec` twice does not either, and the two leave different
bytes. -/
def Obligations.MleaDecRemovesTheKeystreamThenUnscrambles : Prop :=
  decode 0x00000021 = .ok .mleaDec ∧ (∀ s : State, s.err = false →
    (s.cfg.dbMax < s.dblen.toNat → exec .mleaDec s = .next (s.failed 1 4 0 0 0x00000021)) ∧
    (s.dblen.toNat ≤ s.cfg.dbMax → s.kdlen.toNat = 0 ∨ 64 < s.kdlen.toNat →
      exec .mleaDec s = .next (s.failed 1 5 0 0 0x00000021)) ∧
    (s.dblen.toNat ≤ s.cfg.dbMax → 1 ≤ s.kdlen.toNat → s.kdlen.toNat ≤ 64 → ∃ db' : Memory,
      exec .mleaDec s = .next { s with db := db' } ∧
      (∀ i < s.dblen.toNat, db'.read i = unscramble (s.db.read i ^^^ kdRead s.kd (i % s.kdlen.toNat))) ∧
      ∀ j, s.dblen.toNat ≤ j → db'.read j = s.db.read j)) ∧
  (∃ s t u v w : State, s.err = false ∧ exec .mleaEnc s = .next t ∧ exec .mleaEnc t = .next u ∧
    exec .mleaDec s = .next v ∧ exec .mleaDec v = .next w ∧ u.err = false ∧ w.err = false ∧
    v.db.read 0 ≠ t.db.read 0 ∧ u.db.read 0 ≠ s.db.read 0 ∧ w.db.read 0 ≠ s.db.read 0)

/-- R145: encryption then decryption, and decryption then encryption, leave every byte of DB exactly as it was. The
spec marks this law as its own inference (R145, 'derived: from rule R142'); it is stated as a consequence of the rules
it is derived from. -/
def Obligations.EncryptionAndDecryptionAreInverse : Prop :=
  ∀ s : State, s.err = false → s.dblen.toNat ≤ s.cfg.dbMax → 1 ≤ s.kdlen.toNat → s.kdlen.toNat ≤ 64 →
    (∃ t, execSeq [.mleaEnc, .mleaDec] s = .next t ∧ t.err = false ∧ ∀ j, t.db.read j = s.db.read j) ∧
    (∃ t, execSeq [.mleaDec, .mleaEnc] s = .next t ∧ t.err = false ∧ ∀ j, t.db.read j = s.db.read j)

/-! ## BPC (42_bpc_bitplane_codec.md) -/

/-- R162: `VO(N)` is a permutation of `0 .. N-1`; every index of a tile comes before every index of the next; `VO(N)`
is not in general a prefix of `VO(N')` for a larger `N'` (with the default pattern `VO(15)` is none of `VO(16)`), and
the examples of the rule. The spec marks this law as its own inference (R162, 'derived: from rule R160'); it is stated
as a consequence of the rules it is derived from. -/
def Obligations.TheVisitingOrderIsAPermutation : Prop :=
  (∀ (c : Config) (n : Nat), (visitingOrder c.pat n).Perm (List.range n) ∧
    (visitingOrder c.pat n).Pairwise (fun i j => i / c.tileLen ≤ j / c.tileLen)) ∧
  ¬visitingOrder Config.default.pat 15 <+: visitingOrder Config.default.pat 16 ∧
  visitingOrder Config.default.pat 0 = [] ∧ visitingOrder Config.default.pat 1 = [0] ∧
  visitingOrder Config.default.pat 3 = [2, 1, 0] ∧ visitingOrder Config.default.pat 5 = [2, 1, 4, 3, 0] ∧
  visitingOrder Config.default.pat 16 = Config.default.pat ∧
  visitingOrder Config.default.pat 20 = Config.default.pat ++ [18, 17, 19, 16] ∧
  visitingOrder Config.default.pat 32 =
    Config.default.pat ++ [31, 18, 17, 28, 20, 25, 26, 23, 24, 21, 22, 27, 19, 30, 29, 16]

/-- R161: with `N = q*T + r`, `VO(N)[k]` is `(k div T)*T + PAT[k mod T]` for `k < q*T`, and `q*T + s[k - q*T]` after
that, `s` being the entries of PAT below `r` in order; the list has `N` entries and `s` has `r`. The spec marks this
law as its own inference (R161, 'derived: from rule R160 and PAT being a permutation of 0 .. T-1'); it is stated as a
consequence of the rules it is derived from. -/
def Obligations.TheVisitingOrderHasTheClosedForm : Prop :=
  ∀ (c : Config) (q r : Nat), r < c.tileLen →
    let n := q * c.tileLen + r
    let s := c.pat.filter fun p => decide (p < r)
    (visitingOrder c.pat n).length = n ∧ s.length = r ∧
    (∀ k < q * c.tileLen,
      (visitingOrder c.pat n)[k]? = (c.pat[k % c.tileLen]?).map fun p => k / c.tileLen * c.tileLen + p) ∧
    (∀ k, q * c.tileLen ≤ k → k < n →
      (visitingOrder c.pat n)[k]? = (s[k - q * c.tileLen]?).map fun p => q * c.tileLen + p)

/-- R170: `bpc.embed b` writes the bits of `DB[0 .. DBLEN)` into the plane along the visiting order and changes nothing
else. It fails, in this order, where `bpp` is not 1 to 4, where the plane is larger than PM_MAX, where DBLEN > DB_MAX
and where the payload does not fit, with the exact figures. -/
def Obligations.BpcEmbedWritesTheBitStream : Prop :=
  ∀ b < 16, decode (wordB 0x10 b) = .ok (.bpcEmbed b) ∧ ∀ s : State, s.err = false →
    (¬(1 ≤ b ∧ b ≤ 4) → exec (.bpcEmbed b) s = .next (s.failed 1 1 0 0 (wordB 0x10 b))) ∧
    (1 ≤ b → b ≤ 4 → s.cfg.pmMax < s.height * s.width →
      exec (.bpcEmbed b) s = .next (s.failed 1 3 0 0 (wordB 0x10 b))) ∧
    (1 ≤ b → b ≤ 4 → s.height * s.width ≤ s.cfg.pmMax → s.cfg.dbMax < s.dblen.toNat →
      exec (.bpcEmbed b) s = .next (s.failed 1 4 0 0 (wordB 0x10 b))) ∧
    (1 ≤ b → b ≤ 4 → s.height * s.width ≤ s.cfg.pmMax → s.dblen.toNat ≤ s.cfg.dbMax →
      s.height * s.width * b < 8 * s.dblen.toNat →
      exec (.bpcEmbed b) s = .next (s.failed 2 1 (8 * s.dblen.toNat) (s.height * s.width * b) (wordB 0x10 b))) ∧
    (1 ≤ b → b ≤ 4 → s.height * s.width ≤ s.cfg.pmMax → s.dblen.toNat ≤ s.cfg.dbMax →
      8 * s.dblen.toNat ≤ s.height * s.width * b → ∃ pm', exec (.bpcEmbed b) s = .next { s with pm := pm' } ∧
        embedsStream s pm' b (8 * s.dblen.toNat) (rawBit s))

/-- R172: `bpc.embedf b` writes the 32 bits of the big-endian length and then the bits of `DB[0 .. DBLEN)` into the
plane and changes nothing else (DB and DBLEN too). The errors are those of `bpc.embed`, with 32 bits more required. -/
def Obligations.BpcEmbedfWritesHeaderAndBitStream : Prop :=
  ∀ b < 16, decode (wordB 0x12 b) = .ok (.bpcEmbedf b) ∧ ∀ s : State, s.err = false →
    (¬(1 ≤ b ∧ b ≤ 4) → exec (.bpcEmbedf b) s = .next (s.failed 1 1 0 0 (wordB 0x12 b))) ∧
    (1 ≤ b → b ≤ 4 → s.cfg.pmMax < s.height * s.width →
      exec (.bpcEmbedf b) s = .next (s.failed 1 3 0 0 (wordB 0x12 b))) ∧
    (1 ≤ b → b ≤ 4 → s.height * s.width ≤ s.cfg.pmMax → s.cfg.dbMax < s.dblen.toNat →
      exec (.bpcEmbedf b) s = .next (s.failed 1 4 0 0 (wordB 0x12 b))) ∧
    (1 ≤ b → b ≤ 4 → s.height * s.width ≤ s.cfg.pmMax → s.dblen.toNat ≤ s.cfg.dbMax →
      s.height * s.width * b < 8 * (s.dblen.toNat + 4) →
      exec (.bpcEmbedf b) s = .next (s.failed 2 1 (8 * (s.dblen.toNat + 4)) (s.height * s.width * b) (wordB 0x12 b))) ∧
    (1 ≤ b → b ≤ 4 → s.height * s.width ≤ s.cfg.pmMax → s.dblen.toNat ≤ s.cfg.dbMax →
      8 * (s.dblen.toNat + 4) ≤ s.height * s.width * b → ∃ pm', exec (.bpcEmbedf b) s = .next { s with pm := pm' } ∧
        embedsStream s pm' b (8 * (s.dblen.toNat + 4)) (framedBit s))

/-- R171: `bpc.extract b` puts the first NUMBITS bits of the plane's stream into DB, most significant first, the last
byte filled with 0, sets DBLEN to their number of bytes, and changes nothing else; it fails, in this order, where `bpp`
is not 1 to 4, where the plane is larger than PM_MAX and where NUMBITS > N*bpp. That the bytes fit DB_MAX the rule
marks as its own inference ('derived'). -/
def Obligations.BpcExtractReadsTheBitStream : Prop :=
  ∀ b < 16, decode (wordB 0x11 b) = .ok (.bpcExtract b) ∧ ∀ s : State, s.err = false →
    (¬(1 ≤ b ∧ b ≤ 4) → exec (.bpcExtract b) s = .next (s.failed 1 1 0 0 (wordB 0x11 b))) ∧
    (1 ≤ b → b ≤ 4 → s.cfg.pmMax < s.height * s.width →
      exec (.bpcExtract b) s = .next (s.failed 1 3 0 0 (wordB 0x11 b))) ∧
    (1 ≤ b → b ≤ 4 → s.height * s.width ≤ s.cfg.pmMax → s.height * s.width * b < s.numbits.toNat →
      exec (.bpcExtract b) s
        = .next (s.failed 2 2 s.numbits.toNat (s.height * s.width * b) (wordB 0x11 b))) ∧
    (1 ≤ b → b ≤ 4 → s.height * s.width ≤ s.cfg.pmMax → s.numbits.toNat ≤ s.height * s.width * b →
      ∃ db' l', exec (.bpcExtract b) s = .next { s with db := db', dblen := l' } ∧
        l'.toNat = ceilDiv s.numbits.toNat 8 ∧ l'.toNat ≤ s.cfg.dbMax ∧
        holdsStream s db' s.numbits.toNat (planeBit s b))

/-- R173: `bpc.extractf b` reads the 32-bit header, most significant bit first, as `len`; where `32 + 8*len` bits do
not fit the plane it raises FramingError with the exact figures; else it puts the `len` bytes that follow into DB, sets
DBLEN and HDRLEN to `len`, and changes nothing else. Before that it fails, in this order, where `bpp` is not 1 to 4,
where the plane is larger than PM_MAX and where the plane cannot hold the header. That `len` fits DB_MAX the rule marks
as its own inference ('derived'). -/
def Obligations.BpcExtractfReadsHeaderAndBody : Prop :=
  ∀ b < 16, decode (wordB 0x13 b) = .ok (.bpcExtractf b) ∧ ∀ s : State, s.err = false →
    (¬(1 ≤ b ∧ b ≤ 4) → exec (.bpcExtractf b) s = .next (s.failed 1 1 0 0 (wordB 0x13 b))) ∧
    (1 ≤ b → b ≤ 4 → s.cfg.pmMax < s.height * s.width →
      exec (.bpcExtractf b) s = .next (s.failed 1 3 0 0 (wordB 0x13 b))) ∧
    (1 ≤ b → b ≤ 4 → s.height * s.width ≤ s.cfg.pmMax → s.height * s.width * b < 32 →
      exec (.bpcExtractf b) s = .next (s.failed 2 3 32 (s.height * s.width * b) (wordB 0x13 b))) ∧
    (∀ len : Nat, 1 ≤ b → b ≤ 4 → s.height * s.width ≤ s.cfg.pmMax → 32 ≤ s.height * s.width * b →
      len < 2 ^ 32 → (∀ m < 32, len.testBit (31 - m) = planeBit s b m) →
      (s.height * s.width * b < 32 + 8 * len →
        exec (.bpcExtractf b) s
          = .next (s.failed 3 1 (32 + 8 * len) (s.height * s.width * b) (wordB 0x13 b))) ∧
      (32 + 8 * len ≤ s.height * s.width * b →
        ∃ db' l', exec (.bpcExtractf b) s = .next { s with db := db', dblen := l', hdrlen := l' } ∧
          l'.toNat = len ∧ len ≤ s.cfg.dbMax ∧ holdsStream s db' (8 * len) fun m => planeBit s b (32 + m)))

/-- R174: `bpc.embed b`, NUMBITS set to `8*L`, `bpc.extract b` gives back DBLEN and every byte of DB. The spec marks
this law as its own inference (R174, 'derived: from rule R163, rule R170 and rule R171'); it is stated as a consequence
of the rules it is derived from. -/
def Obligations.ExtractAfterEmbedReturnsThePayload : Prop :=
  ∀ (s : State) (b : Nat), s.err = false → 1 ≤ b → b ≤ 4 → s.height * s.width ≤ s.cfg.pmMax →
    s.dblen.toNat ≤ s.cfg.dbMax → 8 * s.dblen.toNat ≤ s.height * s.width * b →
    ∃ t u, exec (.bpcEmbed b) s = .next t ∧
      exec (.bpcExtract b) { t with numbits := BitVec.ofNat 32 (8 * s.dblen.toNat) } = .next u ∧ u.err = false ∧
      u.dblen = s.dblen ∧ ∀ j, u.db.read j = s.db.read j

/-- R176: `bpc.embedf b` then `bpc.extractf b` gives DBLEN = HDRLEN = L and back `DB[0 .. L)`, whatever DB and DBLEN
the host has put there in between; and `bpc.embedf b` then NUMBITS = 32 and `bpc.extract b` gives `DB[0 .. 4) =
BE32(L)`. The spec marks this law as its own inference (R176, 'derived: from rule R172 and rule R173'); it is stated as
a consequence of the rules it is derived from. -/
def Obligations.FramedRoundTrip : Prop :=
  ∀ (s : State) (b : Nat), s.err = false → 1 ≤ b → b ≤ 4 → s.height * s.width ≤ s.cfg.pmMax →
    s.dblen.toNat ≤ s.cfg.dbMax → 8 * (s.dblen.toNat + 4) ≤ s.height * s.width * b →
    ∃ t, exec (.bpcEmbedf b) s = .next t ∧
      (∀ (db0 : Memory) (l0 : Word), ∃ u, exec (.bpcExtractf b) { t with db := db0, dblen := l0 } = .next u ∧
        u.err = false ∧ u.dblen = s.dblen ∧ u.hdrlen = s.dblen ∧ ∀ j < s.dblen.toNat, u.db.read j = s.db.read j) ∧
      ∃ v, exec (.bpcExtract b) { t with numbits := 32 } = .next v ∧ v.err = false ∧ v.dblen.toNat = 4 ∧
        (v.db.read 0).toNat * 2 ^ 24 + (v.db.read 1).toNat * 2 ^ 16 + (v.db.read 2).toNat * 2 ^ 8
          + (v.db.read 3).toNat = s.dblen.toNat

/-- R175: after an embed that completes, for a stream of `n` bits, every sample not among the first `ceil(n/b)` of
`VO(N)` is unchanged, bits 7 to `b` of every sample are unchanged, and each sample changes by less than `2^b`. The spec
marks this law as its own inference (R175, 'derived: from rule R163 and rule R169'); it is stated as a consequence of
the rules it is derived from. -/
def Obligations.EmbeddingLeavesTheRestOfThePlaneAlone : Prop :=
  ∀ (s t : State) (b : Nat),
    ∀ x ∈ [(Instr.bpcEmbed b, 8 * s.dblen.toNat), (Instr.bpcEmbedf b, 8 * (s.dblen.toNat + 4))],
      exec x.1 s = .next t → t.err = false →
      (∀ j, j ∉ (visitingOrder s.cfg.pat (s.height * s.width)).take (ceilDiv x.2 b) → t.pm.read j = s.pm.read j) ∧
      (∀ j, (t.pm.read j).toNat / 2 ^ b = (s.pm.read j).toNat / 2 ^ b) ∧
      ∀ j, (t.pm.read j).toNat < (s.pm.read j).toNat + 2 ^ b ∧ (s.pm.read j).toNat < (t.pm.read j).toNat + 2 ^ b

/-! ## The whole machine -/

/-- Every step keeps the invariant: the memories in canonical form and in range, the quadrants within their buffers,
the error registers in agreement with STATUS.ERR, SPLITPT and the QDIMk 0 until a split, one result per access. -/
def Obligations.EveryStepKeepsTheInvariant : Prop :=
  ∀ s t : State, s.Inv → step s = .next t → t.Inv

/-- R40, R45, R47: no step changes the configuration; a step that is no hard reset draws no new bytes, for PM, for DB
or for a quadrant buffer (whose bytes a permutation may have moved from another). The draws are the model's free value
(entry 1). -/
def Obligations.NoStepChangesTheConfiguration : Prop :=
  ∀ s t : State, step s = .next t → t.cfg = s.cfg ∧
    ((∀ rest, s.pending ≠ .hardReset :: rest) → t.resets = s.resets ∧ t.pm.draw = s.pm.draw ∧ t.db.draw = s.db.draw ∧
      ∀ k : Fin 4, ∃ k' : Fin 4, t.qb[k].data.draw = s.qb[k'].data.draw)

/-- R76: each command that completes writes only the places the table gives it, byte by byte. The embed commands write
the first `ceil(n/b)` entries of `VO(N)` in PM, `bpe.merge` `PM[0 .. N)`, `bpc.extract` `DB[0 .. ceil(NUMBITS/8))`,
`bpc.extractf` `DB[0 .. len)`, the cipher commands `DB[0 .. DBLEN)`, `bpe.split` `QB[k].data[0 .. rows_k*cols_k)` (at
the split point of entry 14), and the permutations whole buffers. The spec marks the rule as its own inference
('derived: from the command rules of the family files'); it is stated as a consequence of those rules. -/
def Obligations.EachCommandWritesOnlyItsPlaces : Prop :=
  ∀ (i : Instr) (s t : State), s.err = false → exec i s = .next t → t.err = false →
    match i with
    | .sysNop => t = s
    | .sysClrerr => t = { s with errCode := t.errCode, errSub := t.errSub, errReqL := t.errReqL, errReqH := t.errReqH,
                                 errAvail := t.errAvail, errCmd := t.errCmd }
    | .sysSreset => s.pm = t.pm ∧ s.db = t.db ∧ (∀ k : Fin 4, s.qb[k].data = t.qb[k].data) ∧ s.cfg = t.cfg ∧
        s.pending = t.pending ∧ s.cp = t.cp ∧ s.results = t.results ∧ s.resets = t.resets
    | .bpcEmbed b => t = { s with pm := t.pm } ∧
        ∀ j, j ∉ (visitingOrder s.cfg.pat (s.height * s.width)).take (ceilDiv (8 * s.dblen.toNat) b) →
          t.pm.read j = s.pm.read j
    | .bpcEmbedf b => t = { s with pm := t.pm } ∧
        ∀ j, j ∉ (visitingOrder s.cfg.pat (s.height * s.width)).take (ceilDiv (8 * (s.dblen.toNat + 4)) b) →
          t.pm.read j = s.pm.read j
    | .bpcExtract _ => t = { s with db := t.db, dblen := t.dblen } ∧
        ∀ j, ceilDiv s.numbits.toNat 8 ≤ j → t.db.read j = s.db.read j
    | .bpcExtractf b => t = { s with db := t.db, dblen := t.dblen, hdrlen := t.hdrlen } ∧
        ∀ len < 2 ^ 32, (∀ m < 32, len.testBit (31 - m) = planeBit s b m) → ∀ j, len ≤ j → t.db.read j = s.db.read j
    | .mleaEnc | .mleaDec => t = { s with db := t.db } ∧ ∀ j, s.dblen.toNat ≤ j → t.db.read j = s.db.read j
    | .bpeSplit => t = { s with qb := t.qb, splitpt := t.splitpt, qv := t.qv } ∧
        ∀ k : Fin 4, ∀ g, g = region s.height s.width (s.height / 2) (s.width / 2) k →
          ∀ j, g.rows * g.cols ≤ j → t.qb[k].data.read j = s.qb[k].data.read j
    | .bpePerm _ _ _ _ | .bpeUnperm _ _ _ _ => t = { s with qb := t.qb }
    | .bpeMerge => t = { s with pm := t.pm } ∧ ∀ j, s.height * s.width ≤ j → t.pm.read j = s.pm.read j

/-- R25: STATUS.QV is set by a `bpe.split` that completes and by nothing else, and cleared only by `sys.sreset` or a
hard reset; `bpe.perm`, `bpe.unperm` and `bpe.merge` raise QuadrantError (or an error that comes before it) when it is
0; no other command reads or writes it. -/
def Obligations.QvIsSetBySplitClearedByResetReadByThree : Prop :=
  (∀ s t : State, step s = .next t →
    (s.qv = false → t.qv = true → ∃ rest, s.pending = cmdWrite 0x30 :: rest) ∧
    (s.qv = true → t.qv = false → ∃ rest, s.pending = cmdWrite 2 :: rest ∨ s.pending = .hardReset :: rest)) ∧
  (∀ s t : State, s.err = false → exec .bpeSplit s = .next t → t.err = false → t.qv = true) ∧
  (∀ (i : Instr) (s t : State) (q : Bool), i.checksSplit = false → i ≠ .bpeSplit → i ≠ .sysSreset →
    exec i s = .next t → t.qv = s.qv ∧ exec i { s with qv := q } = .next { t with qv := q }) ∧
  (∀ (i : Instr) (s t : State), i.checksSplit = true → s.err = false → s.qv = false → exec i s = .next t →
    t.err = true ∧ (t.errCode = 5 ∨ t.errCode = 1))

/-- R43, R46: only `mlea.enc` and `mlea.dec` read KD or KDLEN: changed digest bytes and digest length change nothing of
what any other command does; and no command but `sys.sreset` writes them. -/
def Obligations.OnlyTheCipherReadsTheKeyDigest : Prop :=
  (∀ (i : Instr) (s t : State) (kd' : Vector Byte 64) (l' : Word), i ≠ .mleaEnc → i ≠ .mleaDec → i ≠ .sysSreset →
    exec i s = .next t → exec i { s with kd := kd', kdlen := l' } = .next { t with kd := kd', kdlen := l' }) ∧
  (∀ (i : Instr) (s t : State), i ≠ .sysSreset → exec i s = .next t → t.kd = s.kd ∧ t.kdlen = s.kdlen)

/-- R78 (2): a read returns the value of the most recent write to that location: after an accepted write, of a byte or
of a register other than CMD, the same offset reads the value written. -/
def Obligations.ReadsReturnTheMostRecentWrite : Prop :=
  (∀ (s t : State) (off : Word) (v : Byte), writesAs s off 1 v t → readsAs t off 1 (.okByte v)) ∧
  (∀ (s t : State) (off v : Word), off ≠ 0x04 → writesAs s off 4 v t → readsAs t off 4 (.okWord v))

/-- 70_reset_and_hazards.md R252, R253 (the ISCC's steps of the embedding and of the extraction, the host's own left
out): on an even plane, a byte sequence that is enciphered, embedded with its header into the shuffled plane and
carried in the unshuffled plane comes back byte for byte when that plane is shuffled again, the framed payload
extracted and deciphered, under the same permutation, `bpp` and digest, whatever DB, DBLEN, NUMBITS and the quadrant
buffers hold by then. -/
def Obligations.ThePipelineReturnsThePayload : Prop :=
  ∀ (s : State) (p : Equiv.Perm (Fin 4)) (b : Nat), s.err = false → 1 ≤ b → b ≤ 4 →
    s.height * s.width ≤ s.cfg.pmMax → s.height % 2 = 0 → s.width % 2 = 0 →
    s.dblen.toNat ≤ s.cfg.dbMax → 1 ≤ s.kdlen.toNat → s.kdlen.toNat ≤ 64 →
    8 * (s.dblen.toNat + 4) ≤ s.height * s.width * b →
    ∃ t, execSeq [.bpeSplit, .bpePerm (p 0) (p 1) (p 2) (p 3), .bpeMerge, .mleaEnc, .bpcEmbedf b,
        .bpeSplit, .bpeUnperm (p 0) (p 1) (p 2) (p 3), .bpeMerge] s = .next t ∧ t.err = false ∧
      ∀ s' : State, s'.err = false → s'.cfg = s.cfg → s'.dims = s.dims → s'.kd = s.kd → s'.kdlen = s.kdlen →
        (∀ j < s.height * s.width, s'.pm.read j = t.pm.read j) →
        ∃ u, execSeq [.bpeSplit, .bpePerm (p 0) (p 1) (p 2) (p 3), .bpeMerge, .bpcExtractf b, .mleaDec] s' = .next u ∧
          u.err = false ∧ u.dblen = s.dblen ∧ u.hdrlen = s.dblen ∧ ∀ j < s.dblen.toNat, u.db.read j = s.db.read j
end

