-- ==== Sys2Proof/Laws/Memory.lean ====
section
/-! SUPPORT. The laws of the byte memories: read after write, and the canonical form. -/

namespace Sys2Proof.Machine

/-! ## Cells -/

theorem lookupCell_insertCell (i j : Nat) (b : Byte) (cs : List Host.Cell) :
    lookupCell (insertCell i b cs) j = if i = j then some b else lookupCell cs j := by
  induction cs with
  | nil => simp [insertCell, lookupCell]
  | cons c cs ih =>
    rcases lt_trichotomy i c.1 with h | h | h
    · simp only [insertCell, h, if_true, lookupCell]
    · subst h
      simp only [insertCell, lt_irrefl, if_false, if_true, lookupCell]
      split_ifs <;> rfl
    · simp only [insertCell, lookupCell, ih, if_neg h.not_gt, if_neg h.ne']
      split_ifs <;> first | rfl | omega

theorem insertCell_insertCell (i : Nat) (b : Byte) (cs : List Host.Cell) :
    insertCell i b (insertCell i b cs) = insertCell i b cs := by
  induction cs with
  | nil => simp [insertCell]
  | cons c cs ih =>
    rcases lt_trichotomy i c.1 with h | h | h
    · simp [insertCell, h]
    · subst h; simp [insertCell]
    · simp [insertCell, h.not_gt, h.ne', ih]

theorem mem_insertCell {i : Nat} {b : Byte} {cs : List Host.Cell} {c : Host.Cell}
    (h : c ∈ insertCell i b cs) : c = (i, b) ∨ c ∈ cs := by
  induction cs with
  | nil => simpa [insertCell] using h
  | cons d ds ih =>
    unfold insertCell at h
    split_ifs at h <;> simp only [List.mem_cons] at h ⊢ <;> tauto

theorem pairwise_insertCell {i : Nat} {b : Byte} {cs : List Host.Cell}
    (h : cs.Pairwise (fun a b => a.1 < b.1)) : (insertCell i b cs).Pairwise (fun a b => a.1 < b.1) := by
  induction cs with
  | nil => simp [insertCell]
  | cons d ds ih =>
    obtain ⟨hd, hds⟩ := List.pairwise_cons.1 h
    unfold insertCell
    split_ifs with h1 h2
    · exact List.pairwise_cons.2 ⟨fun c hc => by
        rcases List.mem_cons.1 hc with rfl | hc
        · exact h1
        · exact h1.trans (hd c hc), h⟩
    · exact List.pairwise_cons.2 ⟨fun c hc => by simpa [h2] using hd c hc, hds⟩
    · refine List.pairwise_cons.2 ⟨fun c hc => ?_, ih hds⟩
      rcases mem_insertCell hc with rfl | hc
      · show d.1 < i; omega
      · exact hd c hc

/-! ## One byte -/

@[simp] theorem Memory.write_draw (m : Memory) (i : Nat) (b : Byte) : (m.write i b).draw = m.draw := rfl

theorem Memory.read_write (m : Memory) (i j : Nat) (b : Byte) :
    (m.write i b).read j = if i = j then b else m.read j := by
  simp only [Memory.read, Memory.write, lookupCell_insertCell, Memory.unlisted]
  split_ifs <;> rfl

@[simp] theorem Memory.read_write_same (m : Memory) (i : Nat) (b : Byte) : (m.write i b).read i = b := by
  simp [Memory.read_write]

theorem Memory.read_write_other (m : Memory) {i j : Nat} (b : Byte) (h : i ≠ j) :
    (m.write i b).read j = m.read j := by
  simp [Memory.read_write, h]

theorem Memory.write_write (m : Memory) (i : Nat) (b : Byte) : (m.write i b).write i b = m.write i b := by
  simp [Memory.write, insertCell_insertCell]

/-- Every memory operation keeps the canonical form. -/
theorem Memory.wf_write {size i : Nat} {m : Memory} (b : Byte) (h : m.wf size) (hi : i < size) :
    (m.write i b).wf size :=
  ⟨pairwise_insertCell h.1, fun c hc => by
    rcases mem_insertCell hc with rfl | hc
    · exact hi
    · exact h.2 c hc⟩

theorem Memory.wf_afterReset (size r : Nat) (k : MemId) : (Memory.afterReset r k).wf size := by
  simp [Memory.wf, Memory.afterReset]

@[simp] theorem Memory.read_afterReset (r : Nat) (k : MemId) (i : Nat) :
    (Memory.afterReset r k).read i = Config.powerOnByte ⟨r, k⟩ i := rfl

/-! ## Many bytes -/

@[simp] theorem Memory.writeAll_nil (m : Memory) : m.writeAll [] = m := rfl

@[simp] theorem Memory.writeAll_cons (m : Memory) (w : Nat × Byte) (ws : List (Nat × Byte)) :
    m.writeAll (w :: ws) = (m.write w.1 w.2).writeAll ws := rfl

@[simp] theorem Memory.writeAll_draw (m : Memory) (ws : List (Nat × Byte)) : (m.writeAll ws).draw = m.draw := by
  induction ws generalizing m with
  | nil => rfl
  | cons w ws ih => simp [ih]

/-- An index no pair names reads as before. -/
theorem Memory.read_writeAll_of_notMem {m : Memory} {ws : List (Nat × Byte)} {j : Nat}
    (h : j ∉ ws.map Prod.fst) : (m.writeAll ws).read j = m.read j := by
  induction ws generalizing m with
  | nil => rfl
  | cons w ws ih =>
    simp only [List.map_cons, List.mem_cons, not_or] at h
    rw [Memory.writeAll_cons, ih h.2, Memory.read_write_other _ _ (Ne.symm h.1)]

/-- Where no index is named twice, a named index reads as the byte paired with it. -/
theorem Memory.read_writeAll_of_mem {m : Memory} {ws : List (Nat × Byte)} {i : Nat} {b : Byte}
    (hn : (ws.map Prod.fst).Nodup) (h : (i, b) ∈ ws) : (m.writeAll ws).read i = b := by
  induction ws generalizing m with
  | nil => simp at h
  | cons w ws ih =>
    simp only [List.map_cons, List.nodup_cons] at hn
    rcases List.mem_cons.1 h with rfl | h
    · rw [Memory.writeAll_cons, Memory.read_writeAll_of_notMem hn.1, Memory.read_write_same]
    · exact ih hn.2 h

theorem Memory.wf_writeAll {size : Nat} {m : Memory} {ws : List (Nat × Byte)} (h : m.wf size)
    (hw : ∀ w ∈ ws, w.1 < size) : (m.writeAll ws).wf size := by
  induction ws generalizing m with
  | nil => exact h
  | cons w ws ih =>
    exact ih (Memory.wf_write _ h (hw w (by simp))) fun v hv => hw v (by simp [hv])

/-- What `writeAll` of `i ↦ f i` for `i < n` leaves. -/
theorem Memory.read_writeAll_range (m : Memory) (n j : Nat) (f : Nat → Byte) :
    (m.writeAll ((List.range n).map fun i => (i, f i))).read j = if j < n then f j else m.read j := by
  have hk : ((List.range n).map fun i => (i, f i)).map Prod.fst = List.range n := by
    simp [Function.comp_def]
  split_ifs with h
  · exact Memory.read_writeAll_of_mem (by rw [hk]; exact List.nodup_range)
      (List.mem_map.2 ⟨j, List.mem_range.2 h, rfl⟩)
  · exact Memory.read_writeAll_of_notMem (by rw [hk]; simpa using h)

theorem Memory.read_load (m : Memory) (bytes : List Byte) (j : Nat) :
    (m.load bytes).read j = (bytes[j]?).getD (m.read j) := by
  have hz : (List.range bytes.length).zip bytes
      = (List.range bytes.length).map fun i => (i, bytes.getD i 0) := by
    refine List.ext_getElem (by simp) fun i h _ => ?_
    have hi : i < bytes.length := by simpa using h
    simp [hi]
  unfold Memory.load
  rw [hz, Memory.read_writeAll_range]
  split_ifs with h <;> simp [h]

/-- Loading a byte sequence leaves every index past its end alone. -/
theorem Memory.read_load_beyond {m : Memory} {bytes : List Byte} {j : Nat} (h : bytes.length ≤ j) :
    (m.load bytes).read j = m.read j := by
  rw [Memory.read_load, List.getElem?_eq_none h, Option.getD_none]

theorem Memory.wf_load {size : Nat} {m : Memory} {bytes : List Byte} (h : m.wf size)
    (hb : bytes.length ≤ size) : (m.load bytes).wf size :=
  Memory.wf_writeAll h fun w hw => by
    have := List.of_mem_zip (a := w.1) (b := w.2) hw
    simp at this
    omega

@[simp] theorem Memory.length_bytes (m : Memory) (n : Nat) : (m.bytes n).length = n := by simp [Memory.bytes]

theorem Memory.getElem?_bytes (m : Memory) (n i : Nat) :
    (m.bytes n)[i]? = if i < n then some (m.read i) else none := by
  simp only [Memory.bytes, List.getElem?_map]
  split_ifs with h <;> simp [h]

/-! ## The key-digest file -/

theorem kdRead_kdWrite (kd : Vector Byte 64) {i : Nat} (j : Nat) (b : Byte) (hi : i < 64) :
    kdRead (kdWrite kd i b) j = if i = j then b else kdRead kd j := by
  unfold kdRead kdWrite
  rw [Vector.getElem?_setIfInBounds]
  split_ifs <;> simp_all

/-! ## Two-field registers -/

@[simp] theorem kdRead_zero (i : Nat) : kdRead (Vector.replicate 64 (0 : Byte)) i = 0 := by
  unfold kdRead
  rw [Vector.getElem?_replicate]
  split_ifs <;> rfl

theorem kdWrite_kdWrite (kd : Vector Byte 64) (i : Nat) (b : Byte) : kdWrite (kdWrite kd i b) i b = kdWrite kd i b := by
  ext j hj
  simp [kdWrite, Vector.getElem_setIfInBounds]

@[simp] theorem Shape.toWord_ofWord (w : Word) : (Shape.ofWord w).toWord = w := by
  apply BitVec.eq_of_getLsbD_eq
  intro i hi
  simp only [Shape.toWord, Shape.ofWord, BitVec.getLsbD_append, BitVec.getLsbD_extractLsb']
  split_ifs with h
  · simp [h]
  · have : i - 16 < 16 := by omega
    have e : 16 + (i - 16) = i := by omega
    simp [this, e]

end Sys2Proof.Machine
end

