-- ==== Sys2Proof/Laws/Order.lean ====
section
/-! SUPPORT. The configuration's bounds, and the visiting order: which indices it holds, once each
(42_bpc_bitplane_codec.md R160 to R162). -/

namespace Sys2Proof

theorem Config.bounds (c : Config) :
    1 ≤ c.pmMax ∧ c.pmMax ≤ 2 ^ 24 ∧ (c.pmMax + 1) / 2 ≤ c.dbMax ∧ c.dbMax ≤ 2 ^ 23 ∧
    1 ≤ c.pat.length ∧ c.pat.length ≤ 256 ∧ c.pat.Perm (List.range c.pat.length) := by
  have h := c.legal
  simp only [Config.check, Bool.and_eq_true, decide_eq_true_eq, List.isPerm_iff] at h
  tauto

theorem Config.pat_perm (c : Config) : c.pat.Perm (List.range c.pat.length) := c.bounds.2.2.2.2.2.2

theorem Config.pat_pos (c : Config) : 0 < c.pat.length := c.bounds.2.2.2.2.1

namespace Machine

theorem ceilDiv_le {a b m : Nat} (hb : 0 < b) : ceilDiv a b ≤ m ↔ a ≤ m * b := by
  unfold ceilDiv
  rw [← Nat.lt_succ_iff, Nat.div_lt_iff_lt_mul hb, Nat.succ_mul]
  omega

theorem lt_ceilDiv {a b k : Nat} (hb : 0 < b) : k < ceilDiv a b ↔ k * b < a := by
  rw [← not_le, ceilDiv_le hb, not_le]

theorem le_ceilDiv_mul (a : Nat) {b : Nat} (hb : 0 < b) : a ≤ ceilDiv a b * b := (ceilDiv_le hb).1 le_rfl

theorem ceilDiv_mul_lt (a : Nat) {b : Nat} (hb : 0 < b) : ceilDiv a b * b < a + b := by
  unfold ceilDiv
  have := Nat.div_mul_le_self (a + b - 1) b
  omega

section
variable {pat : List Nat} (hp : pat.Perm (List.range pat.length)) (h0 : 0 < pat.length)
include hp

theorem mem_pat {p : Nat} : p ∈ pat ↔ p < pat.length := by
  rw [hp.mem_iff, List.mem_range]

theorem nodup_pat : pat.Nodup := hp.nodup_iff.2 List.nodup_range

theorem mem_tileOrder {n t i : Nat} :
    i ∈ tileOrder pat n t ↔ t * pat.length ≤ i ∧ i < (t + 1) * pat.length ∧ i < n := by
  simp only [tileOrder, List.mem_filter, List.mem_map, decide_eq_true_eq, Nat.succ_mul]
  constructor
  · rintro ⟨⟨p, hm, rfl⟩, hn⟩
    have := (mem_pat hp).1 hm
    omega
  · rintro ⟨h1, h2, h3⟩
    exact ⟨⟨i - t * pat.length, (mem_pat hp).2 (by omega), by omega⟩, h3⟩

theorem nodup_tileOrder (n t : Nat) : (tileOrder pat n t).Nodup :=
  ((nodup_pat hp).map fun a b h => by simpa using h).filter _

include h0

theorem mem_visitingOrder {n i : Nat} : i ∈ visitingOrder pat n ↔ i < n := by
  simp only [visitingOrder, List.mem_flatMap, List.mem_range, mem_tileOrder hp]
  constructor
  · rintro ⟨t, -, -, -, h⟩; exact h
  · intro h
    refine ⟨i / pat.length, (lt_ceilDiv h0).2 ?_, ?_, ?_, h⟩
    · exact (Nat.div_mul_le_self i _).trans_lt h
    · exact Nat.div_mul_le_self i _
    · rw [← Nat.div_lt_iff_lt_mul h0]
      omega

omit h0 in
theorem nodup_visitingOrder (n : Nat) : (visitingOrder pat n).Nodup := by
  refine List.nodup_flatMap.2 ⟨fun t _ => nodup_tileOrder hp n t, ?_⟩
  refine List.Pairwise.imp ?_ List.pairwise_lt_range
  intro a b hab i ha hb
  have h1 := (mem_tileOrder hp).1 ha
  have h2 := (mem_tileOrder hp).1 hb
  have : (a + 1) * pat.length ≤ b * pat.length := Nat.mul_le_mul_right _ hab
  omega

/-- Every index of the plane, exactly once (R162). -/
theorem visitingOrder_perm_range (n : Nat) : (visitingOrder pat n).Perm (List.range n) :=
  (List.perm_ext_iff_of_nodup (nodup_visitingOrder hp n) List.nodup_range).2 fun i => by
    rw [mem_visitingOrder hp h0, List.mem_range]

theorem length_visitingOrder (n : Nat) : (visitingOrder pat n).length = n := by
  simpa using (visitingOrder_perm_range hp h0 n).length_eq

end

/-- How many tiles a plane of `q` whole tiles and `r` more elements takes (R161). -/
theorem ceilDiv_tiles {T q r : Nat} (hr : r < T) : ceilDiv (q * T + r) T = if r = 0 then q else q + 1 := by
  unfold ceilDiv
  split_ifs with h
  · subst h
    rw [show q * T + 0 + T - 1 = (T - 1) + q * T by omega, Nat.add_mul_div_right _ _ (by omega), Nat.div_eq_of_lt
        (by omega)]; omega
  · rw [show q * T + r + T - 1 = (r - 1) + (q + 1) * T by rw [Nat.succ_mul]; omega, Nat.add_mul_div_right _ _
        (by omega), Nat.div_eq_of_lt (by omega)]; omega

/-- A tile that lies in the plane is kept whole (R161). -/
theorem tileOrder_full {pat : List Nat} (hp : pat.Perm (List.range pat.length)) {n t : Nat} (h :
    (t + 1) * pat.length ≤ n) :
    tileOrder pat n t = pat.map fun p => t * pat.length + p := by
  rw [tileOrder, List.filter_eq_self]
  intro i hi
  obtain ⟨p, hm, rfl⟩ := List.mem_map.1 hi
  have := (mem_pat hp).1 hm
  rw [Nat.succ_mul] at h
  exact decide_eq_true (by omega)

theorem State.length_order (s : State) : s.order.length = s.count :=
  length_visitingOrder s.cfg.pat_perm s.cfg.pat_pos _

theorem State.nodup_order (s : State) : s.order.Nodup :=
  nodup_visitingOrder s.cfg.pat_perm _

theorem State.mem_order (s : State) {i : Nat} : i ∈ s.order ↔ i < s.count :=
  mem_visitingOrder s.cfg.pat_perm s.cfg.pat_pos

end Machine
end Sys2Proof
end

