-- ==== Sys2Proof/Laws/Bus.lean ====
section
/-! SUPPORT. The address map: what `locate` finds exists, and where (20_memory.md R63 to R65). -/

namespace Sys2Proof.Machine

/-- The place exists: its index is below the memory's size. -/
def Target.inRange (c : Config) : Target → Prop
  | .reg _ => True
  | .kd i => i < 64
  | .pat i => i < c.tileLen
  | .db i => i < c.dbMax
  | .pm i => i < c.pmMax
  | .qb _ i => i < c.pmMax

/-- The window offset of a byte (R63); registers have none. -/
def Target.offset : Target → Nat
  | .reg _ => 0
  | .kd i => 0x100 + i
  | .pat i => 0x200 + i
  | .db i => 0x00800000 + i
  | .pm i => 0x01000000 + i
  | .qb k i => 0x02000000 + k.val * 0x01000000 + i

/-- What a window offset reaches exists, is no register, and stands at that offset. -/
theorem windowAt_some {c : Config} {off : Nat} {x : Target} (h : windowAt c off = some x) :
    x.inRange c ∧ x.offset = off ∧ ∀ r, x ≠ .reg r := by
  unfold windowAt at h
  split_ifs at h <;> simp only [Option.some.injEq] at h <;> subst h <;>
    refine ⟨?_, ?_, by simp⟩ <;> simp [Target.inRange, Target.offset] <;> omega

theorem locate_four (c : Config) (off : Nat) : locate c off 4 = (regAt off).map .reg := rfl

theorem locate_one (c : Config) (off : Nat) : locate c off 1 = windowAt c off := rfl

theorem locate_other {c : Config} {off n : Nat} (h1 : n ≠ 1) (h4 : n ≠ 4) : locate c off n = none := by
  simp [locate, h1, h4]

theorem locate_inRange {c : Config} {off n : Nat} {x : Target} (h : locate c off n = some x) : x.inRange c := by
  unfold locate at h
  split_ifs at h
  · obtain ⟨r, -, rfl⟩ := Option.map_eq_some_iff.1 h; trivial
  · exact (windowAt_some h).1

/-- The windows do not overlap: an offset is that of one existing byte only (R63). -/
theorem Target.offset_inj {c : Config} {x y : Target} (hx : x.inRange c) (hy : y.inRange c) (hrx : ∀ r, x ≠ .reg r)
    (hry : ∀ r, y ≠ .reg r) (h : x.offset = y.offset) : x = y := by
  have hb := c.bounds
  have ht : c.tileLen = c.pat.length := rfl
  cases x <;> cases y <;> simp only [Target.inRange, Target.offset] at hx hy h
  case reg.reg r _ => exact absurd rfl (hrx r)
  case qb.qb k i k' i' =>
    obtain rfl : k = k' := Fin.ext (by omega)
    exact congrArg _ (by omega)
  all_goals first | exact congrArg _ (by omega) | omega

/-- An offset in none of the windows is that of no existing byte (R63, R65). -/
theorem offset_ne_of_windowAt {c : Config} {off : Nat} (hw : windowAt c off = none) {x : Target} (h : x.inRange c)
    (hr : ∀ r, x ≠ .reg r) : x.offset ≠ off := by
  have hb := c.bounds
  have ht : c.tileLen = c.pat.length := rfl
  have hk : (¬(0x100 ≤ off ∧ off < 0x140)) ∧ (¬(0x200 ≤ off ∧ off < 0x200 + c.tileLen)) ∧
      (¬(0x00800000 ≤ off ∧ off < 0x00800000 + c.dbMax)) ∧
      ∀ n < 5, ¬(0x01000000 * (n + 1) ≤ off ∧ off < 0x01000000 * (n + 1) + c.pmMax) := by
    clear h hr
    unfold windowAt at hw
    split_ifs at hw <;> refine ⟨by omega, by omega, by omega, fun n hn => by omega⟩
  rcases x with r | i | i | i | i | ⟨k, i⟩
  · exact absurd rfl (hr r)
  all_goals simp only [Target.inRange, Target.offset] at h ⊢
  · omega
  · omega
  · omega
  · have := hk.2.2.2 0 (by omega); omega
  · have := hk.2.2.2 (k.val + 1) (by omega); omega

/-- Every existing byte of a window is found at its offset: the map reaches some byte there, and no other stands there. -/
theorem windowAt_offset {c : Config} {x : Target} (h : x.inRange c) (hr : ∀ r, x ≠ .reg r) :
    windowAt c x.offset = some x := by
  cases hw : windowAt c x.offset with
  | some y =>
    obtain ⟨hy, ho, hry⟩ := windowAt_some hw
    rw [Target.offset_inj hy h hry hr ho]
  | none => exact absurd rfl (offset_ne_of_windowAt hw h hr)

/-- No register stands at an offset that is misaligned or reserved (R49, R64). -/
theorem regAt_none {off : Nat} (h : off % 4 ≠ 0 ∨ 0x5C ≤ off) : regAt off = none := by
  unfold regAt
  split <;> first | rfl | omega

/-- With an empty plane VOIDX reads all ones (R38, R48). -/
theorem voidx_zero {s : State} (h : s.dims = Shape.zero) : voidx s = 0xFFFFFFFF := by
  have hl := s.length_order
  have : s.count = 0 := by simp [State.count, State.height, State.width, h, Shape.zero]
  have : s.order[s.vok.toNat]? = none := List.getElem?_eq_none (by omega)
  rw [voidx, this]

end Sys2Proof.Machine
end

