-- ==== Sys2Proof/Laws/Codec.lean ====
section
/-! SUPPORT. The fields of a command word and the words of the formats, as numbers (30_encoding.md R90 to R93). -/

namespace Sys2Proof

theorem bitField_eq (w : Word) (lo n : Nat) : bitField w lo n = w.toNat / 2 ^ lo % 2 ^ n := by
  simp [bitField, BitVec.extractLsb'_toNat, Nat.shiftRight_eq_div_pow]

theorem toNat_append' {m n : Nat} (x : BitVec m) (y : BitVec n) :
    (x ++ y).toNat = x.toNat * 2 ^ n + y.toNat := by
  rw [BitVec.toNat_append, Nat.shiftLeft_eq, Nat.mul_comm, Nat.two_pow_add_eq_or_of_lt y.isLt]

theorem toNat_encodeN (op : Byte) : (encodeN op).toNat = op.toNat := by
  simp only [encodeN, toNat_append', BitVec.ofNat_eq_ofNat, BitVec.toNat_ofNat]
  omega

theorem toNat_encodeB (op : Byte) (b : Nat) : (encodeB op b).toNat = b % 16 * 2 ^ 8 + op.toNat := by
  simp only [encodeB, toNat_append', BitVec.ofNat_eq_ofNat, BitVec.toNat_ofNat]
  omega

theorem toNat_encodeP (op : Byte) (p0 p1 p2 p3 : Nat) :
    (encodeP op p0 p1 p2 p3).toNat
      = p3 % 16 * 2 ^ 20 + p2 % 16 * 2 ^ 16 + p1 % 16 * 2 ^ 12 + p0 % 16 * 2 ^ 8 + op.toNat := by
  simp only [encodeP, toNat_append', BitVec.ofNat_eq_ofNat, BitVec.toNat_ofNat]
  omega

theorem decodeN_ok {w : Word} {i j : Instr} : decodeN w i = .ok j ↔ w.toNat / 2 ^ 8 = 0 ∧ i = j := by
  have := w.isLt
  rw [decodeN, bitField_eq, Nat.mod_eq_of_lt (a := w.toNat / 2 ^ 8) (by omega)]
  split_ifs with h
  · rw [Except.ok.injEq]; exact ⟨fun hh => ⟨h, hh⟩, fun hh => hh.2⟩
  · exact ⟨fun hh => (by cases hh), fun hh => absurd hh.1 h⟩

theorem decodeB_ok {w : Word} {mk : Nat → Instr} {j : Instr} :
    decodeB w mk = .ok j ↔ w.toNat / 2 ^ 12 = 0 ∧ mk (w.toNat / 2 ^ 8 % 16) = j := by
  have := w.isLt
  rw [decodeB, bppField, bitField_eq, bitField_eq, Nat.mod_eq_of_lt (a := w.toNat / 2 ^ 12) (by omega)]
  split_ifs with h
  · rw [Except.ok.injEq]; exact ⟨fun hh => ⟨h, hh⟩, fun hh => hh.2⟩
  · exact ⟨fun hh => (by cases hh), fun hh => absurd hh.1 h⟩

theorem decodeP_ok {w : Word} {mk : Nat → Nat → Nat → Nat → Instr} {j : Instr} :
    decodeP w mk = .ok j ↔ w.toNat / 2 ^ 24 = 0 ∧
      mk (w.toNat / 2 ^ 8 % 16) (w.toNat / 2 ^ 12 % 16) (w.toNat / 2 ^ 16 % 16) (w.toNat / 2 ^ 20 % 16) = j := by
  have := w.isLt
  simp only [decodeP, permField, bitField_eq]
  rw [Nat.mod_eq_of_lt (a := w.toNat / 2 ^ 24) (by omega)]
  split_ifs with h
  · rw [Except.ok.injEq]; exact ⟨fun hh => ⟨h, hh⟩, fun hh => hh.2⟩
  · exact ⟨fun hh => (by cases hh), fun hh => absurd hh.1 h⟩

theorem decodeN_encodeN (op : Byte) (i : Instr) : decodeN (encodeN op) i = .ok i := by
  rw [decodeN_ok, toNat_encodeN]; exact ⟨by omega, rfl⟩

theorem decodeB_encodeB (op : Byte) {b : Nat} (mk : Nat → Instr) (hb : b < 16) :
    decodeB (encodeB op b) mk = .ok (mk b) := by
  have := op.isLt
  rw [decodeB_ok, toNat_encodeB]
  exact ⟨by omega, by congr 1; omega⟩

theorem decodeP_encodeP (op : Byte) {p0 p1 p2 p3 : Nat} (mk : Nat → Nat → Nat → Nat → Instr)
    (h0 : p0 < 16) (h1 : p1 < 16) (h2 : p2 < 16) (h3 : p3 < 16) :
    decodeP (encodeP op p0 p1 p2 p3) mk = .ok (mk p0 p1 p2 p3) := by
  have := op.isLt
  rw [decodeP_ok, toNat_encodeP]
  exact ⟨by omega, by congr 1 <;> omega⟩

/-! ## By opcode -/

theorem opcodeField_eq (w : Word) : opcodeField w = w.toNat % 256 := by
  rw [opcodeField, bitField_eq]; simp

theorem opcodeField_encodeN (op : Byte) : opcodeField (encodeN op) = op.toNat := by
  rw [opcodeField_eq, toNat_encodeN]; omega

theorem opcodeField_encodeB (op : Byte) (b : Nat) : opcodeField (encodeB op b) = op.toNat := by
  rw [opcodeField_eq, toNat_encodeB]; omega

theorem opcodeField_encodeP (op : Byte) (p0 p1 p2 p3 : Nat) : opcodeField (encodeP op p0 p1 p2 p3) = op.toNat := by
  rw [opcodeField_eq, toNat_encodeP]; omega

theorem decode_sysNop {w : Word} (h : opcodeField w = 0x00) : decode w = decodeN w .sysNop := by simp [decode, h]
theorem decode_sysClrerr {w : Word} (h : opcodeField w = 0x01) : decode w = decodeN w .sysClrerr := by simp [decode, h]
theorem decode_sysSreset {w : Word} (h : opcodeField w = 0x02) : decode w = decodeN w .sysSreset := by simp [decode, h]
theorem decode_bpcEmbed {w : Word} (h : opcodeField w = 0x10) : decode w = decodeB w .bpcEmbed := by simp [decode, h]
theorem decode_bpcExtract {w : Word} (h : opcodeField w = 0x11) : decode w = decodeB w .bpcExtract := by
    simp [decode, h]
theorem decode_bpcEmbedf {w : Word} (h : opcodeField w = 0x12) : decode w = decodeB w .bpcEmbedf := by simp [decode, h]
theorem decode_bpcExtractf {w : Word} (h : opcodeField w = 0x13) : decode w = decodeB w .bpcExtractf := by
    simp [decode, h]
theorem decode_mleaEnc {w : Word} (h : opcodeField w = 0x20) : decode w = decodeN w .mleaEnc := by simp [decode, h]
theorem decode_mleaDec {w : Word} (h : opcodeField w = 0x21) : decode w = decodeN w .mleaDec := by simp [decode, h]
theorem decode_bpeSplit {w : Word} (h : opcodeField w = 0x30) : decode w = decodeN w .bpeSplit := by simp [decode, h]
theorem decode_bpePerm {w : Word} (h : opcodeField w = 0x31) : decode w = decodeP w .bpePerm := by simp [decode, h]
theorem decode_bpeUnperm {w : Word} (h : opcodeField w = 0x32) : decode w = decodeP w .bpeUnperm := by simp [decode, h]
theorem decode_bpeMerge {w : Word} (h : opcodeField w = 0x33) : decode w = decodeN w .bpeMerge := by simp [decode, h]

theorem encodeN_eq {op : Byte} {w : Word} (h : w.toNat / 2 ^ 8 = 0)
    (ho : opcodeField w = op.toNat) : encodeN op = w := by
  rw [opcodeField_eq] at ho
  exact BitVec.eq_of_toNat_eq (by rw [toNat_encodeN]; omega)

theorem encodeB_eq {op : Byte} {w : Word} (h : w.toNat / 2 ^ 12 = 0) (ho : opcodeField w = op.toNat) :
    encodeB op (w.toNat / 2 ^ 8 % 16) = w := by
  rw [opcodeField_eq] at ho
  exact BitVec.eq_of_toNat_eq (by rw [toNat_encodeB]; omega)

theorem encodeP_eq {op : Byte} {w : Word} (h : w.toNat / 2 ^ 24 = 0) (ho : opcodeField w = op.toNat) :
    encodeP op (w.toNat / 2 ^ 8 % 16) (w.toNat / 2 ^ 12 % 16) (w.toNat / 2 ^ 16 % 16) (w.toNat / 2 ^ 20 % 16) = w := by
  rw [opcodeField_eq] at ho
  exact BitVec.eq_of_toNat_eq (by rw [toNat_encodeP]; omega)

theorem fitsField_mod (n : Nat) : fitsField (n % 16) = true := by simp [fitsField, Nat.mod_lt]

theorem decodeN_inv {w : Word} {i j : Instr} {op : Byte} (ho : opcodeField w = op.toNat) (hw : i.wellFormed = true)
    (he : encode i = encodeN op) (h : decodeN w i = .ok j) : j.wellFormed = true ∧ encode j = w := by
  obtain ⟨hz, rfl⟩ := decodeN_ok.1 h
  exact ⟨hw, he.trans (encodeN_eq hz ho)⟩

theorem decodeB_inv {w : Word} {mk : Nat → Instr} {j : Instr} {op : Byte} (ho : opcodeField w = op.toNat)
    (hw : ∀ b, (mk b).wellFormed = fitsField b) (he : ∀ b, encode (mk b) = encodeB op b) (h : decodeB w mk = .ok j) :
    j.wellFormed = true ∧ encode j = w := by
  obtain ⟨hz, rfl⟩ := decodeB_ok.1 h
  exact ⟨(hw _).trans (fitsField_mod _), (he _).trans (encodeB_eq hz ho)⟩

theorem decodeP_inv {w : Word} {mk : Nat → Nat → Nat → Nat → Instr} {j : Instr} {op : Byte}
    (ho : opcodeField w = op.toNat)
    (hw : ∀ a b c d, (mk a b c d).wellFormed = (fitsField a && fitsField b && fitsField c && fitsField d))
    (he : ∀ a b c d, encode (mk a b c d) = encodeP op a b c d) (h : decodeP w mk = .ok j) :
    j.wellFormed = true ∧ encode j = w := by
  obtain ⟨hz, rfl⟩ := decodeP_ok.1 h
  exact ⟨by simp [hw, fitsField_mod], (he _ _ _ _).trans (encodeP_eq hz ho)⟩

theorem decode_unknown {w : Word} (h : opcodeField w ∉ knownOpcodes) : decode w = .error .unknownOpcode := by
  simp only [knownOpcodes, List.mem_cons, List.not_mem_nil, or_false, not_or] at h
  unfold decode
  split <;> simp_all

theorem opcode_cases (w : Word) : opcodeField w ∉ knownOpcodes ∨ opcodeField w = 0x00 ∨ opcodeField w = 0x01 ∨
    opcodeField w = 0x02 ∨ opcodeField w = 0x10 ∨ opcodeField w = 0x11 ∨ opcodeField w = 0x12 ∨ opcodeField w = 0x13 ∨
    opcodeField w = 0x20 ∨ opcodeField w = 0x21 ∨ opcodeField w = 0x30 ∨ opcodeField w = 0x31 ∨ opcodeField w = 0x32 ∨
    opcodeField w = 0x33 := by
  simp only [knownOpcodes, List.mem_cons, List.not_mem_nil, or_false]
  tauto

/-- A word with a known opcode that is no command has a reserved bit set (R98). -/
theorem decode_known_error {w : Word} {d : DecodeError} (h : opcodeField w ∈ knownOpcodes) (hd : decode w = .error d) :
    d = .reservedBit := by
  rcases opcode_cases w with ho | ho | ho | ho | ho | ho | ho | ho | ho | ho | ho | ho | ho | ho
  · exact absurd h ho
  all_goals
    first
    | rw [decode_sysNop ho] at hd | rw [decode_sysClrerr ho] at hd | rw [decode_sysSreset ho] at hd
    | rw [decode_bpcEmbed ho] at hd | rw [decode_bpcExtract ho] at hd | rw [decode_bpcEmbedf ho] at hd
    | rw [decode_bpcExtractf ho] at hd | rw [decode_mleaEnc ho] at hd | rw [decode_mleaDec ho] at hd
    | rw [decode_bpeSplit ho] at hd | rw [decode_bpePerm ho] at hd | rw [decode_bpeUnperm ho] at hd
    | rw [decode_bpeMerge ho] at hd
    first | unfold decodeN at hd | unfold decodeB at hd | unfold decodeP at hd
    split_ifs at hd
    cases hd; rfl

/-! ## The masks and rows of the opcode table (R97) -/

/-- A mask that takes the opcode and the bits from `k` up. -/
theorem and_mask_eq_iff {w m p : Word} {k : Nat} (hk : 8 ≤ k) (hk' : k ≤ 32)
    (hm : ∀ i < 32, m.getLsbD i = (decide (i < 8) || decide (k ≤ i))) (hp : p.toNat < 256) :
    w &&& m = p ↔ w.toNat % 256 = p.toNat ∧ w.toNat / 2 ^ k = 0 := by
  have hpb : ∀ i, 8 ≤ i → p.getLsbD i = false := fun i hi => by
    rw [BitVec.getLsbD]
    exact Nat.testBit_lt_two_pow (hp.trans_le ((Nat.pow_le_pow_right (by decide) hi : 2 ^ 8 ≤ 2 ^ i)))
  have h1 : w.toNat % 256 = p.toNat ↔ ∀ i < 8, w.getLsbD i = p.getLsbD i := by
    constructor
    · intro h i hi
      rw [BitVec.getLsbD, BitVec.getLsbD, ← h, show (256 : Nat) = 2 ^ 8 from rfl, Nat.testBit_mod_two_pow,
        decide_eq_true hi, Bool.true_and]
    · intro h
      refine Nat.eq_of_testBit_eq fun i => ?_
      rw [show (256 : Nat) = 2 ^ 8 from rfl, Nat.testBit_mod_two_pow]
      by_cases hi : i < 8
      · simpa [hi, BitVec.getLsbD] using h i hi
      · have := hpb i (by omega)
        rw [BitVec.getLsbD] at this
        simp [hi, this]
  have h2 : w.toNat / 2 ^ k = 0 ↔ ∀ i, k ≤ i → w.getLsbD i = false := by
    constructor
    · intro h i hi
      have := congrArg (·.testBit (i - k)) h
      simpa [Nat.testBit_div_two_pow, hi, BitVec.getLsbD] using this
    · intro h
      refine Nat.eq_of_testBit_eq fun i => ?_
      have := h (i + k) (by omega)
      rw [BitVec.getLsbD] at this
      simp [Nat.testBit_div_two_pow, this]
  rw [h1, h2]
  constructor
  · rintro rfl
    refine ⟨fun i hi => ?_, fun i hi => ?_⟩
    · rw [BitVec.getLsbD_and, hm i (by omega)]; simp [hi]
    · by_cases h32 : i < 32
      · have := hpb i (by omega)
        rwa [BitVec.getLsbD_and, hm i h32, decide_eq_true hi, Bool.or_true, Bool.and_true] at this
      · exact BitVec.getLsbD_of_ge _ _ (by omega)
  · rintro ⟨ha, hb⟩
    refine BitVec.eq_of_getLsbD_eq fun i hi => ?_
    rw [BitVec.getLsbD_and, hm i hi]
    by_cases h8 : i < 8
    · simp [h8, ha i h8]
    · rw [hpb i (by omega)]
      by_cases hki : k ≤ i
      · simp [hb i hki]
      · simp [h8, hki]

theorem mask_N {w p : Word} (hp : p.toNat < 256) : w &&& 0xFFFFFFFF = p ↔ opcodeField w = p.toNat ∧
    w.toNat / 2 ^ 8 = 0 := by
  rw [opcodeField_eq]; exact and_mask_eq_iff (by decide) (by decide) (by decide) hp

theorem mask_B {w p : Word} (hp : p.toNat < 256) : w &&& 0xFFFFF0FF = p ↔ opcodeField w = p.toNat ∧
    w.toNat / 2 ^ 12 = 0 := by
  rw [opcodeField_eq]; exact and_mask_eq_iff (by decide) (by decide) (by decide) hp

theorem mask_P {w p : Word} (hp : p.toNat < 256) : w &&& 0xFF0000FF = p ↔ opcodeField w = p.toNat ∧
    w.toNat / 2 ^ 24 = 0 := by
  rw [opcodeField_eq]; exact and_mask_eq_iff (by decide) (by decide) (by decide) hp

/-- A word that matches a row is that row's command. -/
theorem mem_opcodeTable {r : OpcodeRow} : r ∈ opcodeTable → ∀ w : Word, w &&& r.mask = r.pattern →
    opcodeField w = r.pattern.toNat ∧ ∃ i, decode w = .ok i ∧ i.mnemonic = r.mnemonic := by
  intro hr w hm
  simp only [opcodeTable, List.mem_cons, List.not_mem_nil, or_false] at hr
  rcases hr with rfl | rfl | rfl | rfl | rfl | rfl | rfl | rfl | rfl | rfl | rfl | rfl | rfl
  · obtain ⟨ho, hz⟩ := (mask_N (by decide)).1 hm; exact ⟨ho, _, (decode_sysNop ho).trans (decodeN_ok.2 ⟨hz, rfl⟩), rfl⟩
  · obtain ⟨ho, hz⟩ := (mask_N (by decide)).1 hm; exact ⟨ho, _, (decode_sysClrerr ho).trans (decodeN_ok.2 ⟨hz, rfl⟩),
        rfl⟩
  · obtain ⟨ho, hz⟩ := (mask_N (by decide)).1 hm; exact ⟨ho, _, (decode_sysSreset ho).trans (decodeN_ok.2 ⟨hz, rfl⟩),
        rfl⟩
  · obtain ⟨ho, hz⟩ := (mask_B (by decide)).1 hm; exact ⟨ho, _, (decode_bpcEmbed ho).trans (decodeB_ok.2 ⟨hz, rfl⟩),
        rfl⟩
  · obtain ⟨ho, hz⟩ := (mask_B (by decide)).1 hm; exact ⟨ho, _, (decode_bpcExtract ho).trans (decodeB_ok.2 ⟨hz, rfl⟩),
        rfl⟩
  · obtain ⟨ho, hz⟩ := (mask_B (by decide)).1 hm; exact ⟨ho, _, (decode_bpcEmbedf ho).trans (decodeB_ok.2 ⟨hz, rfl⟩),
        rfl⟩
  · obtain ⟨ho, hz⟩ := (mask_B (by decide)).1 hm; exact ⟨ho, _,
        (decode_bpcExtractf ho).trans (decodeB_ok.2 ⟨hz, rfl⟩), rfl⟩
  · obtain ⟨ho, hz⟩ := (mask_N (by decide)).1 hm; exact ⟨ho, _, (decode_mleaEnc ho).trans (decodeN_ok.2 ⟨hz, rfl⟩), rfl⟩
  · obtain ⟨ho, hz⟩ := (mask_N (by decide)).1 hm; exact ⟨ho, _, (decode_mleaDec ho).trans (decodeN_ok.2 ⟨hz, rfl⟩), rfl⟩
  · obtain ⟨ho, hz⟩ := (mask_N (by decide)).1 hm; exact ⟨ho, _, (decode_bpeSplit ho).trans (decodeN_ok.2 ⟨hz, rfl⟩),
        rfl⟩
  · obtain ⟨ho, hz⟩ := (mask_P (by decide)).1 hm; exact ⟨ho, _, (decode_bpePerm ho).trans (decodeP_ok.2 ⟨hz, rfl⟩), rfl⟩
  · obtain ⟨ho, hz⟩ := (mask_P (by decide)).1 hm; exact ⟨ho, _, (decode_bpeUnperm ho).trans (decodeP_ok.2 ⟨hz, rfl⟩),
        rfl⟩
  · obtain ⟨ho, hz⟩ := (mask_N (by decide)).1 hm; exact ⟨ho, _, (decode_bpeMerge ho).trans (decodeN_ok.2 ⟨hz, rfl⟩),
        rfl⟩

/-- No two rows share an opcode. -/
theorem opcodeTable_inj : ∀ r ∈ opcodeTable, ∀ r' ∈ opcodeTable, r.pattern.toNat = r'.pattern.toNat → r = r' := by
    decide


/-! ## The words of the formats match their rows -/

theorem encodeN_row {op : Byte} {p : Word} (hp : p.toNat = op.toNat) : encodeN op &&& 0xFFFFFFFF = p := by
  have := op.isLt
  exact (mask_N (by omega)).2 ⟨by rw [opcodeField_encodeN, hp], by rw [toNat_encodeN]; omega⟩

theorem encodeB_row {op : Byte} {p : Word} (b : Nat) (hp : p.toNat = op.toNat) : encodeB op b &&& 0xFFFFF0FF = p := by
  have := op.isLt
  exact (mask_B (by omega)).2 ⟨by rw [opcodeField_encodeB, hp], by rw [toNat_encodeB]; omega⟩

theorem encodeP_row {op : Byte} {p : Word} (p0 p1 p2 p3 : Nat) (hp : p.toNat = op.toNat) :
    encodeP op p0 p1 p2 p3 &&& 0xFF0000FF = p := by
  have := op.isLt
  exact (mask_P (by omega)).2 ⟨by rw [opcodeField_encodeP, hp], by rw [toNat_encodeP]; omega⟩

end Sys2Proof
end

