-- ==== Sys2Proof/Laws/Bits.lean ====
section
/-! SUPPORT. Bits, bytes and groups, position by position: what each bit of `unpack`, `pack`, `writebits` and
`readbits` is (00_scope.md R11; 42_bpc_bitplane_codec.md R163 to R169). -/

namespace Sys2Proof.Machine

/-! ## Lists cut into pieces of one length -/

theorem getElem?_flatMap_const {α β : Type} {f : α → List β} {c : Nat} (hc : 0 < c)
    (hf : ∀ x, (f x).length = c) (l : List α) (m : Nat) :
    (l.flatMap f)[m]? = l[m / c]?.bind fun x => (f x)[m % c]? := by
  induction l generalizing m with
  | nil => simp
  | cons x l ih =>
    rw [List.flatMap_cons, List.getElem?_append, hf x]
    split_ifs with h
    · simp [Nat.div_eq_of_lt h, Nat.mod_eq_of_lt h]
    · obtain ⟨d, rfl⟩ : ∃ d, m = d + c := ⟨m - c, by omega⟩
      rw [Nat.add_sub_cancel, ih, Nat.add_div_right _ hc, Nat.add_mod_right]
      simp

theorem length_flatMap_const {α β : Type} {f : α → List β} {c : Nat}
    (hf : ∀ x, (f x).length = c) (l : List α) : (l.flatMap f).length = l.length * c := by
  induction l with
  | nil => simp
  | cons x l ih => simp [ih, hf x, Nat.succ_mul, Nat.add_comm]

/-! ## Numbers from bits -/

theorem bitsValue_append (bits : List Bool) (b : Bool) :
    bitsValue (bits ++ [b]) = 2 * bitsValue bits + b.toNat := by simp [bitsValue]

theorem bitsValue_lt (bits : List Bool) : bitsValue bits < 2 ^ bits.length := by
  induction bits using List.reverseRecOn with
  | nil => simp [bitsValue]
  | append_singleton l b ih =>
    rw [bitsValue_append, List.length_append, List.length_singleton, pow_succ]
    cases b
    all_goals simp
    all_goals omega

/-- Digit `t` from the left of `n` digits is bit `n - 1 - t` of the value. -/
theorem testBit_bitsValue (bits : List Bool) (t : Nat) (ht : t < bits.length) :
    (bitsValue bits).testBit (bits.length - 1 - t) = bits[t] := by
  induction bits using List.reverseRecOn with
  | nil => simp at ht
  | append_singleton l b ih =>
    rw [bitsValue_append]
    have hl : (l ++ [b]).length = l.length + 1 := by simp
    rw [hl] at ht
    rcases Nat.lt_succ_iff_lt_or_eq.1 ht with h | h
    · have e : (l ++ [b]).length - 1 - t = (l.length - 1 - t) + 1 := by omega
      rw [e, Nat.testBit_succ, List.getElem_append_left h]
      have : (2 * bitsValue l + b.toNat) / 2 = bitsValue l := by
        have := b.toNat_lt
        omega
      rw [this, ih h]
    · subst h
      have e : (l ++ [b]).length - 1 - l.length = 0 := by omega
      rw [e, List.getElem_append_right le_rfl]
      cases b
      all_goals simp [Nat.testBit_zero]

/-- The same with the length named. -/
theorem testBit_bitsValue' {bits : List Bool} {n t : Nat} (hl : bits.length = n) (ht : t < n) :
    (bitsValue bits).testBit (n - 1 - t) = bits.getD t false := by
  subst hl
  rw [testBit_bitsValue bits t ht]
  simp [ht]

/-! ## Bytes and bits -/

@[simp] theorem length_byteBits (v : Byte) : (byteBits v).length = 8 := by simp [byteBits]

theorem getElem?_byteBits (v : Byte) {j : Nat} (hj : j < 8) : (byteBits v)[j]? = some (v.getLsbD (7 - j)) := by
  simp [byteBits, hj]

@[simp] theorem length_unpack (s : List Byte) : (unpack s).length = 8 * s.length := by
  rw [unpack, length_flatMap_const length_byteBits, Nat.mul_comm]

/-- Stream bit `m` is bit `7 - (m mod 8)` of byte `m div 8` (R166). -/
theorem getElem?_unpack (s : List Byte) (m : Nat) :
    (unpack s)[m]? = s[m / 8]?.map fun v => v.getLsbD (7 - m % 8) := by
  rw [unpack, getElem?_flatMap_const (by decide) length_byteBits]
  cases s[m / 8]? with
  | none => rfl
  | some v => exact getElem?_byteBits v (Nat.mod_lt _ (by decide))

@[simp] theorem length_pack (t : List Bool) : (pack t).length = t.length / 8 := by simp [pack]

/-- Bit `7 - u` of packed byte `q` is bit `8q + u` of the sequence (R11). -/
theorem getLsbD_pack (t : List Bool) {q u : Nat} (hq : q < t.length / 8) (hu : u < 8) :
    ∃ v, (pack t)[q]? = some v ∧ v.getLsbD (7 - u) = t.getD (8 * q + u) false := by
  have hlen : ((t.drop (8 * q)).take 8).length = 8 := by
    rw [List.length_take, List.length_drop]; omega
  refine ⟨BitVec.ofNat 8 (bitsValue ((t.drop (8 * q)).take 8)), by simp [pack, hq], ?_⟩
  have hb := testBit_bitsValue' hlen hu
  rw [BitVec.getLsbD_ofNat, show 7 - u = 8 - 1 - u by omega, hb]
  have h1 : 8 - 1 - u < 8 := by omega
  have h2 : 8 * q + u < t.length := by omega
  simp [h1, h2, hu]

theorem unpack_pack (t : List Bool) (h : 8 ∣ t.length) : unpack (pack t) = t := by
  obtain ⟨n, hn⟩ := h
  apply List.ext_getElem?
  intro m
  by_cases hm : m < t.length
  · obtain ⟨v, hv, hb⟩ := getLsbD_pack t (q := m / 8) (u := m % 8) (by omega) (by omega)
    rw [getElem?_unpack, hv, Option.map_some, hb, Nat.div_add_mod]
    simp [hm]
  · rw [List.getElem?_eq_none (by simp; omega), List.getElem?_eq_none (by omega)]

/-- `pack(unpack(s)) = s` (R11). -/
theorem pack_unpack (s : List Byte) : pack (unpack s) = s := by
  apply List.ext_getElem?
  intro q
  by_cases hq : q < s.length
  · have key : ∀ u < 8, ∃ v, (pack (unpack s))[q]? = some v ∧ v.getLsbD (7 - u) = s[q].getLsbD (7 - u) := by
      intro u hu
      obtain ⟨v, hv, hb⟩ := getLsbD_pack (unpack s) (q := q) (u := u) (by simp; omega) hu
      refine ⟨v, hv, hb.trans ?_⟩
      have e1 : (8 * q + u) / 8 = q := by omega
      have e2 : (8 * q + u) % 8 = u := by omega
      rw [List.getD_eq_getElem?_getD, getElem?_unpack, e1, e2]
      simp [hq]
    obtain ⟨v, hv, -⟩ := key 0 (by decide)
    rw [hv, List.getElem?_eq_getElem hq, Option.some_inj]
    apply BitVec.eq_of_getLsbD_eq
    intro i hi
    obtain ⟨v', hv', hb⟩ := key (7 - i) (by omega)
    rw [hv, Option.some_inj] at hv'
    rw [← hv', show 7 - (7 - i) = i by omega] at hb
    exact hb
  · rw [List.getElem?_eq_none (by simp; omega), List.getElem?_eq_none (by omega)]

/-! ## Groups -/

@[simp] theorem length_sampleBits (v : Byte) (b : Nat) : (sampleBits v b).length = b := by simp [sampleBits]

theorem getElem?_sampleBits (v : Byte) {b t : Nat} (ht : t < b) :
    (sampleBits v b)[t]? = some (v.getLsbD (b - 1 - t)) := by
  simp [sampleBits, ht]

@[simp] theorem length_groups (bits : List Bool) (b : Nat) :
    (groups bits b).length = ceilDiv bits.length b := by simp [groups]

/-- Group `k`: below `2^b`, and its bit `b - 1 - t` is stream bit `k*b + t`, 0 past the end (R168). -/
theorem getElem?_groups (bits : List Bool) {b k : Nat} (hb : 0 < b) (hk : k < ceilDiv bits.length b) :
    ∃ g, (groups bits b)[k]? = some g ∧ g < 2 ^ b ∧
      ∀ t < b, g.testBit (b - 1 - t) = bits.getD (k * b + t) false := by
  have hle := le_ceilDiv_mul bits.length hb
  set np := ceilDiv bits.length b with hnp
  set padded := bits ++ List.replicate (np * b - bits.length) false with hpd
  have hplen : padded.length = np * b := by simp [hpd]; omega
  have hkb : (k + 1) * b ≤ np * b := Nat.mul_le_mul_right _ hk
  have hlen : ((padded.drop (k * b)).take b).length = b := by
    rw [List.length_take, List.length_drop, hplen]
    rw [Nat.succ_mul] at hkb
    omega
  refine ⟨bitsValue ((padded.drop (k * b)).take b), ?_, ?_, ?_⟩
  · simp only [groups, ← hnp, ← hpd]
    simp [hk]
  · have := bitsValue_lt ((padded.drop (k * b)).take b)
    rwa [hlen] at this
  · intro t ht
    rw [testBit_bitsValue' hlen ht]
    simp only [hpd, List.getD_eq_getElem?_getD, List.getElem?_take_of_lt ht, List.getElem?_drop,
      List.getElem?_append]
    split_ifs with h
    · rfl
    · rw [List.getElem?_eq_none (by omega : bits.length ≤ k * b + t)]
      simp only [List.getElem?_replicate]
      split_ifs <;> rfl

/-- `put(v, g, b)`: the low `b` bits are the group, the others are kept (R169). -/
theorem getLsbD_putGroup (v : Byte) {g b : Nat} (hb : b ≤ 8) (hg : g < 2 ^ b) (u : Nat) :
    (putGroup v g b).getLsbD u = if u < b then g.testBit u else v.getLsbD u := by
  have hff : (0xFF : Byte) = BitVec.allOnes 8 := by decide
  simp only [putGroup, hff, BitVec.getLsbD_or, BitVec.getLsbD_and, BitVec.getLsbD_xor, BitVec.getLsbD_allOnes,
    BitVec.getLsbD_ofNat, Nat.testBit_two_pow_sub_one]
  by_cases hu : u < 8
  · by_cases hub : u < b
    · simp [hu, hub]
    · have : g.testBit u = false := Nat.testBit_lt_two_pow (hg.trans_le (Nat.pow_le_pow_right (by decide) (by omega)))
      simp [hu, hub, this]
  · have hub : ¬u < b := by omega
    have : v.getLsbD u = false := BitVec.getLsbD_of_ge _ _ (by omega)
    simp [hu, hub, this]

/-! ## Streams in planes -/

section
variable {order : List Nat} {pm : Memory} {b n : Nat}

/-- `readbits(n, b)` has `n` bits when the plane holds them. -/
theorem length_readBits (hb : 0 < b) (hn : n ≤ order.length * b) : (readBits order n b pm).length = n := by
  rw [readBits, List.length_take, length_flatMap_const fun i => length_sampleBits (pm.read i) b, List.length_take,
    min_eq_left ((ceilDiv_le hb).2 hn)]
  exact min_eq_left (le_ceilDiv_mul n hb)

/-- Bit `m` of `readbits(n, b)` is bit `b - 1 - m mod b` of the sample visited at position `m div b` (R163, R168). -/
theorem getElem?_readBits (hb : 0 < b) (hn : n ≤ order.length * b) {m : Nat} (hm : m < n) :
    (readBits order n b pm)[m]? = some ((pm.read (order.getD (m / b) 0)).getLsbD (b - 1 - m % b)) := by
  have hk : m / b < ceilDiv n b := (lt_ceilDiv hb).2 ((Nat.div_mul_le_self m b).trans_lt hm)
  have ho : m / b < order.length := hk.trans_le ((ceilDiv_le hb).2 hn)
  rw [readBits, List.getElem?_take_of_lt hm,
    getElem?_flatMap_const hb (fun i => length_sampleBits (pm.read i) b), List.getElem?_take_of_lt hk,
    List.getElem?_eq_getElem ho, Option.bind_some, getElem?_sampleBits _ (Nat.mod_lt _ hb)]
  simp [ho]

/-- `readbits(n1, b)` is the first `n1` bits of `readbits(n2, b)` (R163). -/
theorem readBits_take {n' : Nat} (hb : 0 < b) (h : n ≤ n') (hn : n' ≤ order.length * b) :
    readBits order n b pm = (readBits order n' b pm).take n := by
  apply List.ext_getElem?
  intro m
  by_cases hm : m < n
  · rw [getElem?_readBits hb (h.trans hn) hm, List.getElem?_take_of_lt hm, getElem?_readBits hb hn (hm.trans_le h)]
  · rw [List.getElem?_eq_none (by rw [length_readBits hb (h.trans hn)]; omega),
      List.getElem?_eq_none (by rw [List.length_take]; omega)]

variable {bits : List Bool}

theorem map_fst_writeBits :
    (List.zipWith (fun i g => (i, putGroup (pm.read i) g b)) order (groups bits b)).map Prod.fst
      = order.take (ceilDiv bits.length b) := by
  rw [List.map_zipWith]
  apply List.ext_getElem?
  intro k
  rw [List.getElem?_zipWith, List.getElem?_take]
  by_cases hk : k < ceilDiv bits.length b
  · have : k < (groups bits b).length := by simpa using hk
    rw [if_pos hk, List.getElem?_eq_getElem this]
    cases order[k]? <;> rfl
  · have : (groups bits b).length ≤ k := by simpa using hk
    rw [if_neg hk, List.getElem?_eq_none this]
    cases order[k]? <;> rfl

/-- A sample not among the first `ceil(n/b)` of the order is unchanged (R167, R175). -/
theorem read_writeBits_other {j : Nat} (h : j ∉ order.take (ceilDiv bits.length b)) :
    (writeBits order bits b pm).read j = pm.read j :=
  Memory.read_writeAll_of_notMem (by rwa [map_fst_writeBits])

/-- Pixel number `k` holds group `k` (R163). -/
theorem read_writeBits (hn : order.Nodup) {k i g : Nat} (ho : order[k]? = some i)
    (hg : (groups bits b)[k]? = some g) :
    (writeBits order bits b pm).read i = putGroup (pm.read i) g b := by
  refine Memory.read_writeAll_of_mem ?_ (List.mem_of_getElem? (i := k) ?_)
  · rw [map_fst_writeBits]; exact hn.sublist (List.take_sublist _ _)
  · rw [List.getElem?_zipWith, ho, hg]

/-- Bit by bit (R168, R169): the low `b` bits of pixel number `k` are stream bits `k*b ..`, 0 past the end; the others
are kept. -/
theorem getLsbD_writeBits (hn : order.Nodup) (hb : 0 < b) (hb8 : b ≤ 8) {k i : Nat} (ho : order[k]? = some i)
    (hk : k < ceilDiv bits.length b) (u : Nat) :
    ((writeBits order bits b pm).read i).getLsbD u =
      if u < b then bits.getD (k * b + (b - 1 - u)) false else (pm.read i).getLsbD u := by
  obtain ⟨g, hg, hlt, hbit⟩ := getElem?_groups bits hb hk
  rw [read_writeBits hn ho hg, getLsbD_putGroup _ hb8 hlt]
  split_ifs with hu
  · rw [← hbit (b - 1 - u) (by omega), show b - 1 - (b - 1 - u) = u by omega]
  · rfl

/-- `readbits` after `writebits` returns what was written (R163). -/
theorem readBits_writeBits (hn : order.Nodup) (hb : 0 < b) (hb8 : b ≤ 8) (hc : bits.length ≤ order.length * b) :
    readBits order bits.length b (writeBits order bits b pm) = bits := by
  apply List.ext_getElem?
  intro m
  by_cases hm : m < bits.length
  · have hk : m / b < ceilDiv bits.length b := (lt_ceilDiv hb).2 ((Nat.div_mul_le_self m b).trans_lt hm)
    have ho : m / b < order.length := hk.trans_le ((ceilDiv_le hb).2 hc)
    have hmod := Nat.mod_lt m hb
    rw [getElem?_readBits hb hc hm, List.getD_eq_getElem _ _ ho,
      getLsbD_writeBits hn hb hb8 (List.getElem?_eq_getElem ho) hk, if_pos (by omega),
      show b - 1 - (b - 1 - m % b) = m % b by omega, Nat.div_add_mod']
    simp [hm]
  · rw [List.getElem?_eq_none (by rw [length_readBits hb hc]; omega), List.getElem?_eq_none (by omega)]

theorem wf_writeBits {size : Nat} (h : pm.wf size) (ho : ∀ i ∈ order, i < size) :
    (writeBits order bits b pm).wf size :=
  Memory.wf_writeAll h fun w hw => by
    have : w.1 ∈ order.take (ceilDiv bits.length b) := by
      rw [← map_fst_writeBits (pm := pm)]; exact List.mem_map_of_mem hw
    exact ho _ (List.mem_of_mem_take this)

end

/-! ## The length header -/

theorem ube32_append (s : List Byte) (v : Byte) : ube32 (s ++ [v]) = ube32 s * 2 ^ 8 + v.toNat := by simp [ube32]

theorem ube32_lt (s : List Byte) : ube32 s < 2 ^ (8 * s.length) := by
  induction s using List.reverseRecOn with
  | nil => simp [ube32]
  | append_singleton l v ih =>
    have := v.isLt
    rw [ube32_append, List.length_append, List.length_singleton, Nat.mul_succ, pow_add]
    omega

@[simp] theorem length_be32 (n : Word) : (be32 n).length = 4 := rfl

/-- `UBE32(BE32(n)) = n`. -/
theorem ube32_be32 (n : Word) : ube32 (be32 n) = n.toNat := by
  have := n.isLt
  simp only [ube32, be32, List.foldl_cons, List.foldl_nil, BitVec.extractLsb'_toNat, Nat.shiftRight_eq_div_pow]
  omega

end Sys2Proof.Machine
end

