-- ==== Sys2Proof/Laws/Regions.lean ====
section
/-! SUPPORT. Quadrant geometry: the four regions cover the plane, each element once, and what `bpe.split` and
`bpe.merge` move (40_bpe_block_permutation.md R120, R121, R124). -/

namespace Sys2Proof.Machine

/-! ## Grids -/

theorem flat_inj {w a b c d : Nat} (hb : b < w) (hd : d < w) (h : a * w + b = c * w + d) : a = c ∧ b = d := by
  have h1 := congrArg (· / w) h
  have h2 := congrArg (· % w) h
  have hw : 0 < w := by omega
  simp only [Nat.mul_comm _ w, Nat.mul_add_div hw, Nat.div_eq_of_lt hb, Nat.div_eq_of_lt hd, Nat.add_zero,
    Nat.mul_add_mod, Nat.mod_eq_of_lt hb, Nat.mod_eq_of_lt hd] at h1 h2
  exact ⟨h1, h2⟩

theorem flat_lt {a b r c : Nat} (hr : r < a) (hc : c < b) : r * b + c < a * b := by
  have : (r + 1) * b ≤ a * b := Nat.mul_le_mul_right _ hr
  rw [Nat.succ_mul] at this
  omega

theorem nodup_grid {α : Type} {a b : Nat} {f : Nat → Nat → α}
    (hf : ∀ r < a, ∀ c < b, ∀ r' < a, ∀ c' < b, f r c = f r' c' → r = r' ∧ c = c') :
    ((List.range a).flatMap fun r => (List.range b).map (f r)).Nodup := by
  refine List.nodup_flatMap.2 ⟨fun r hr => ?_, ?_⟩
  · refine List.Nodup.map_on (fun c hc c' hc' h => ?_) List.nodup_range
    exact (hf r (List.mem_range.1 hr) c (List.mem_range.1 hc) r (List.mem_range.1 hr) c' (List.mem_range.1 hc') h).2
  · refine List.Pairwise.imp_of_mem ?_ List.pairwise_lt_range
    intro r r' hr hr' hlt x hx hx'
    obtain ⟨c, hc, rfl⟩ := List.mem_map.1 hx
    obtain ⟨c', hc', h⟩ := List.mem_map.1 hx'
    have := (hf r (List.mem_range.1 hr) c (List.mem_range.1 hc) r' (List.mem_range.1 hr') c' (List.mem_range.1 hc')
      h.symm).1
    omega

/-! ## One region -/

theorem mem_cells {g : Region} {w : Nat} {x : Nat × Nat} :
    x ∈ g.cells w ↔ ∃ r < g.rows, ∃ c < g.cols, x = (r * g.cols + c, (g.r0 + r) * w + g.c0 + c) := by
  simp only [Region.cells, List.mem_flatMap, List.mem_map, List.mem_range]
  constructor
  · rintro ⟨r, hr, c, hc, rfl⟩; exact ⟨r, hr, c, hc, rfl⟩
  · rintro ⟨r, hr, c, hc, rfl⟩; exact ⟨r, hr, c, hc, rfl⟩

theorem nodup_cells_quad (g : Region) (w : Nat) : ((g.cells w).map Prod.fst).Nodup := by
  simp only [Region.cells, List.map_flatMap, List.map_map]
  exact nodup_grid fun r _ c hc r' _ c' hc' h => flat_inj hc hc' h

theorem nodup_cells_plane {g : Region} {w : Nat} (hg : g.c0 + g.cols ≤ w) : ((g.cells w).map Prod.snd).Nodup := by
  simp only [Region.cells, List.map_flatMap, List.map_map]
  refine nodup_grid fun r _ c hc r' _ c' hc' h => ?_
  have h' : (g.r0 + r) * w + (g.c0 + c) = (g.r0 + r') * w + (g.c0 + c') := by
    simpa [Nat.add_assoc] using h
  have := flat_inj (by omega) (by omega) h'
  omega

/-! ## The four regions -/

section
variable {h w h2 w2 : Nat}

theorem region_cols_le (hw : w2 ≤ w) (k : Fin 4) : (region h w h2 w2 k).c0 + (region h w h2 w2 k).cols ≤ w := by
  match k with
  | 0 | 1 | 2 | 3 => simp only [region]; omega

theorem region_rows_le (hh : h2 ≤ h) (k : Fin 4) : (region h w h2 w2 k).r0 + (region h w h2 w2 k).rows ≤ h := by
  match k with
  | 0 | 1 | 2 | 3 => simp only [region]; omega

theorem region_lt (hh : h2 ≤ h) (hw : w2 ≤ w) {k : Fin 4} {r c : Nat} (hr : r < (region h w h2 w2 k).rows)
    (hc : c < (region h w h2 w2 k).cols) :
    ((region h w h2 w2 k).r0 + r) * w + (region h w h2 w2 k).c0 + c < h * w := by
  have h1 := region_cols_le (h := h) (h2 := h2) hw k
  have h3 := region_rows_le (w := w) (w2 := w2) hh k
  rw [Nat.add_assoc]
  exact flat_lt (by omega) (by omega)

theorem region_size_le (hh : h2 ≤ h) (hw : w2 ≤ w) (k : Fin 4) :
    (region h w h2 w2 k).rows * (region h w h2 w2 k).cols ≤ h * w :=
  Nat.mul_le_mul (by have := region_rows_le (w := w) (w2 := w2) hh k; omega)
    (by have := region_cols_le (h := h) (h2 := h2) hw k; omega)

/-- Two regions share no element. -/
theorem region_disjoint {k k' : Fin 4} {r c r' c' : Nat}
    (hw : w2 ≤ w) (hr : r < (region h w h2 w2 k).rows) (hc : c < (region h w h2 w2 k).cols)
    (hr' : r' < (region h w h2 w2 k').rows) (hc' : c' < (region h w h2 w2 k').cols)
    (he : ((region h w h2 w2 k).r0 + r) * w + (region h w h2 w2 k).c0 + c
        = ((region h w h2 w2 k').r0 + r') * w + (region h w h2 w2 k').c0 + c') :
    k = k' ∧ r = r' ∧ c = c' := by
  have h1 := region_cols_le (h := h) (h2 := h2) hw k
  have h3 := region_cols_le (h := h) (h2 := h2) hw k'
  rw [Nat.add_assoc, Nat.add_assoc] at he
  obtain ⟨ha, hb⟩ := flat_inj (by omega) (by omega) he
  match k, k' with
  | 0, 0 | 1, 1 | 2, 2 | 3, 3 => simp only [region] at *; exact ⟨trivial, by omega, by omega⟩
  | 0, 1 | 0, 2 | 0, 3 | 1, 0 | 1, 2 | 1, 3 | 2, 0 | 2, 1 | 2, 3 | 3, 0 | 3, 1 | 3, 2 =>
    simp only [region] at *; omega

/-- Every element of the plane lies in a region. -/
theorem exists_region (hh : h2 ≤ h) (hw : w2 ≤ w) {p : Nat} (hp : p < h * w) :
    ∃ k : Fin 4, ∃ r < (region h w h2 w2 k).rows, ∃ c < (region h w h2 w2 k).cols,
      p = ((region h w h2 w2 k).r0 + r) * w + (region h w h2 w2 k).c0 + c := by
  have hw0 : 0 < w := by
    rcases Nat.eq_zero_or_pos w with rfl | h
    · simp at hp
    · exact h
  have hr : p / w < h := (Nat.div_lt_iff_lt_mul hw0).2 hp
  have hc := Nat.mod_lt p hw0
  have hd := Nat.div_add_mod' p w
  by_cases h1 : p / w < h2 <;> by_cases h3 : p % w < w2
  · exact ⟨0, p / w, h1, p % w, h3, by simp [region, hd]⟩
  · refine ⟨1, p / w, h1, p % w - w2, by simp only [region]; omega, ?_⟩
    simp only [region, Nat.zero_add]; omega
  · refine ⟨2, p / w - h2, by simp only [region]; omega, p % w, h3, ?_⟩
    simp only [region, Nat.add_sub_cancel' (not_lt.1 h1)]; omega
  · refine ⟨3, p / w - h2, by simp only [region]; omega, p % w - w2, by simp only [region]; omega, ?_⟩
    simp only [region, Nat.add_sub_cancel' (not_lt.1 h1)]; omega

/-- The plane indices of the four regions, in order of region. -/
theorem nodup_regions (hw : w2 ≤ w) :
    (positions.flatMap fun k => ((region h w h2 w2 k).cells w).map Prod.snd).Nodup := by
  refine List.nodup_flatMap.2 ⟨fun k _ => nodup_cells_plane (region_cols_le hw k), ?_⟩
  refine List.Pairwise.imp (R := fun a b : Fin 4 => a ≠ b) ?_ (by decide)
  intro k k' hk p hp hp'
  obtain ⟨x, hx, rfl⟩ := List.mem_map.1 hp
  obtain ⟨y, hy, he⟩ := List.mem_map.1 hp'
  obtain ⟨r, hr, c, hc, rfl⟩ := mem_cells.1 hx
  obtain ⟨r', hr', c', hc', rfl⟩ := mem_cells.1 hy
  exact hk (region_disjoint hw hr hc hr' hc' he.symm).1

theorem mem_positions (k : Fin 4) : k ∈ positions := by revert k; decide

/-- The four regions cover the plane, each element once (R120). -/
theorem regions_perm_range (hh : h2 ≤ h) (hw : w2 ≤ w) :
    (positions.flatMap fun k => ((region h w h2 w2 k).cells w).map Prod.snd).Perm (List.range (h * w)) := by
  refine (List.perm_ext_iff_of_nodup (nodup_regions hw) List.nodup_range).2 fun p => ?_
  simp only [List.mem_flatMap, List.mem_map, List.mem_range]
  constructor
  · rintro ⟨k, -, x, hx, rfl⟩
    obtain ⟨r, hr, c, hc, rfl⟩ := mem_cells.1 hx
    exact region_lt hh hw hr hc
  · intro hp
    obtain ⟨k, r, hr, c, hc, rfl⟩ := exists_region hh hw hp
    exact ⟨k, mem_positions k, _, mem_cells.2 ⟨r, hr, c, hc, rfl⟩, rfl⟩

end

/-! ## Split and merge -/

theorem read_splitQuadrant (s : State) (k : Fin 4) {r c : Nat} (hr : r < (s.splitRegion k).rows)
    (hc : c < (s.splitRegion k).cols) :
    (splitQuadrant s k).data.read (r * (s.splitRegion k).cols + c)
      = s.pm.read (((s.splitRegion k).r0 + r) * s.width + (s.splitRegion k).c0 + c) := by
  refine Memory.read_writeAll_of_mem ?_ (List.mem_map.2 ⟨_, mem_cells.2 ⟨r, hr, c, hc, rfl⟩, rfl⟩)
  rw [List.map_map]
  exact nodup_cells_quad _ _

theorem read_splitQuadrant_beyond (s : State) (k : Fin 4) {j : Nat}
    (hj : (s.splitRegion k).rows * (s.splitRegion k).cols ≤ j) :
    (splitQuadrant s k).data.read j = s.qb[k].data.read j := by
  refine Memory.read_writeAll_of_notMem ?_
  rw [List.map_map]
  intro hm
  obtain ⟨x, hx, rfl⟩ := List.mem_map.1 hm
  obtain ⟨r, hr, c, hc, rfl⟩ := mem_cells.1 hx
  exact absurd (flat_lt hr hc) (not_lt.2 hj)

theorem map_fst_mergeWrites (s : State) :
    (mergeWrites s).map Prod.fst
      = positions.flatMap fun k => ((s.mergeRegion k).cells s.width).map Prod.snd := by
  simp only [mergeWrites, List.map_flatMap, List.map_map]
  rfl

theorem read_merge (s : State) (hw : s.splitpt.cols.toNat ≤ s.width) (k : Fin 4) {r c : Nat}
    (hr : r < (s.mergeRegion k).rows) (hc : c < (s.mergeRegion k).cols) :
    (s.pm.writeAll (mergeWrites s)).read (((s.mergeRegion k).r0 + r) * s.width + (s.mergeRegion k).c0 + c)
      = s.qb[k].data.read (r * (s.mergeRegion k).cols + c) := by
  refine Memory.read_writeAll_of_mem ?_ ?_
  · rw [map_fst_mergeWrites]; exact nodup_regions hw
  · exact List.mem_flatMap.2 ⟨k, mem_positions k,
      List.mem_map.2 ⟨_, mem_cells.2 ⟨r, hr, c, hc, rfl⟩, rfl⟩⟩

theorem read_merge_beyond (s : State) (hh : s.splitpt.rows.toNat ≤ s.height) (hw : s.splitpt.cols.toNat ≤ s.width)
    {j : Nat} (hj : s.count ≤ j) : (s.pm.writeAll (mergeWrites s)).read j = s.pm.read j := by
  refine Memory.read_writeAll_of_notMem ?_
  rw [map_fst_mergeWrites]
  intro hm
  have := (regions_perm_range hh hw).mem_iff.1 hm
  rw [List.mem_range] at this
  exact absurd this (not_lt.2 hj)

end Sys2Proof.Machine
end

