-- ==== Sys2Proof/Laws/State.lean ====
section
/-! SUPPORT. One lemma per field of State per shared update, each true by rfl, so that no proof unfolds an update. -/

namespace Sys2Proof.Machine

/-! ## errorEntry -/

section
variable (c : Cause) (w : Word) (s : State)

@[simp] theorem errorEntry_cfg : (errorEntry c w s).cfg = s.cfg := rfl
@[simp] theorem errorEntry_err : (errorEntry c w s).err = true := rfl
@[simp] theorem errorEntry_qv : (errorEntry c w s).qv = s.qv := rfl
@[simp] theorem errorEntry_errCode : (errorEntry c w s).errCode = c.code := rfl
@[simp] theorem errorEntry_errSub : (errorEntry c w s).errSub = c.sub := rfl
@[simp] theorem errorEntry_errReqL : (errorEntry c w s).errReqL = BitVec.ofNat 32 (c.req % 2 ^ 32) := rfl
@[simp] theorem errorEntry_errReqH : (errorEntry c w s).errReqH = BitVec.ofNat 32 (c.req / 2 ^ 32) := rfl
@[simp] theorem errorEntry_errAvail : (errorEntry c w s).errAvail = BitVec.ofNat 32 c.avail := rfl
@[simp] theorem errorEntry_errCmd : (errorEntry c w s).errCmd = w := rfl
@[simp] theorem errorEntry_dims : (errorEntry c w s).dims = s.dims := rfl
@[simp] theorem errorEntry_dblen : (errorEntry c w s).dblen = s.dblen := rfl
@[simp] theorem errorEntry_numbits : (errorEntry c w s).numbits = s.numbits := rfl
@[simp] theorem errorEntry_kdlen : (errorEntry c w s).kdlen = s.kdlen := rfl
@[simp] theorem errorEntry_vok : (errorEntry c w s).vok = s.vok := rfl
@[simp] theorem errorEntry_splitpt : (errorEntry c w s).splitpt = s.splitpt := rfl
@[simp] theorem errorEntry_hdrlen : (errorEntry c w s).hdrlen = s.hdrlen := rfl
@[simp] theorem errorEntry_kd : (errorEntry c w s).kd = s.kd := rfl
@[simp] theorem errorEntry_pm : (errorEntry c w s).pm = s.pm := rfl
@[simp] theorem errorEntry_db : (errorEntry c w s).db = s.db := rfl
@[simp] theorem errorEntry_qb : (errorEntry c w s).qb = s.qb := rfl
@[simp] theorem errorEntry_pending : (errorEntry c w s).pending = s.pending := rfl
@[simp] theorem errorEntry_cp : (errorEntry c w s).cp = s.cp := rfl
@[simp] theorem errorEntry_results : (errorEntry c w s).results = s.results := rfl
@[simp] theorem errorEntry_resets : (errorEntry c w s).resets = s.resets := rfl

end

/-! ## clearError -/

section
variable (s : State)

@[simp] theorem clearError_cfg : (clearError s).cfg = s.cfg := rfl
@[simp] theorem clearError_err : (clearError s).err = false := rfl
@[simp] theorem clearError_qv : (clearError s).qv = s.qv := rfl
@[simp] theorem clearError_errCode : (clearError s).errCode = 0 := rfl
@[simp] theorem clearError_errSub : (clearError s).errSub = 0 := rfl
@[simp] theorem clearError_errReqL : (clearError s).errReqL = 0 := rfl
@[simp] theorem clearError_errReqH : (clearError s).errReqH = 0 := rfl
@[simp] theorem clearError_errAvail : (clearError s).errAvail = 0 := rfl
@[simp] theorem clearError_errCmd : (clearError s).errCmd = 0 := rfl
@[simp] theorem clearError_dims : (clearError s).dims = s.dims := rfl
@[simp] theorem clearError_dblen : (clearError s).dblen = s.dblen := rfl
@[simp] theorem clearError_numbits : (clearError s).numbits = s.numbits := rfl
@[simp] theorem clearError_kdlen : (clearError s).kdlen = s.kdlen := rfl
@[simp] theorem clearError_vok : (clearError s).vok = s.vok := rfl
@[simp] theorem clearError_splitpt : (clearError s).splitpt = s.splitpt := rfl
@[simp] theorem clearError_hdrlen : (clearError s).hdrlen = s.hdrlen := rfl
@[simp] theorem clearError_kd : (clearError s).kd = s.kd := rfl
@[simp] theorem clearError_pm : (clearError s).pm = s.pm := rfl
@[simp] theorem clearError_db : (clearError s).db = s.db := rfl
@[simp] theorem clearError_qb : (clearError s).qb = s.qb := rfl
@[simp] theorem clearError_pending : (clearError s).pending = s.pending := rfl
@[simp] theorem clearError_cp : (clearError s).cp = s.cp := rfl
@[simp] theorem clearError_results : (clearError s).results = s.results := rfl
@[simp] theorem clearError_resets : (clearError s).resets = s.resets := rfl

end

/-! ## softReset -/

section
variable (s : State)

@[simp] theorem softReset_cfg : (softReset s).cfg = s.cfg := rfl
@[simp] theorem softReset_err : (softReset s).err = false := rfl
@[simp] theorem softReset_qv : (softReset s).qv = false := rfl
@[simp] theorem softReset_errCode : (softReset s).errCode = 0 := rfl
@[simp] theorem softReset_errSub : (softReset s).errSub = 0 := rfl
@[simp] theorem softReset_errReqL : (softReset s).errReqL = 0 := rfl
@[simp] theorem softReset_errReqH : (softReset s).errReqH = 0 := rfl
@[simp] theorem softReset_errAvail : (softReset s).errAvail = 0 := rfl
@[simp] theorem softReset_errCmd : (softReset s).errCmd = 0 := rfl
@[simp] theorem softReset_dims : (softReset s).dims = Shape.zero := rfl
@[simp] theorem softReset_dblen : (softReset s).dblen = 0 := rfl
@[simp] theorem softReset_numbits : (softReset s).numbits = 0 := rfl
@[simp] theorem softReset_kdlen : (softReset s).kdlen = 0 := rfl
@[simp] theorem softReset_vok : (softReset s).vok = 0 := rfl
@[simp] theorem softReset_splitpt : (softReset s).splitpt = Shape.zero := rfl
@[simp] theorem softReset_hdrlen : (softReset s).hdrlen = 0 := rfl
@[simp] theorem softReset_kd : (softReset s).kd = Vector.replicate 64 0 := rfl
@[simp] theorem softReset_pm : (softReset s).pm = s.pm := rfl
@[simp] theorem softReset_db : (softReset s).db = s.db := rfl
theorem softReset_qb (k : Fin 4) : (softReset s).qb[k] = ⟨Shape.zero, s.qb[k].data⟩ := by
  match k with
  | 0 | 1 | 2 | 3 => rfl
@[simp] theorem softReset_pending : (softReset s).pending = s.pending := rfl
@[simp] theorem softReset_cp : (softReset s).cp = s.cp := rfl
@[simp] theorem softReset_results : (softReset s).results = s.results := rfl
@[simp] theorem softReset_resets : (softReset s).resets = s.resets := rfl

end

/-! ## hardReset -/

section
variable (s : State)

@[simp] theorem hardReset_cfg : (hardReset s).cfg = s.cfg := rfl
@[simp] theorem hardReset_err : (hardReset s).err = false := rfl
@[simp] theorem hardReset_qv : (hardReset s).qv = false := rfl
@[simp] theorem hardReset_errCode : (hardReset s).errCode = 0 := rfl
@[simp] theorem hardReset_errSub : (hardReset s).errSub = 0 := rfl
@[simp] theorem hardReset_errReqL : (hardReset s).errReqL = 0 := rfl
@[simp] theorem hardReset_errReqH : (hardReset s).errReqH = 0 := rfl
@[simp] theorem hardReset_errAvail : (hardReset s).errAvail = 0 := rfl
@[simp] theorem hardReset_errCmd : (hardReset s).errCmd = 0 := rfl
@[simp] theorem hardReset_dims : (hardReset s).dims = Shape.zero := rfl
@[simp] theorem hardReset_dblen : (hardReset s).dblen = 0 := rfl
@[simp] theorem hardReset_numbits : (hardReset s).numbits = 0 := rfl
@[simp] theorem hardReset_kdlen : (hardReset s).kdlen = 0 := rfl
@[simp] theorem hardReset_vok : (hardReset s).vok = 0 := rfl
@[simp] theorem hardReset_splitpt : (hardReset s).splitpt = Shape.zero := rfl
@[simp] theorem hardReset_hdrlen : (hardReset s).hdrlen = 0 := rfl
@[simp] theorem hardReset_kd : (hardReset s).kd = Vector.replicate 64 0 := rfl
@[simp] theorem hardReset_pm : (hardReset s).pm = Memory.afterReset (s.resets + 1) .pm := rfl
@[simp] theorem hardReset_db : (hardReset s).db = Memory.afterReset (s.resets + 1) .db := rfl
@[simp] theorem hardReset_qb : (hardReset s).qb = (State.powerOn s.cfg (s.resets + 1)).qb := rfl
@[simp] theorem hardReset_pending : (hardReset s).pending = s.pending := rfl
@[simp] theorem hardReset_cp : (hardReset s).cp = s.cp := rfl
@[simp] theorem hardReset_results : (hardReset s).results = s.results := rfl
@[simp] theorem hardReset_resets : (hardReset s).resets = s.resets + 1 := rfl

end

/-! ## State.answer -/

section
variable (s : State) (rest : List HostEvent) (r : Response)

@[simp] theorem State.answer_cfg : (s.answer rest r).cfg = s.cfg := rfl
@[simp] theorem State.answer_err : (s.answer rest r).err = s.err := rfl
@[simp] theorem State.answer_qv : (s.answer rest r).qv = s.qv := rfl
@[simp] theorem State.answer_errCode : (s.answer rest r).errCode = s.errCode := rfl
@[simp] theorem State.answer_errSub : (s.answer rest r).errSub = s.errSub := rfl
@[simp] theorem State.answer_errReqL : (s.answer rest r).errReqL = s.errReqL := rfl
@[simp] theorem State.answer_errReqH : (s.answer rest r).errReqH = s.errReqH := rfl
@[simp] theorem State.answer_errAvail : (s.answer rest r).errAvail = s.errAvail := rfl
@[simp] theorem State.answer_errCmd : (s.answer rest r).errCmd = s.errCmd := rfl
@[simp] theorem State.answer_dims : (s.answer rest r).dims = s.dims := rfl
@[simp] theorem State.answer_dblen : (s.answer rest r).dblen = s.dblen := rfl
@[simp] theorem State.answer_numbits : (s.answer rest r).numbits = s.numbits := rfl
@[simp] theorem State.answer_kdlen : (s.answer rest r).kdlen = s.kdlen := rfl
@[simp] theorem State.answer_vok : (s.answer rest r).vok = s.vok := rfl
@[simp] theorem State.answer_splitpt : (s.answer rest r).splitpt = s.splitpt := rfl
@[simp] theorem State.answer_hdrlen : (s.answer rest r).hdrlen = s.hdrlen := rfl
@[simp] theorem State.answer_kd : (s.answer rest r).kd = s.kd := rfl
@[simp] theorem State.answer_pm : (s.answer rest r).pm = s.pm := rfl
@[simp] theorem State.answer_db : (s.answer rest r).db = s.db := rfl
@[simp] theorem State.answer_qb : (s.answer rest r).qb = s.qb := rfl
@[simp] theorem State.answer_pending : (s.answer rest r).pending = rest := rfl
@[simp] theorem State.answer_cp : (s.answer rest r).cp = s.cp + 1 := rfl
@[simp] theorem State.answer_results : (s.answer rest r).results = r :: s.results := rfl
@[simp] theorem State.answer_resets : (s.answer rest r).resets = s.resets := rfl

end

/-! ## Derived operands look only at their own registers -/

theorem State.height_congr {s t : State} (h : t.dims = s.dims) : t.height = s.height := by
  simp [State.height, h]

theorem State.width_congr {s t : State} (h : t.dims = s.dims) : t.width = s.width := by
  simp [State.width, h]

theorem State.count_congr {s t : State} (h : t.dims = s.dims) : t.count = s.count := by
  simp [State.count, State.height_congr h, State.width_congr h]

theorem State.order_congr {s t : State} (hc : t.cfg = s.cfg) (h : t.dims = s.dims) : t.order = s.order := by
  simp [State.order, State.count_congr h, hc]

end Sys2Proof.Machine
end

