-- ==== Sys2Proof/Laws/Command.lean ====
section
/-! SUPPORT. What a command can do, once per command: the effect each command has once the gate is open, every way its
checks can end, and `exec` in terms of it (60_exceptions.md R215 to R218). -/

namespace Sys2Proof.Machine

/-- The checks and writes of a command, the gate aside. -/
def effectOf (i : Instr) (s : State) : Effect :=
  match i with
  | .sysNop => .ok s
  | .sysClrerr => .ok (clearError s)
  | .sysSreset => .ok (softReset s)
  | .bpcEmbed b => embedEffect b s.dblen.toNat (rawPayload s) s
  | .bpcExtract b => extractEffect b s
  | .bpcEmbedf b => embedEffect b (s.dblen.toNat + 4) (framedPayload s) s
  | .bpcExtractf b => extractfEffect b s
  | .mleaEnc => cipherEffect (fun i x => scramble x ^^^ s.keystream i) s
  | .mleaDec => cipherEffect (fun i y => unscramble (y ^^^ s.keystream i)) s
  | .bpeSplit => splitEffect s
  | .bpePerm p0 p1 p2 p3 => reorderEffect p0 p1 p2 p3 (permuteQuadrants s.qb p0 p1 p2 p3) s
  | .bpeUnperm p0 p1 p2 p3 => reorderEffect p0 p1 p2 p3 (unpermuteQuadrants s.qb p0 p1 p2 p3) s
  | .bpeMerge => mergeEffect s

/-! ## The gate -/

theorem runCommand_of_err {i : Instr} {s : State} {e : Effect} (h : s.err = true) : runCommand i s e = s := by
  simp [runCommand, h]

theorem runCommand_ok {i : Instr} {s t : State} {e : Effect} (h : s.err = false) (he : e = .ok t) :
    runCommand i s e = t := by
  simp [runCommand, h, he]

theorem runCommand_error {i : Instr} {s : State} {e : Effect} {c : Cause} (h : s.err = false) (he : e = .error c) :
    runCommand i s e = errorEntry c (encode i) s := by
  simp [runCommand, h, he]

/-- With no error recorded, a command completes with its effect ... -/
theorem exec_of_ok {i : Instr} {s t : State} (h : s.err = false) (he : effectOf i s = .ok t) : exec i s = .next t := by
  cases i
  case sysNop | sysClrerr | sysSreset => simpa [effectOf, exec, execSysNop, execSysClrerr, execSysSreset] using he
  all_goals exact congrArg Host.Outcome.next (runCommand_ok h he)

/-- ... or records the error of its first failing check. -/
theorem exec_of_error {i : Instr} {s : State} {c : Cause} (h : s.err = false) (he : effectOf i s = .error c) :
    exec i s = .next (errorEntry c (encode i) s) := by
  cases i
  case sysNop | sysClrerr | sysSreset => simp [effectOf] at he
  all_goals exact congrArg Host.Outcome.next (runCommand_error h he)

/-- With an error recorded, every command but two is ignored (R218). -/
theorem exec_of_err {i : Instr} {s : State} (h : s.err = true) (h1 : i ≠ .sysClrerr) (h2 : i ≠ .sysSreset) :
    exec i s = .next s := by
  cases i
  case sysNop => rfl
  case sysClrerr => exact absurd rfl h1
  case sysSreset => exact absurd rfl h2
  all_goals exact congrArg Host.Outcome.next (runCommand_of_err h)

@[simp] theorem exec_sysNop (s : State) : exec .sysNop s = .next s := rfl
@[simp] theorem exec_sysClrerr (s : State) : exec .sysClrerr s = .next (clearError s) := rfl
@[simp] theorem exec_sysSreset (s : State) : exec .sysSreset s = .next (softReset s) := rfl

/-- Everything `exec` can do. -/
theorem exec_cases {i : Instr} {s t : State} (h : exec i s = .next t) :
    (s.err = true ∧ i ≠ .sysClrerr ∧ i ≠ .sysSreset ∧ t = s) ∨
    (s.err = true ∧ i = .sysClrerr ∧ t = clearError s) ∨
    (s.err = true ∧ i = .sysSreset ∧ t = softReset s) ∨
    (s.err = false ∧ effectOf i s = .ok t) ∨
    (s.err = false ∧ ∃ c, effectOf i s = .error c ∧ t = errorEntry c (encode i) s) := by
  cases he : s.err
  · cases hf : effectOf i s with
    | ok u =>
      rw [exec_of_ok he hf, Host.Outcome.next.injEq] at h
      exact .inr (.inr (.inr (.inl ⟨rfl, by rw [h]⟩)))
    | error c =>
      rw [exec_of_error he hf, Host.Outcome.next.injEq] at h
      exact .inr (.inr (.inr (.inr ⟨rfl, c, rfl, h.symm⟩)))
  · by_cases h1 : i = .sysClrerr
    · subst h1; exact .inr (.inl ⟨rfl, rfl, by simpa using h.symm⟩)
    · by_cases h2 : i = .sysSreset
      · subst h2; exact .inr (.inr (.inl ⟨rfl, rfl, by simpa using h.symm⟩))
      · rw [exec_of_err he h1 h2, Host.Outcome.next.injEq] at h
        exact .inl ⟨rfl, h1, h2, h.symm⟩

/-- A command always answers a next state. -/
theorem exec_total (i : Instr) (s : State) : ∃ t, exec i s = .next t := by
  cases i <;> exact ⟨_, rfl⟩

/-! ## What no command touches -/

/-- No command writes the host's side, the configuration, or a draw of PM or DB. -/
theorem effectOf_host {i : Instr} {s t : State} (h : effectOf i s = .ok t) :
    t.pending = s.pending ∧ t.cp = s.cp ∧ t.results = s.results ∧ t.cfg = s.cfg ∧ t.resets = s.resets ∧
    t.pm.draw = s.pm.draw ∧ t.db.draw = s.db.draw := by
  cases i <;>
    simp only [effectOf, embedEffect, extractEffect, extractfEffect, cipherEffect, splitEffect, reorderEffect,
      mergeEffect] at h
  all_goals
    first
    | (simp only [Except.ok.injEq] at h; subst h; exact ⟨rfl, rfl, rfl, rfl, rfl, rfl, rfl⟩)
    | (split_ifs at h; simp only [Except.ok.injEq] at h; subst h
       simp [writeBits, Memory.load])

theorem exec_host {i : Instr} {s t : State} (h : exec i s = .next t) :
    t.pending = s.pending ∧ t.cp = s.cp ∧ t.results = s.results ∧ t.cfg = s.cfg ∧ t.resets = s.resets ∧
    t.pm.draw = s.pm.draw ∧ t.db.draw = s.db.draw := by
  rcases exec_cases h with ⟨-, -, -, rfl⟩ | ⟨-, -, rfl⟩ | ⟨-, -, rfl⟩ | ⟨-, he⟩ | ⟨-, c, -, rfl⟩
  · exact ⟨rfl, rfl, rfl, rfl, rfl, rfl, rfl⟩
  · exact ⟨rfl, rfl, rfl, rfl, rfl, rfl, rfl⟩
  · exact ⟨rfl, rfl, rfl, rfl, rfl, rfl, rfl⟩
  · exact effectOf_host he
  · exact ⟨rfl, rfl, rfl, rfl, rfl, rfl, rfl⟩

/-! ## The checks of each unit -/

theorem bppLegal_iff {b : Nat} : bppLegal b = true ↔ 1 ≤ b ∧ b ≤ 4 := by simp [bppLegal]

theorem bppLegal_eq_false {b : Nat} : bppLegal b = false ↔ ¬(1 ≤ b ∧ b ≤ 4) := by
  rw [← bppLegal_iff, Bool.not_eq_true]

/-- `permvalid` says that the list is a rearrangement of 0, 1, 2, 3 (R95, R125). -/
theorem permValid_iff {p0 p1 p2 p3 : Nat} : permValid p0 p1 p2 p3 = true ↔ [p0,p1,p2,p3].Perm [0,1,2,3] := by
  rw [permValid, Bool.and_eq_true, decide_eq_true_eq, List.all_eq_true]
  constructor
  · rintro ⟨h, hn⟩
    refine (List.perm_ext_iff_of_nodup hn (by decide)).2 fun a => ⟨fun ha => ?_, fun ha => ?_⟩
    · have := of_decide_eq_true (h a ha)
      interval_cases a <;> simp
    · have hs : [p0,p1,p2,p3] ⊆ [0,1,2,3] := fun a ha => by
        have := of_decide_eq_true (h a ha)
        interval_cases a <;> simp
      exact ((hn.subperm hs).perm_of_length_le (by simp)).symm.subset ha
  · intro h
    exact ⟨fun a ha => by have := h.subset ha; simp at this; simp; omega, h.nodup_iff.2 (by decide)⟩

theorem kdlenLegal_eq_false {s : State} : s.kdlenLegal = false ↔ s.kdlen.toNat = 0 ∨ 64 < s.kdlen.toNat := by
  simp only [State.kdlenLegal, Bool.and_eq_false_iff, decide_eq_false_iff_not]
  omega

/-- Every way an embed command's checks can end. -/
theorem embedEffect_cases (b len : Nat) (payload : List Byte) (s : State) :
    (¬(1 ≤ b ∧ b ≤ 4) ∧ embedEffect b len payload s = .error .bppRange) ∨
    ((1 ≤ b ∧ b ≤ 4) ∧ s.cfg.pmMax < s.count ∧ embedEffect b len payload s = .error .dimsTooLarge) ∨
    ((1 ≤ b ∧ b ≤ 4) ∧ s.count ≤ s.cfg.pmMax ∧ s.cfg.dbMax < s.dblen.toNat ∧
      embedEffect b len payload s = .error .dblenTooLarge) ∨
    ((1 ≤ b ∧ b ≤ 4) ∧ s.count ≤ s.cfg.pmMax ∧ s.dblen.toNat ≤ s.cfg.dbMax ∧ s.capacity b < 8 * len ∧
      embedEffect b len payload s = .error (.payloadTooLong (8 * len) (s.capacity b))) ∨
    ((1 ≤ b ∧ b ≤ 4) ∧ s.count ≤ s.cfg.pmMax ∧ s.dblen.toNat ≤ s.cfg.dbMax ∧ 8 * len ≤ s.capacity b ∧
      embedEffect b len payload s = .ok { s with pm := writeBits s.order (unpack payload) b s.pm }) := by
  unfold embedEffect
  simp only [bppLegal_eq_false]
  split_ifs <;> simp_all

theorem extractEffect_cases (b : Nat) (s : State) :
    (¬(1 ≤ b ∧ b ≤ 4) ∧ extractEffect b s = .error .bppRange) ∨
    ((1 ≤ b ∧ b ≤ 4) ∧ s.cfg.pmMax < s.count ∧ extractEffect b s = .error .dimsTooLarge) ∨
    ((1 ≤ b ∧ b ≤ 4) ∧ s.count ≤ s.cfg.pmMax ∧ s.capacity b < s.numbits.toNat ∧
      extractEffect b s = .error (.extractTooLong s.numbits.toNat (s.capacity b))) ∨
    ((1 ≤ b ∧ b ≤ 4) ∧ s.count ≤ s.cfg.pmMax ∧ s.numbits.toNat ≤ s.capacity b ∧
      extractEffect b s = .ok { s with
        db := s.db.load (pack (readBits s.order s.numbits.toNat b s.pm
          ++ List.replicate (8 * ceilDiv s.numbits.toNat 8 - s.numbits.toNat) false))
        dblen := BitVec.ofNat 32 (ceilDiv s.numbits.toNat 8) }) := by
  unfold extractEffect
  simp only [bppLegal_eq_false]
  split_ifs <;> simp_all

theorem extractfEffect_cases (b : Nat) (s : State) :
    (¬(1 ≤ b ∧ b ≤ 4) ∧ extractfEffect b s = .error .bppRange) ∨
    ((1 ≤ b ∧ b ≤ 4) ∧ s.cfg.pmMax < s.count ∧ extractfEffect b s = .error .dimsTooLarge) ∨
    ((1 ≤ b ∧ b ≤ 4) ∧ s.count ≤ s.cfg.pmMax ∧ s.capacity b < 32 ∧
      extractfEffect b s = .error (.noRoomForHeader 32 (s.capacity b))) ∨
    ((1 ≤ b ∧ b ≤ 4) ∧ s.count ≤ s.cfg.pmMax ∧ 32 ≤ s.capacity b ∧ s.capacity b < 32 + 8 * headerLength b s ∧
      extractfEffect b s = .error (.headerTooLarge (32 + 8 * headerLength b s) (s.capacity b))) ∨
    ((1 ≤ b ∧ b ≤ 4) ∧ s.count ≤ s.cfg.pmMax ∧ 32 + 8 * headerLength b s ≤ s.capacity b ∧
      extractfEffect b s = .ok { s with
        db := s.db.load (pack ((readBits s.order (32 + 8 * headerLength b s) b s.pm).drop 32))
        dblen := BitVec.ofNat 32 (headerLength b s)
        hdrlen := BitVec.ofNat 32 (headerLength b s) }) := by
  unfold extractfEffect
  simp only [bppLegal_eq_false]
  split_ifs <;> simp_all

theorem cipherEffect_cases (f : Nat → Byte → Byte) (s : State) :
    (s.cfg.dbMax < s.dblen.toNat ∧ cipherEffect f s = .error .dblenTooLarge) ∨
    (s.dblen.toNat ≤ s.cfg.dbMax ∧ (s.kdlen.toNat = 0 ∨ 64 < s.kdlen.toNat) ∧
      cipherEffect f s = .error .kdlenRange) ∨
    (s.dblen.toNat ≤ s.cfg.dbMax ∧ ¬(s.kdlen.toNat = 0 ∨ 64 < s.kdlen.toNat) ∧
      cipherEffect f s = .ok { s with
        db := s.db.writeAll ((List.range s.dblen.toNat).map fun i => (i, f i (s.db.read i))) }) := by
  unfold cipherEffect
  simp only [kdlenLegal_eq_false]
  split_ifs <;> simp_all

theorem splitEffect_cases (s : State) :
    (s.cfg.pmMax < s.count ∧ splitEffect s = .error .dimsTooLarge) ∨
    (s.count ≤ s.cfg.pmMax ∧ splitEffect s = .ok { s with
      qb := #v[splitQuadrant s 0, splitQuadrant s 1, splitQuadrant s 2, splitQuadrant s 3]
      splitpt := Shape.ofNats (s.height / 2) (s.width / 2)
      qv := true }) := by
  unfold splitEffect
  split_ifs <;> simp_all

theorem reorderEffect_cases (p0 p1 p2 p3 : Nat) (qb' : Vector Quadrant 4) (s : State) :
    (permValid p0 p1 p2 p3 = false ∧ reorderEffect p0 p1 p2 p3 qb' s = .error .permInvalid) ∨
    (permValid p0 p1 p2 p3 = true ∧ s.qv = false ∧ reorderEffect p0 p1 p2 p3 qb' s = .error .noSplit) ∨
    (permValid p0 p1 p2 p3 = true ∧ s.qv = true ∧ reorderEffect p0 p1 p2 p3 qb' s = .ok { s with qb := qb' }) := by
  unfold reorderEffect
  split_ifs <;> simp_all

/-- SPLITPT lies in the plane and every quadrant has the shape of its position (R124). -/
def State.mergeFits (s : State) : Prop :=
  (s.splitpt.rows.toNat ≤ s.height ∧ s.splitpt.cols.toNat ≤ s.width) ∧ ∀ k : Fin 4,
    s.qb[k].shape.rows.toNat = (s.mergeRegion k).rows ∧ s.qb[k].shape.cols.toNat = (s.mergeRegion k).cols

theorem all_fitsPosition {s : State} : positions.all (fitsPosition s) = true ↔ ∀ k : Fin 4,
    s.qb[k].shape.rows.toNat = (s.mergeRegion k).rows ∧ s.qb[k].shape.cols.toNat = (s.mergeRegion k).cols := by
  simp only [List.all_eq_true, fitsPosition, Bool.and_eq_true, decide_eq_true_eq]
  exact ⟨fun h k => h k (mem_positions k), fun h k _ => h k⟩

theorem mergeEffect_cases (s : State) :
    (s.cfg.pmMax < s.count ∧ mergeEffect s = .error .dimsTooLarge) ∨
    (s.count ≤ s.cfg.pmMax ∧ s.qv = false ∧ mergeEffect s = .error .noSplit) ∨
    (s.count ≤ s.cfg.pmMax ∧ s.qv = true ∧ ¬s.mergeFits ∧ mergeEffect s = .error .shapeMismatch) ∨
    (s.count ≤ s.cfg.pmMax ∧ s.qv = true ∧ s.mergeFits ∧
      mergeEffect s = .ok { s with pm := s.pm.writeAll (mergeWrites s) }) := by
  unfold mergeEffect State.mergeFits
  rw [← all_fitsPosition]
  split_ifs with h1 h2 h3 h4
  · exact .inl ⟨h1, rfl⟩
  · exact .inr (.inl ⟨not_lt.1 h1, h2, rfl⟩)
  · exact .inr (.inr (.inl ⟨not_lt.1 h1, by simpa using h2, fun h => by omega, rfl⟩))
  · exact .inr (.inr (.inl ⟨not_lt.1 h1, by simpa using h2, fun h => by simp [h.2] at h4, rfl⟩))
  · exact .inr (.inr (.inr ⟨not_lt.1 h1, by simpa using h2, ⟨by omega, by simpa using h4⟩, rfl⟩))

/-! ## The header -/

theorem headerLength_lt (s : State) (b : Nat) : headerLength b s < 2 ^ 32 := by
  have hlen : (pack (readBits s.order 32 b s.pm)).length ≤ 4 := by
    rw [length_pack, readBits, List.length_take]; omega
  exact (ube32_lt _).trans_le (Nat.pow_le_pow_right (by decide) (by omega))

/-! ## Every failing check -/

/-- The codes are those of R211. -/
theorem Cause.code_bounds (c : Cause) : 1 ≤ c.code.toNat ∧ c.code.toNat ≤ 5 := by
  cases c <;> simp [Cause.code]

/-- The figures of the cause are within the bounds of R29 and R214. -/
def Cause.bounded (c : Cause) : Prop := c.req ≤ 2 ^ 35 + 24 ∧ c.avail ≤ 2 ^ 26

theorem Cause.bounded_of_zero {c : Cause} (h : c.req = 0) (h' : c.avail = 0) : c.bounded := by
  rw [Cause.bounded, h, h']; decide

theorem State.capacity_le {s : State} {b : Nat} (hb : b ≤ 4) (hN : s.count ≤ s.cfg.pmMax) :
    s.capacity b ≤ 2 ^ 26 :=
  calc s.count * b ≤ 2 ^ 24 * 4 := Nat.mul_le_mul (hN.trans s.cfg.bounds.2.1) hb
    _ = 2 ^ 26 := by norm_num

theorem embedEffect_error {b len : Nat} {payload : List Byte} {s : State} {c : Cause} (hlen : len ≤ s.dblen.toNat + 4)
    (h : embedEffect b len payload s = .error c) : c.bounded := by
  have hdb := s.cfg.bounds.2.2.2.1
  rcases embedEffect_cases b len payload s with ⟨-, e⟩ | ⟨-, -, e⟩ | ⟨-, -, -, e⟩ | ⟨⟨-, hb⟩, hN, hL, -, e⟩ |
    ⟨-, -, -, -, e⟩ <;> rw [e] at h <;> cases h <;> try exact Cause.bounded_of_zero rfl rfl
  have := State.capacity_le hb hN
  exact ⟨show 8 * len ≤ _ by omega, this⟩

theorem extractEffect_error {b : Nat} {s : State} {c : Cause} (h : extractEffect b s = .error c) : c.bounded := by
  have hnb := s.numbits.isLt
  rcases extractEffect_cases b s with ⟨-, e⟩ | ⟨-, -, e⟩ | ⟨⟨-, hb⟩, hN, -, e⟩ | ⟨-, -, -, e⟩ <;>
    rw [e] at h <;> cases h <;> try exact Cause.bounded_of_zero rfl rfl
  exact ⟨show s.numbits.toNat ≤ _ by omega, State.capacity_le hb hN⟩

theorem extractfEffect_error {b : Nat} {s : State} {c : Cause} (h : extractfEffect b s = .error c) : c.bounded := by
  have hhl := headerLength_lt s b
  rcases extractfEffect_cases b s with ⟨-, e⟩ | ⟨-, -, e⟩ | ⟨⟨-, hb⟩, hN, -, e⟩ | ⟨⟨-, hb⟩, hN, -, -, e⟩ |
    ⟨-, -, -, e⟩ <;> rw [e] at h <;> cases h <;> try exact Cause.bounded_of_zero rfl rfl
  · exact ⟨show (32 : Nat) ≤ _ by norm_num, State.capacity_le hb hN⟩
  · exact ⟨show 32 + 8 * headerLength b s ≤ _ by omega, State.capacity_le hb hN⟩

/-- The figures of every error a command can report are within the bounds of R29 and R214. -/
theorem effectOf_error {i : Instr} {s : State} {c : Cause} (h : effectOf i s = .error c) : c.bounded := by
  cases i <;> simp only [effectOf] at h
  case sysNop | sysClrerr | sysSreset => cases h
  case bpcEmbed | bpcEmbedf => exact embedEffect_error (by omega) h
  case bpcExtract => exact extractEffect_error h
  case bpcExtractf => exact extractfEffect_error h
  case mleaEnc | mleaDec =>
    rcases cipherEffect_cases _ s with ⟨-, e⟩ | ⟨-, -, e⟩ | ⟨-, -, e⟩ <;> rw [e] at h <;> cases h <;>
      exact Cause.bounded_of_zero rfl rfl
  case bpePerm | bpeUnperm =>
    rcases reorderEffect_cases _ _ _ _ _ s with ⟨-, e⟩ | ⟨-, -, e⟩ | ⟨-, -, e⟩ <;> rw [e] at h <;> cases h <;>
      exact Cause.bounded_of_zero rfl rfl
  case bpeSplit =>
    rcases splitEffect_cases s with ⟨-, e⟩ | ⟨-, e⟩ <;> rw [e] at h <;> cases h
    exact Cause.bounded_of_zero rfl rfl
  case bpeMerge =>
    rcases mergeEffect_cases s with ⟨-, e⟩ | ⟨-, -, e⟩ | ⟨-, -, -, e⟩ | ⟨-, -, -, e⟩ <;> rw [e] at h <;>
      cases h <;> exact Cause.bounded_of_zero rfl rfl

end Sys2Proof.Machine
end

