-- ==== Sys2Proof/Laws/Step.lean ====
section
/-! SUPPORT. What a step can do: one lemma per kind of event, and the inversion of a step. -/

namespace Sys2Proof.Machine

@[simp] theorem step_idle {s : State} (h : s.pending = []) : step s = .next s := by simp [step, h]

theorem step_hardReset {s : State} {rest : List HostEvent} (h : s.pending = .hardReset :: rest) :
    step s = .next (hardReset { s with pending := rest }) := by simp [step, h]

theorem step_read {s : State} {off : Word} {n : Nat} {rest : List HostEvent}
    (h : s.pending = .access (.read off n) :: rest) : step s = .next (s.answer rest (busRead s off.toNat n)) := by
  simp [step, h, performAccess]

theorem isCommandPort_eq_false {off : Word} {n : Nat} (h : ¬(off = 0x04 ∧ n = 4)) :
    isCommandPort off.toNat n = false := by
  simp only [isCommandPort, Bool.and_eq_false_iff, decide_eq_false_iff_not]
  by_contra hc
  push Not at hc
  exact h ⟨BitVec.eq_of_toNat_eq hc.1, hc.2⟩

theorem step_write {s : State} {off : Word} {n : Nat} {v : BitVec (8 * n)} {rest : List HostEvent}
    (h : s.pending = .access (.write off n v) :: rest) (hp : ¬(off = 0x04 ∧ n = 4)) :
    step s = match busWrite s off.toNat n (v.setWidth 32) with
      | some t => .next (t.answer rest .ok)
      | none => .next (s.answer rest .busError) := by
  cases hb : busWrite s off.toNat n (v.setWidth 32) <;>
    simp [step, h, performAccess, isCommandPort_eq_false hp, hb]

/-- A `CMD` write executes its word (10_state.md R23). -/
theorem step_cmdWrite {s : State} {w : Word} {rest : List HostEvent} (h : s.pending = cmdWrite w :: rest) :
    step s = executeWord w (s.answer rest .ok) := by
  simp [step, h, cmdWrite, performAccess, isCommandPort]

theorem executeWord_ok {w : Word} {i : Instr} (s : State) (h : decode w = .ok i) : executeWord w s = exec i s := by
  simp [executeWord, h]

theorem executeWord_error {w : Word} {d : DecodeError} (s : State) (h : decode w = .error d) :
    executeWord w s = .next (illegalCommand d w s) := by
  simp [executeWord, h]

/-- The error entry in the terms of the statements. -/
theorem errorEntry_eq_failed (c : Cause) (w : Word) (s : State) :
    errorEntry c w s = s.failed c.code c.sub c.req c.avail w := rfl

/-- A word that is no command, written with the gate open, records IllegalCommand (R98). -/
theorem step_illegal {s : State} {w : Word} {rest : List HostEvent} (he : s.err = false)
    (hp : s.pending = cmdWrite w :: rest) {d : DecodeError} (hd : decode w = .error d) :
    step s = .next ((s.answer rest .ok).failed 4 (if opcodeField w ∈ knownOpcodes then 2 else 1) 0 0 w) := by
  rw [step_cmdWrite hp, executeWord_error _ hd, illegalCommand, if_neg (by simp [he])]
  by_cases h : opcodeField w ∈ knownOpcodes
  · rw [if_pos h, decode_known_error h hd]; rfl
  · rw [decode_unknown h] at hd
    rw [if_neg h]
    cases hd; rfl

/-! ## Errors -/

/-- A command that completes leaves no error recorded. -/
theorem effectOf_err {i : Instr} {s t : State} (hs : s.err = false) (h : effectOf i s = .ok t) : t.err = false := by
  cases i <;>
    simp only [effectOf, embedEffect, extractEffect, extractfEffect, cipherEffect, splitEffect, reorderEffect,
      mergeEffect] at h
  all_goals
    first
    | (simp only [Except.ok.injEq] at h; subst h; first | exact hs | rfl)
    | (split_ifs at h; simp only [Except.ok.injEq] at h; subst h; exact hs)

/-- A command that records an error took the error entry and nothing else (R216). -/
theorem exec_failed {i : Instr} {s t : State} (hs : s.err = false) (h : exec i s = .next t) (ht : t.err = true) :
    ∃ c, effectOf i s = .error c ∧ t = errorEntry c (encode i) s := by
  rcases exec_cases h with ⟨h', -⟩ | ⟨h', -⟩ | ⟨h', -⟩ | ⟨-, he⟩ | ⟨-, h'⟩
  · simp [hs] at h'
  · simp [hs] at h'
  · simp [hs] at h'
  · simp [effectOf_err hs he] at ht
  · exact h'

theorem errorConsistent_false {s : State} (h : s.err = false) : s.errorConsistent ↔ s.errorClear := by
  simp [State.errorConsistent, h]

/-- Clearing an error that is not there changes nothing (R201). -/
theorem clearError_of_clear {s : State} (he : s.err = false) (h : s.errorClear) : clearError s = s := by
  obtain ⟨h1, h2, h3, h4, h5, h6⟩ := h
  cases s
  simp_all [clearError]

/-! ## Steps -/

/-- Whatever stands first in the host's list, the step is one of these. -/
theorem pending_cases (s : State) :
    s.pending = [] ∨ (∃ rest, s.pending = .hardReset :: rest) ∨
    (∃ off n rest, s.pending = .access (.read off n) :: rest) ∨
    (∃ w rest, s.pending = cmdWrite w :: rest) ∨
    (∃ (off : Word) (n : Nat) (v : BitVec (8 * n)) (rest : List HostEvent),
      s.pending = .access (.write off n v) :: rest ∧ ¬(off = 0x04 ∧ n = 4)) := by
  rcases hp : s.pending with _ | ⟨e, rest⟩
  · exact .inl rfl
  · rcases e with a | -
    · rcases a with ⟨off, n⟩ | ⟨off, n, v⟩
      · exact .inr (.inr (.inl ⟨off, n, rest, rfl⟩))
      · by_cases h : off = 0x04 ∧ n = 4
        · obtain ⟨rfl, rfl⟩ := h
          exact .inr (.inr (.inr (.inl ⟨v, rest, rfl⟩)))
        · exact .inr (.inr (.inr (.inr ⟨off, n, v, rest, rfl, h⟩)))
    · exact .inr (.inl ⟨rest, rfl⟩)

/-- Everything a step can do. -/
theorem step_cases {s t : State} (h : step s = .next t) :
    (s.pending = [] ∧ t = s) ∨
    (∃ rest, s.pending = .hardReset :: rest ∧ t = hardReset { s with pending := rest }) ∨
    (∃ off n rest, s.pending = .access (.read off n) :: rest ∧ t = s.answer rest (busRead s off.toNat n)) ∨
    (∃ w rest i, s.pending = cmdWrite w :: rest ∧ decode w = .ok i ∧ exec i (s.answer rest .ok) = .next t) ∨
    (∃ w rest d, s.pending = cmdWrite w :: rest ∧ decode w = .error d ∧
      t = illegalCommand d w (s.answer rest .ok)) ∨
    (∃ (off : Word) (n : Nat) (v : BitVec (8 * n)) (rest : List HostEvent) (u : State),
      s.pending = .access (.write off n v) :: rest ∧ ¬(off = 0x04 ∧ n = 4) ∧
      busWrite s off.toNat n (v.setWidth 32) = some u ∧ t = u.answer rest .ok) ∨
    (∃ (off : Word) (n : Nat) (v : BitVec (8 * n)) (rest : List HostEvent),
      s.pending = .access (.write off n v) :: rest ∧ ¬(off = 0x04 ∧ n = 4) ∧
      busWrite s off.toNat n (v.setWidth 32) = none ∧ t = s.answer rest .busError) := by
  rcases pending_cases s with hp | ⟨rest, hp⟩ | ⟨off, n, rest, hp⟩ | ⟨w, rest, hp⟩ | ⟨off, n, v, rest, hp, hc⟩
  · rw [step_idle hp, Host.Outcome.next.injEq] at h
    exact .inl ⟨hp, h.symm⟩
  · rw [step_hardReset hp, Host.Outcome.next.injEq] at h
    exact .inr (.inl ⟨rest, hp, h.symm⟩)
  · rw [step_read hp, Host.Outcome.next.injEq] at h
    exact .inr (.inr (.inl ⟨off, n, rest, hp, h.symm⟩))
  · rw [step_cmdWrite hp] at h
    cases hd : decode w with
    | ok i =>
      rw [executeWord_ok _ hd] at h
      exact .inr (.inr (.inr (.inl ⟨w, rest, i, hp, hd, h⟩)))
    | error d =>
      rw [executeWord_error _ hd, Host.Outcome.next.injEq] at h
      exact .inr (.inr (.inr (.inr (.inl ⟨w, rest, d, hp, hd, h.symm⟩))))
  · rw [step_write hp hc] at h
    cases hw : busWrite s off.toNat n (v.setWidth 32) with
    | some u =>
      rw [hw] at h
      exact .inr (.inr (.inr (.inr (.inr (.inl ⟨off, n, v, rest, u, hp, hc, hw, (Host.Outcome.next.inj h).symm⟩)))))
    | none =>
      rw [hw] at h
      exact .inr (.inr (.inr (.inr (.inr (.inr ⟨off, n, v, rest, hp, hc, hw, (Host.Outcome.next.inj h).symm⟩)))))

/-! ## Bus writes -/

/-- Everything an accepted bus write can do: `CMD` stores nothing, an operand register, or one byte of KD, DB or PM
that exists. -/
theorem busWrite_cases {s t : State} {off n : Nat} {v : Word} (h : busWrite s off n v = some t) :
    t = s ∨ (∃ d, t = { s with dims := d }) ∨ (∃ l, t = { s with dblen := l }) ∨ (∃ l, t = { s with numbits := l }) ∨
    (∃ l, t = { s with kdlen := l }) ∨ (∃ l, t = { s with vok := l }) ∨
    (∃ i b, i < 64 ∧ t = { s with kd := kdWrite s.kd i b }) ∨
    (∃ i b, i < s.cfg.dbMax ∧ t = { s with db := s.db.write i b }) ∨
    (∃ i b, i < s.cfg.pmMax ∧ t = { s with pm := s.pm.write i b }) := by
  obtain ⟨x, hx, hw⟩ := Option.bind_eq_some_iff.1 h
  rcases x with r | i | i | i | i | ⟨k, i⟩
  · cases r <;> simp only [writeTarget, writeReg, Option.some.injEq, reduceCtorEq] at hw <;> subst hw
    · exact .inl rfl
    · exact .inr (.inl ⟨_, rfl⟩)
    · exact .inr (.inr (.inl ⟨_, rfl⟩))
    · exact .inr (.inr (.inr (.inl ⟨_, rfl⟩)))
    · exact .inr (.inr (.inr (.inr (.inl ⟨_, rfl⟩))))
    · exact .inr (.inr (.inr (.inr (.inr (.inl ⟨_, rfl⟩)))))
  all_goals
    have hl := locate_inRange hx
    simp only [writeTarget, Option.some.injEq, reduceCtorEq] at hw
  · exact .inr (.inr (.inr (.inr (.inr (.inr (.inl ⟨i, _, hl, hw.symm⟩))))))
  · exact .inr (.inr (.inr (.inr (.inr (.inr (.inr (.inl ⟨i, _, hl, hw.symm⟩)))))))
  · exact .inr (.inr (.inr (.inr (.inr (.inr (.inr (.inr ⟨i, _, hl, hw.symm⟩)))))))

end Sys2Proof.Machine
end

