-- ==== Sys2Proof/Laws/Access.lean ====
section
/-! SUPPORT. Bus accesses in the terms of the statements: `readsAs`, `writesAs`, `notAccepted` as equations about
`busRead` and `busWrite` (20_memory.md R60 to R67). -/

namespace Sys2Proof.Machine

/-! ## The bus functions -/

theorem busRead_none {s : State} {off n : Nat} (h : locate s.cfg off n = none) : busRead s off n = .busError := by
  simp [busRead, h]

theorem busWrite_none {s : State} {off n : Nat} {v : Word} (h : locate s.cfg off n = none) :
    busWrite s off n v = none := by
  simp [busWrite, h]

theorem busRead_none_iff {s : State} {off n : Nat} : busRead s off n = .busError ↔ locate s.cfg off n = none := by
  refine ⟨fun h => ?_, busRead_none⟩
  cases hx : locate s.cfg off n with
  | none => rfl
  | some x =>
    rw [busRead, hx] at h
    rcases x with r | i | i | i | i | ⟨k, i⟩ <;> cases h

theorem busRead_congr {s t : State} {off n : Nat} (hc : t.cfg = s.cfg) 
    (h : ∀ x, locate s.cfg off n = some x → readTarget t x = readTarget s x) :
    busRead t off n = busRead s off n := by
  simp only [busRead, hc]
  cases hx : locate s.cfg off n with
  | none => rfl
  | some x => simp only [h x hx]

theorem busWrite_pending {s : State} {p} {off n : Nat} {v : Word} :
    busWrite { s with pending := p } off n v = (busWrite s off n v).map fun t => { t with pending := p } := by
  simp only [busWrite]
  cases locate s.cfg off n with
  | none => rfl
  | some x =>
    rcases x with x | x | x | x | x | ⟨x, i⟩ <;> try rfl
    cases x <;> rfl

theorem busWrite_err {s : State} {e : Bool} {off n : Nat} {v : Word} :
    busWrite { s with err := e } off n v = (busWrite s off n v).map fun t => { t with err := e } := by
  simp only [busWrite]
  cases locate s.cfg off n with
  | none => rfl
  | some x =>
    rcases x with x | x | x | x | x | ⟨x, i⟩ <;> try rfl
    cases x <;> rfl

/-- An accepted write touches neither the host's side nor the configuration nor a draw. -/
theorem busWrite_host {s t : State} {off n v} (h : busWrite s off n v = some t) :
    t.pending = s.pending ∧ t.cp = s.cp ∧ t.results = s.results ∧ t.cfg = s.cfg ∧ t.resets = s.resets ∧
    t.pm.draw = s.pm.draw ∧ t.db.draw = s.db.draw := by
  rcases busWrite_cases h with h | ⟨d, h⟩ | ⟨d, h⟩ | ⟨d, h⟩ | ⟨d, h⟩ | ⟨d, h⟩ |
    ⟨d, _, _, h⟩ | ⟨d, _, _, h⟩ | ⟨d, _, _, h⟩ <;> subst h <;> simp

theorem writeReg_idem {s t : State} {r : Reg} {v : Word} (h : writeReg s v r = some t) : writeReg t v r = some t := by
  cases r <;> simp only [writeReg, Option.some.injEq, reduceCtorEq] at h <;> subst h <;> rfl

theorem busWrite_idem {s t : State} {off n : Nat} {v : Word} (h : busWrite s off n v = some t) :
    busWrite t off n v = some t := by
  have hcfg : t.cfg = s.cfg := (busWrite_host h).2.2.2.1
  obtain ⟨x, hx, hw⟩ := Option.bind_eq_some_iff.1 h
  rw [busWrite, hcfg, hx]
  show writeTarget t v x = some t
  rcases x with r | i | i | i | i | ⟨k, i⟩
  · exact writeReg_idem hw
  all_goals simp only [writeTarget, Option.some.injEq, reduceCtorEq] at hw
  all_goals subst hw
  · simp only [writeTarget, kdWrite_kdWrite]
  · simp only [writeTarget, Memory.write_write]
  · simp only [writeTarget, Memory.write_write]

/-! ## The statements' terms -/

theorem readsAs_of {s : State} {off : Word} {n : Nat} {r : Response}
    (h : busRead s off.toNat n = r) : readsAs s off n r := by
  intro rest
  rw [step_read rfl]
  subst h; rfl

theorem readsAs_iff {s : State} {off : Word} {n : Nat} {r : Response} :
    readsAs s off n r ↔ busRead s off.toNat n = r := by
  refine ⟨fun h => ?_, readsAs_of⟩
  have := h []
  rw [step_read rfl, Host.Outcome.next.injEq] at this
  have := congrArg State.results this
  exact (List.cons.inj this).1

theorem notAccepted_read_iff {s : State} {off : Word} {n : Nat} :
    notAccepted s (.read off n) ↔ busRead s off.toNat n = .busError := readsAs_iff

theorem writesAs_of {s t : State} {off : Word} {n : Nat} {v : BitVec (8 * n)} (hc : ¬(off = 0x04 ∧ n = 4))
    (h : busWrite s off.toNat n (v.setWidth 32) = some t) : writesAs s off n v t := by
  intro rest
  rw [step_write rfl hc, busWrite_pending, h]
  rfl

theorem notAccepted_write_of {s : State} {off : Word} {n : Nat} {v : BitVec (8 * n)} (hc : ¬(off = 0x04 ∧ n = 4))
    (h : busWrite s off.toNat n (v.setWidth 32) = none) : notAccepted s (.write off n v) := by
  intro rest
  rw [step_write rfl hc, busWrite_pending, h]
  rfl

theorem writesAs_iff {s t : State} {off : Word} {n : Nat} {v : BitVec (8 * n)} (hc : ¬(off = 0x04 ∧ n = 4)) :
    writesAs s off n v t ↔ ∃ p, busWrite s off.toNat n (v.setWidth 32) = some { t with pending := p } := by
  constructor
  · intro h
    have := h []
    rw [step_write rfl hc, busWrite_pending] at this
    cases hb : busWrite s off.toNat n (v.setWidth 32) with
    | none =>
      rw [hb] at this
      have := congrArg State.results (Host.Outcome.next.inj this)
      cases (List.cons.inj this).1
    | some u =>
      rw [hb] at this
      have := Host.Outcome.next.inj this
      refine ⟨u.pending, ?_⟩
      cases u; cases t
      simp only [State.answer, State.mk.injEq] at this
      simp_all
  · rintro ⟨p, h⟩ rest
    rw [step_write rfl hc, busWrite_pending, h]
    rfl

theorem notAccepted_write_iff {s : State} {off : Word} {n : Nat} {v : BitVec (8 * n)} (hc : ¬(off = 0x04 ∧ n = 4)) :
    notAccepted s (.write off n v) ↔ busWrite s off.toNat n (v.setWidth 32) = none := by
  refine ⟨fun h => ?_, notAccepted_write_of hc⟩
  have := h []
  rw [step_write rfl hc, busWrite_pending] at this
  cases hb : busWrite s off.toNat n (v.setWidth 32) with
  | none => rfl
  | some u =>
    rw [hb] at this
    have := congrArg State.results (Host.Outcome.next.inj this)
    cases (List.cons.inj this).1

/-! ## Windows -/

theorem windowAt_eq_none {c : Config} {off : Nat} (h1 : ¬(0x100 ≤ off ∧ off < 0x140))
    (h2 : ¬(0x200 ≤ off ∧ off < 0x200 + c.tileLen))
    (h3 : ¬(0x00800000 ≤ off ∧ off < 0x00800000 + c.dbMax))
    (h4 : ∀ k < 5, ¬(0x01000000 + k * 0x01000000 ≤ off ∧ off < 0x01000000 + k * 0x01000000 + c.pmMax)) :
    windowAt c off = none := by
  cases h : windowAt c off with
  | none => rfl
  | some x =>
    obtain ⟨hx, rfl, hr⟩ := windowAt_some h
    rcases x with r | i | i | i | i | ⟨k, i⟩
    · exact absurd rfl (hr r)
    all_goals simp only [Target.inRange, Target.offset] at *
    · omega
    · omega
    · omega
    · have := h4 0 (by decide); omega
    · have := h4 (k.val + 1) (by omega); omega

theorem locate_one_iff {c : Config} {off : Nat} {x : Target} :
    locate c off 1 = some x ↔ x.inRange c ∧ x.offset = off ∧ ∀ r, x ≠ .reg r := by
  refine ⟨windowAt_some, ?_⟩
  rintro ⟨h, rfl, hr⟩
  exact windowAt_offset h hr

theorem toNat_offset {c : Config} {x : Target} (h : x.inRange c) (hr : ∀ r, x ≠ .reg r) :
    (BitVec.ofNat 32 x.offset).toNat = x.offset := by
  have hb := c.bounds
  have : c.tileLen = c.pat.length := rfl
  rw [BitVec.toNat_ofNat, Nat.mod_eq_of_lt]
  rcases x with r | i | i | i | i | ⟨k, i⟩ <;> simp only [Target.inRange, Target.offset] at * <;> try omega

theorem locate_window {c : Config} {x : Target} (h : x.inRange c) (hr : ∀ r, x ≠ .reg r) :
   locate c (BitVec.ofNat 32 x.offset).toNat 1 = some x := by
  rw [toNat_offset h hr, locate_one, windowAt_offset h hr]

theorem readsAs_window {s : State} {x : Target} (h : x.inRange s.cfg) (hr : ∀ r, x ≠ .reg r) :
    readsAs s (BitVec.ofNat 32 x.offset) 1 (readTarget s x) :=
  readsAs_of (by rw [busRead, locate_window h hr])

theorem busWrite_window {s : State} {x : Target} (h : x.inRange s.cfg) (hr : ∀ r, x ≠ .reg r) (v : Word) :
    busWrite s (BitVec.ofNat 32 x.offset).toNat 1 v = writeTarget s v x := by
  rw [busWrite, locate_window h hr]; rfl

end Sys2Proof.Machine
end

