-- ==== Sys2Proof/Laws/Quadrants.lean ====
section
/-! SUPPORT. The BPE commands one after the other: the state `bpe.split` leaves, whole buffers moved by a permutation,
and when and what a merge writes back. -/

namespace Sys2Proof.Machine

theorem half_toNat (d : Half) : (BitVec.ofNat 16 (d.toNat / 2)).toNat = d.toNat / 2 := by
  have := d.isLt
  rw [BitVec.toNat_ofNat, Nat.mod_eq_of_lt (by omega)]

theorem splitEffect_ok {s : State} (h : s.count ≤ s.cfg.pmMax) : splitEffect s = .ok { s with
      qb := #v[splitQuadrant s 0, splitQuadrant s 1, splitQuadrant s 2, splitQuadrant s 3]
      splitpt := Shape.ofNats (s.height / 2) (s.width / 2)
      qv := true } := by
  rcases splitEffect_cases s with ⟨h', -⟩ | ⟨-, e⟩
  · omega
  · exact e

theorem getElem_split (s : State) (k : Fin 4) : (#v[splitQuadrant s 0, splitQuadrant s 1, splitQuadrant s 2,
    splitQuadrant s 3] : Vector Quadrant 4)[k] = splitQuadrant s k := by
  match k with
  | 0 | 1 | 2 | 3 => rfl

theorem splitQuadrant_shape (s : State) (k : Fin 4) : (splitQuadrant s k).shape.rows.toNat = (s.splitRegion k).rows ∧
    (splitQuadrant s k).shape.cols.toNat = (s.splitRegion k).cols := by
  have h1 := s.dims.rows.isLt
  have h2 := s.dims.cols.isLt
  have e1 : s.height = s.dims.rows.toNat := rfl
  have e2 : s.width = s.dims.cols.toNat := rfl
  match k with
  | 0 | 1 | 2 | 3 =>
    constructor <;> simp only [splitQuadrant, Shape.ofNats, State.splitRegion, region, BitVec.toNat_ofNat]
        <;> exact Nat.mod_eq_of_lt (by omega)

theorem splitpt_rows (s : State) : (Shape.ofNats (s.height / 2) (s.width / 2)).rows.toNat = s.height / 2 := half_toNat _

theorem splitpt_cols (s : State) : (Shape.ofNats (s.height / 2) (s.width / 2)).cols.toNat = s.width / 2 := half_toNat _

theorem permValid_perm (p : Equiv.Perm (Fin 4)) : permValid (p 0) (p 1) (p 2) (p 3) = true := by
  revert p; decide

theorem permute_eq (qb : Vector Quadrant 4) (p : Equiv.Perm (Fin 4)) (i : Fin 4) :
    (permuteQuadrants qb (p 0) (p 1) (p 2) (p 3))[i] = qb[p i] := by
  have h : ∀ k : Fin 4, quadrantAt qb k.val = qb[k] := fun k => by
    unfold quadrantAt
    congr 1
    exact Fin.ext (Nat.mod_eq_of_lt k.isLt)
  match i with
  | 0 | 1 | 2 | 3 => exact h _

theorem unpermute_eq (qb : Vector Quadrant 4) (p : Equiv.Perm (Fin 4)) (i : Fin 4) :
    (unpermuteQuadrants qb (p 0) (p 1) (p 2) (p 3))[p i] = qb[i] := by
  have key : ∀ (a b c d : Quadrant), ∀ p : Equiv.Perm (Fin 4), ∀ i : Fin 4,
      (((((#v[a,b,c,d] : Vector Quadrant 4).setIfInBounds (p 0) a).setIfInBounds (p 1) b).setIfInBounds
          (p 2) c).setIfInBounds (p 3) d)[p i] = (#v[a,b,c,d] : Vector Quadrant 4)[i] := by
    intro a b c d p i
    have hne : ∀ j, j ≠ i → (p j).val ≠ (p i).val := fun j hj h => hj (p.injective (Fin.ext h))
    simp only [Fin.getElem_fin, Vector.getElem_setIfInBounds]
    fin_cases i
    · have h1 := hne 1 (by decide); have h2 := hne 2 (by decide); have h3 := hne 3 (by decide)
      simp only [Fin.zero_eta] at *; simp [h1, h2, h3]
    · have h2 := hne 2 (by decide); have h3 := hne 3 (by decide)
      simp at h2 h3 ⊢; simp [h2,h3]
    · have h3 := hne 3 (by decide)
      simp at h3 ⊢; simp [h3]
    · simp
  have hq : qb = #v[qb[0], qb[1], qb[2], qb[3]] := by
    ext j hj
    match j, hj with
    | 0, _ | 1, _ | 2, _ | 3, _ => rfl
  have := key qb[0] qb[1] qb[2] qb[3] p i
  rw [← hq] at this
  exact this

theorem reorder_ok {p0 p1 p2 p3 : Nat} {qb'} {s : State} (hp : permValid p0 p1 p2 p3 = true)
    (hq : s.qv = true) : reorderEffect p0 p1 p2 p3 qb' s = .ok { s with qb := qb' } := by
  simp [reorderEffect, hp, hq]

theorem unperm_symm (qb : Vector Quadrant 4) (p : Equiv.Perm (Fin 4)) :
   unpermuteQuadrants qb (p 0) (p 1) (p 2) (p 3) = permuteQuadrants qb (p.symm 0) (p.symm 1) (p.symm 2) (p.symm 3) := by
  ext j hj
  have h1 := unpermute_eq qb p (p.symm ⟨j, hj⟩)
  simp only [Equiv.apply_symm_apply] at h1
  have h2 := permute_eq qb p.symm ⟨j, hj⟩
  exact h1.trans h2.symm

theorem quadrantsFit_iff (s : State) : quadrantsFitPositions s ↔ s.mergeFits := by
  unfold quadrantsFitPositions State.mergeFits State.mergeRegion
  simp only [Prod.mk.injEq]
  constructor
  · rintro ⟨h1, h2, h3, h4, h5, h6⟩
    refine ⟨⟨h1, h2⟩, fun k => ?_⟩
    match k with
    | 0 => exact h3
    | 1 => exact h4
    | 2 => exact h5
    | 3 => exact h6
  · rintro ⟨⟨h1, h2⟩, h⟩
    exact ⟨h1, h2, h 0, h 1, h 2, h 3⟩

theorem execSeq_cons {i : Instr} {is : List Instr} {s t : State} (h : exec i s = .next t) : execSeq
    (i :: is) s = execSeq is t := by
  simp only [execSeq, h]

theorem exec_perm {s : State} (he : s.err = false) (hq : s.qv = true) (p : Equiv.Perm (Fin 4)) :
   exec (.bpePerm (p 0) (p 1) (p 2) (p 3)) s = .next { s with qb := permuteQuadrants s.qb (p 0) (p 1) (p 2) (p 3) } :=
  exec_of_ok he (reorder_ok (permValid_perm p) hq)

theorem exec_unperm {s : State} (he : s.err = false) (hq : s.qv = true) (p : Equiv.Perm (Fin 4)) :
   exec (.bpeUnperm (p 0) (p 1) (p 2) (p 3)) s =
       .next { s with qb := unpermuteQuadrants s.qb (p 0) (p 1) (p 2) (p 3) } :=
  exec_of_ok he (reorder_ok (permValid_perm p) hq)

def splitState (s : State) : State := { s with
      qb := #v[splitQuadrant s 0, splitQuadrant s 1, splitQuadrant s 2, splitQuadrant s 3]
      splitpt := Shape.ofNats (s.height / 2) (s.width / 2)
      qv := true }

theorem exec_split {s : State} (he : s.err = false) (hN : s.count ≤ s.cfg.pmMax) : exec .bpeSplit s = .next
    (splitState s) :=
  exec_of_ok (i := .bpeSplit) he (splitEffect_ok hN)

theorem splitState_qb (s : State) (k : Fin 4) : (splitState s).qb[k] = splitQuadrant s k := getElem_split s k

theorem mergeEffect_ok {s : State} (h1 : s.count ≤ s.cfg.pmMax) (h2 : s.qv = true) (h3 : s.mergeFits) :
    mergeEffect s = .ok { s with pm := s.pm.writeAll (mergeWrites s) } := by
  rcases mergeEffect_cases s with ⟨h, -⟩ | ⟨-, h, -⟩ | ⟨-, -, h, -⟩ | ⟨-, -, -, e⟩
  · omega
  · simp [h2] at h
  · exact absurd h3 h
  · exact e

theorem mergeEffect_mismatch {s : State} (h1 : s.count ≤ s.cfg.pmMax) (h2 : s.qv = true) (h3 : ¬s.mergeFits) :
    mergeEffect s = .error .shapeMismatch := by
  rcases mergeEffect_cases s with ⟨h, -⟩ | ⟨-, h, -⟩ | ⟨-, -, -, e⟩ | ⟨-, -, h, -⟩
  · omega
  · simp [h2] at h
  · exact e
  · exact absurd h h3

/-- merge region of a state whose SPLITPT is the centre. -/
theorem mergeRegion_center {s t : State} (hd : t.dims = s.dims) (hs : t.splitpt = Shape.ofNats (s.height / 2)
    (s.width / 2)) (k : Fin 4) :
    t.mergeRegion k = s.splitRegion k := by
  unfold State.mergeRegion State.splitRegion
  rw [hs, splitpt_rows, splitpt_cols, State.height_congr hd, State.width_congr hd]

theorem read_of_regions {s : State} {m m' : Memory} {h2 w2 : Nat} (hh : h2 ≤ s.height) (hw : w2 ≤ s.width)
    (h : ∀ (k : Fin 4), ∀ r < (region s.height s.width h2 w2 k).rows, ∀ c < (region s.height s.width h2 w2 k).cols,
       m.read (((region s.height s.width h2 w2 k).r0 + r) * s.width + (region s.height s.width h2 w2 k).c0 + c) =
           m'.read (((region s.height s.width h2 w2 k).r0 + r) * s.width + (region s.height s.width h2 w2 k).c0 + c))
    (hb : ∀ j, s.count ≤ j → m.read j = m'.read j) (j : Nat) : m.read j = m'.read j := by
  by_cases hj : s.count ≤ j
  · exact hb j hj
  · obtain ⟨k, r, hr, c, hc, rfl⟩ := exists_region hh hw (not_le.1 hj)
    exact h k r hr c hc

theorem splitState_fits (s : State) : (splitState s).mergeFits := by
  refine ⟨⟨?_, ?_⟩, fun k => ?_⟩
  · show (Shape.ofNats _ _).rows.toNat ≤ s.height
    rw [splitpt_rows]; omega
  · show (Shape.ofNats _ _).cols.toNat ≤ s.width
    rw [splitpt_cols]; omega
  · rw [mergeRegion_center (s := s) (t := splitState s) rfl rfl]
    show (#v[splitQuadrant s 0, splitQuadrant s 1, splitQuadrant s 2,
        splitQuadrant s 3] : Vector Quadrant 4)[k].shape.rows.toNat = _ ∧ (#v[splitQuadrant s 0, splitQuadrant s 1,
        splitQuadrant s 2, splitQuadrant s 3] : Vector Quadrant 4)[k].shape.cols.toNat = _
    rw [getElem_split]; exact splitQuadrant_shape s k

theorem perm_fits (s t : State) (p : Equiv.Perm (Fin 4)) (hd : t.dims = s.dims) (hs : t.splitpt = Shape.ofNats
    (s.height / 2) (s.width / 2))
   (hq : ∀ i, t.qb[i] = splitQuadrant s (p i)) : t.mergeFits ↔ ∀ i : Fin 4,
       (s.splitRegion (p i)).rows = (s.splitRegion i).rows ∧ (s.splitRegion (p i)).cols = (s.splitRegion i).cols := by
  have hh : t.splitpt.rows.toNat ≤ t.height := by rw [hs, splitpt_rows, State.height_congr hd]; omega
  have hw : t.splitpt.cols.toNat ≤ t.width := by rw [hs, splitpt_cols, State.width_congr hd]; omega
  unfold State.mergeFits
  simp only [mergeRegion_center hd hs, hq, (splitQuadrant_shape s _).1, (splitQuadrant_shape s _).2]
  exact ⟨fun h => h.2, fun h => ⟨⟨hh, hw⟩, h⟩⟩

theorem even_region {s : State} (h1 : s.height % 2 = 0) (h2 : s.width % 2 = 0) (k : Fin 4) :
    (s.splitRegion k).rows = s.height / 2 ∧ (s.splitRegion k).cols = s.width / 2 := by
  have hr : s.height - s.height / 2 = s.height / 2 := by omega
  have hc : s.width - s.width / 2 = s.width / 2 := by omega
  match k with
  | 0 => exact ⟨rfl, rfl⟩
  | 1 => exact ⟨rfl, hc⟩
  | 2 => exact ⟨hr, rfl⟩
  | 3 => exact ⟨hr, hc⟩

/-- merge after split and a reorder of quadrants by `f`. -/
theorem shuffle_merge {s t : State} (f : Fin 4 → Fin 4) (he : s.err = false) (hN : s.count ≤ s.cfg.pmMax)
    (h1 : s.height % 2 = 0) (h2 : s.width % 2 = 0)
   (ht : t = { splitState s with qb := t.qb }) (hq : ∀ i, t.qb[i] = splitQuadrant s (f i)) :
   ∃ u, execSeq [.bpeMerge] t = .next u ∧ u.err = false ∧ u.dims = s.dims ∧ u.cfg = s.cfg ∧ 
     (∀ i : Fin 4, ∀ r < s.height / 2, ∀ c < s.width / 2,
        u.pm.read (((s.splitRegion i).r0 + r) * s.width + (s.splitRegion i).c0 + c)
          = s.pm.read (((s.splitRegion (f i)).r0 + r) * s.width + (s.splitRegion (f i)).c0 + c)) ∧
     ∀ j, s.count ≤ j → u.pm.read j = s.pm.read j := by
  have hd : t.dims = s.dims := by rw [ht]; rfl
  have hcfg : t.cfg = s.cfg := by rw [ht]; rfl
  have hpm : t.pm = s.pm := by rw [ht]; rfl
  have hs : t.splitpt = Shape.ofNats (s.height / 2) (s.width / 2) := by rw [ht]; rfl
  have hqv : t.qv = true := by rw [ht]; rfl
  have het : t.err = false := by rw [ht]; exact he
  have hh : t.splitpt.rows.toNat ≤ t.height := by rw [hs, splitpt_rows, State.height_congr hd]; omega
  have hw : t.splitpt.cols.toNat ≤ t.width := by rw [hs, splitpt_cols, State.width_congr hd]; omega
  have hf : t.mergeFits := by
    refine ⟨⟨hh, hw⟩, fun k => ?_⟩
    rw [hq, mergeRegion_center hd hs, (splitQuadrant_shape s _).1, (splitQuadrant_shape s _).2,
        (even_region h1 h2 _).1, (even_region h1 h2 _).2, (even_region h1 h2 _).1, (even_region h1 h2 _).2]
    exact ⟨rfl, rfl⟩
  have hc : t.count = s.count := State.count_congr hd
  refine ⟨_, execSeq_cons (exec_of_ok (i := .bpeMerge) het (mergeEffect_ok (by rw [hc, hcfg]; exact hN) hqv hf)), het,
      hd, hcfg, fun i r hr c hcc => ?_, fun j hj => ?_⟩
  · have e := mergeRegion_center hd hs i
    have er := even_region h1 h2
    have := read_merge t hw i (r := r) (c := c) (by rw [e, (er i).1]; exact hr) (by rw [e, (er i).2]; exact hcc)
    rw [e, State.width_congr hd, hq] at this
    refine this.trans ?_
    rw [(er i).2, ← (er (f i)).2]
    exact read_splitQuadrant s (f i) (by rw [(er _).1]; exact hr) (by rw [(er _).2]; exact hcc)
  · have := read_merge_beyond t hh hw (j := j) (by rw [hc]; exact hj)
    rw [hpm] at this
    show (t.pm.writeAll _).read j = _
    rw [hpm]; exact this

end Sys2Proof.Machine
end

