-- ==== Sys2Proof/Laws/Streams.lean ====
section
/-! SUPPORT. The bit streams of the statements and the payloads of the meanings: what the BPC commands write and read,
said bit by bit. -/

namespace Sys2Proof.Machine

/-- The bits the plane gives are those of the statements' term. -/
theorem getElem?_readBits_order {s : State} {b n m : Nat} (hb : 0 < b) (hn : n ≤ s.capacity b) (hm : m < n) :
    (readBits s.order n b s.pm)[m]? = some (planeBit s b m) :=
  getElem?_readBits hb (by rw [s.length_order]; exact hn) hm

theorem length_readBits_order {s : State} {b n : Nat} (hb : 0 < b) (hn : n ≤ s.capacity b) :
    (readBits s.order n b s.pm).length = n :=
  length_readBits hb (by rw [s.length_order]; exact hn)

/-- Bit `8q + u` of a byte sequence as a number. -/
theorem testBit_ube32 (l : List Byte) (m : Nat) (hm : m < 8 * l.length) :
    (ube32 l).testBit (8 * l.length - 1 - m) = (unpack l).getD m false := by
  induction l using List.reverseRecOn generalizing m with
  | nil => simp at hm
  | append_singleton l v ih =>
    have hv := v.isLt
    rw [ube32_append]
    rw [List.length_append, List.length_singleton] at hm ⊢
    have hu : unpack (l ++ [v]) = unpack l ++ byteBits v := by simp [unpack]
    rw [hu, List.getD_eq_getElem?_getD]
    by_cases h : m < 8 * l.length
    · rw [List.getElem?_append_left (by simpa using h), ← List.getD_eq_getElem?_getD, ← ih m h,
        Nat.mul_comm (ube32 l), Nat.two_pow_add_eq_or_of_lt hv, Nat.testBit_or, Nat.testBit_lt_two_pow
          (hv.trans_le (Nat.pow_le_pow_right (by decide) (by omega))), Bool.or_false, Nat.testBit_two_pow_mul]
      have : 8 ≤ 8 * (l.length + 1) - 1 - m := by omega
      simp only [this, decide_true, Bool.true_and]
      congr 1; omega
    · rw [List.getElem?_append_right (by simp; omega), length_unpack, getElem?_byteBits _ (by omega), Option.getD_some,
        Nat.mul_comm (ube32 l), Nat.two_pow_add_eq_or_of_lt hv, Nat.testBit_or, Nat.testBit_two_pow_mul]
      have : ¬ 8 ≤ 8 * (l.length + 1) - 1 - m := by omega
      simp only [this, decide_false, Bool.false_and, Bool.false_or]
      rw [BitVec.getLsbD]
      congr 1; omega

theorem header_bits (s : State) (b : Nat) (hb : 1 ≤ b) (hc : 32 ≤ s.capacity b) (m : Nat) (hm : m < 32) :
    (headerLength b s).testBit (31 - m) = planeBit s b m := by
  have hl := length_readBits_order (s := s) hb hc
  have hp : (pack (readBits s.order 32 b s.pm)).length = 4 := by rw [length_pack, hl]
  have := testBit_ube32 (pack (readBits s.order 32 b s.pm)) m (by omega)
  rw [hp] at this
  rw [headerLength, this, unpack_pack _ (by rw [hl]; decide), List.getD_eq_getElem?_getD,
    getElem?_readBits_order hb hc hm, Option.getD_some]

theorem header_unique {s : State} {b len : Nat} (hb : 1 ≤ b) (hc : 32 ≤ s.capacity b) (hl : len < 2 ^ 32)
    (h : ∀ m < 32, len.testBit (31 - m) = planeBit s b m) : len = headerLength b s := by
  refine Nat.eq_of_testBit_eq fun i => ?_
  by_cases hi : i < 32
  · have := h (31 - i) (by omega)
    rw [← header_bits s b hb hc _ (by omega)] at this
    rwa [show 31 - (31 - i) = i by omega] at this
  · rw [Nat.testBit_lt_two_pow (hl.trans_le (Nat.pow_le_pow_right (by decide) (by omega))),
      Nat.testBit_lt_two_pow ((headerLength_lt s b).trans_le (Nat.pow_le_pow_right (by decide) (by omega)))]

theorem embedsStream_of (s : State) {b n : Nat} {bits : List Bool} {bit : Nat → Bool} (hb : 1 ≤ b) (hb4 : b ≤ 4)
    (hl : bits.length = n) (hbit : ∀ m < n, bits.getD m false = bit m) :
    embedsStream s (writeBits s.order bits b s.pm) b n bit := by
  subst hl
  refine ⟨fun k i hk ho u hu => ?_, fun j hj => read_writeBits_other hj⟩
  rw [getLsbD_writeBits s.nodup_order hb (by omega) ho hk]
  split_ifs with h
  · by_cases h' : k * b + (b - 1 - u) < bits.length
    · rw [hbit _ h', decide_eq_true h', Bool.true_and]
    · rw [decide_eq_false h', Bool.false_and, List.getD_eq_getElem?_getD, List.getElem?_eq_none (by omega)]; rfl
  · rfl

theorem getD_unpack_bytes (m : Memory) (n k : Nat) (hk : k < 8 * n) :
    (unpack (m.bytes n)).getD k false = (m.read (k / 8)).getLsbD (7 - k % 8) := by
  rw [List.getD_eq_getElem?_getD, getElem?_unpack, Memory.getElem?_bytes, if_pos (by omega)]; rfl

theorem length_rawPayload (s : State) : (rawPayload s).length = s.dblen.toNat := by simp [rawPayload]

theorem length_framedPayload (s : State) : (framedPayload s).length = s.dblen.toNat + 4 := by
    simp [framedPayload]; omega

theorem getD_rawPayload (s : State) (m : Nat) (h : m < 8 * s.dblen.toNat) :
    (unpack (rawPayload s)).getD m false = rawBit s m := getD_unpack_bytes _ _ _ h

theorem getD_unpack_be32 (n : Word) (m : Nat) (h : m < 32) : (unpack (be32 n)).getD m false = n.getLsbD (31 - m) := by
  have := testBit_ube32 (be32 n) m (by rw [length_be32]; omega)
  rw [← this, ube32_be32, length_be32]; rfl

theorem getD_framedPayload (s : State) (m : Nat) (h : m < 8 * (s.dblen.toNat + 4)) :
    (unpack (framedPayload s)).getD m false = framedBit s m := by
  have hu : unpack (framedPayload s) = unpack (be32 s.dblen) ++ unpack (rawPayload s) := by
      simp [unpack, framedPayload, rawPayload]
  rw [hu, framedBit, List.getD_eq_getElem?_getD]
  split_ifs with h'
  · rw [List.getElem?_append_left (by simp; omega), ← List.getD_eq_getElem?_getD, getD_unpack_be32 _ _ h']
  · rw [List.getElem?_append_right (by simp; omega), ← List.getD_eq_getElem?_getD, length_unpack, length_be32]
    exact getD_rawPayload _ _ (by omega)

theorem embedEffect_ok {b len : Nat} {payload : List Byte} {s : State} (hb : 1 ≤ b ∧ b ≤ 4) (hN : s.count ≤ s.cfg.pmMax)
    (hL : s.dblen.toNat ≤ s.cfg.dbMax) (hc : 8 * len ≤ s.capacity b) :
    embedEffect b len payload s = .ok { s with pm := writeBits s.order (unpack payload) b s.pm } := by
  rcases embedEffect_cases b len payload s with ⟨h, -⟩ | ⟨-, h, -⟩ | ⟨-, -, h, -⟩ | ⟨-, -, -, h, -⟩ | ⟨-, -, -, -, e⟩
  · exact absurd hb h
  · omega
  · omega
  · omega
  · exact e

theorem extractEffect_ok {b : Nat} {s : State} (hb : 1 ≤ b ∧ b ≤ 4) (hN : s.count ≤ s.cfg.pmMax)
    (hc : s.numbits.toNat ≤ s.capacity b) :
    extractEffect b s = .ok { s with
        db := s.db.load (pack (readBits s.order s.numbits.toNat b s.pm
          ++ List.replicate (8 * ceilDiv s.numbits.toNat 8 - s.numbits.toNat) false))
        dblen := BitVec.ofNat 32 (ceilDiv s.numbits.toNat 8) } := by
  rcases extractEffect_cases b s with ⟨h, -⟩ | ⟨-, h, -⟩ | ⟨-, -, h, -⟩ | ⟨-, -, -, e⟩
  · exact absurd hb h
  · omega
  · omega
  · exact e

theorem extractfEffect_ok {b : Nat} {s : State} (hb : 1 ≤ b ∧ b ≤ 4) (hN : s.count ≤ s.cfg.pmMax)
    (hc : 32 + 8 * headerLength b s ≤ s.capacity b) :
    extractfEffect b s = .ok { s with
        db := s.db.load (pack ((readBits s.order (32 + 8 * headerLength b s) b s.pm).drop 32))
        dblen := BitVec.ofNat 32 (headerLength b s)
        hdrlen := BitVec.ofNat 32 (headerLength b s) } := by
  rcases extractfEffect_cases b s with ⟨h, -⟩ | ⟨-, h, -⟩ | ⟨-, -, h, -⟩ | ⟨-, -, -, h, -⟩ | ⟨-, -, -, e⟩
  · exact absurd hb h
  · omega
  · omega
  · omega
  · exact e

theorem load_bytes_read (m : Memory) (n j : Nat) : (m.load (m.bytes n)).read j = m.read j := by
  rw [Memory.read_load, Memory.getElem?_bytes]
  split_ifs <;> rfl

theorem holdsStream_load (s : State) {n : Nat} {t : List Bool} {bit : Nat → Bool} (hl : t.length = 8 * ceilDiv n 8)
    (hbit : ∀ m < t.length, t.getD m false = (decide (m < n) && bit m)) : holdsStream s (s.db.load (pack t)) n bit := by
  refine ⟨fun q hq u hu => ?_, fun j hj => ?_⟩
  · obtain ⟨v, hv, hb⟩ := getLsbD_pack t (q := q) (u := u) (by omega) hu
    rw [Memory.read_load, hv, Option.getD_some, hb]
    exact hbit _ (by omega)
  · rw [Memory.read_load, List.getElem?_eq_none (by rw [length_pack]; omega)]; rfl

theorem capacity_dbMax {s : State} {b n : Nat} (hb : b ≤ 4) (hN : s.count ≤ s.cfg.pmMax)
    (hn : n ≤ s.capacity b) : ceilDiv n 8 ≤ s.cfg.dbMax := by
  have h1 := s.cfg.bounds.2.2.1
  have : s.count * b ≤ s.cfg.pmMax * 4 := Nat.mul_le_mul hN hb
  rw [ceilDiv_le (by decide)]
  have h2 : s.capacity b = s.count * b := rfl
  omega

theorem toNat_div_eq_of_bits {x y : Byte} {b : Nat} (h : ∀ u, b ≤ u →
    x.getLsbD u = y.getLsbD u) : x.toNat / 2 ^ b = y.toNat / 2 ^ b := by
  refine Nat.eq_of_testBit_eq fun i => ?_
  rw [Nat.testBit_div_two_pow, Nat.testBit_div_two_pow]
  exact h _ (by omega)

theorem embedsStream_keeps {s : State} {pm' : Memory} {b n : Nat} {bit : Nat → Bool} (h : embedsStream s pm' b n bit)
    (j : Nat) :
   (pm'.read j).toNat / 2 ^ b = (s.pm.read j).toNat / 2 ^ b := by
  refine toNat_div_eq_of_bits fun u hu => ?_
  by_cases hj : j ∈ s.order.take (ceilDiv n b)
  · obtain ⟨k, hk⟩ := List.getElem?_of_mem hj
    rw [List.getElem?_take] at hk
    split_ifs at hk with hkc
    by_cases h8 : u < 8
    · rw [h.1 k j hkc hk u h8, if_neg (by omega)]
    · rw [BitVec.getLsbD_of_ge _ _ (by omega), BitVec.getLsbD_of_ge _ _ (by omega)]
  · rw [h.2 j hj]

end Sys2Proof.Machine
end

