-- ==== Sys2Proof/Laws/Effects.lean ====
section
/-! SUPPORT. More that is said once about commands: when the cipher completes, a field no command looks at, STATUS.QV,
and the checks of the priority order case by case. -/

namespace Sys2Proof.Machine

theorem cipherEffect_ok {f} {s : State} (h : s.dblen.toNat ≤ s.cfg.dbMax) (h1 : 1 ≤ s.kdlen.toNat)
    (h2 : s.kdlen.toNat ≤ 64) :
  cipherEffect f s = .ok { s with
        db := s.db.writeAll ((List.range s.dblen.toNat).map fun i => (i, f i (s.db.read i))) } := by
  rcases cipherEffect_cases f s with ⟨h', -⟩ | ⟨-, h', -⟩ | ⟨-, -, e⟩
  · omega
  · omega
  · exact e

theorem exec_enc {s : State} (he : s.err = false) (h : s.dblen.toNat ≤ s.cfg.dbMax) (h1 : 1 ≤ s.kdlen.toNat)
    (h2 : s.kdlen.toNat ≤ 64) :
  exec .mleaEnc s = .next { s with
        db := s.db.writeAll ((List.range s.dblen.toNat).map fun i => (i, scramble (s.db.read i) ^^^ s.keystream i)) } :=
  exec_of_ok (i := .mleaEnc) he (cipherEffect_ok (f := fun i x => scramble x ^^^ s.keystream i) h h1 h2)

theorem exec_dec {s : State} (he : s.err = false) (h : s.dblen.toNat ≤ s.cfg.dbMax) (h1 : 1 ≤ s.kdlen.toNat)
    (h2 : s.kdlen.toNat ≤ 64) :
  exec .mleaDec s = .next { s with
        db := s.db.writeAll ((List.range s.dblen.toNat).map fun i => (i,
            unscramble (s.db.read i ^^^ s.keystream i))) } :=
  exec_of_ok (i := .mleaDec) he (cipherEffect_ok (f := fun i x => unscramble (x ^^^ s.keystream i)) h h1 h2)

theorem effectOf_of {i : Instr} {s t : State} (hs : s.err = false) (h : exec i s = .next t)
    (ht : t.err = false) : effectOf i s = .ok t := by
  rcases exec_cases h with ⟨h', -⟩ | ⟨h', -⟩ | ⟨h', -⟩ | ⟨-, he⟩ | ⟨-, c, -, rfl⟩
  · simp [hs] at h'
  · simp [hs] at h'
  · simp [hs] at h'
  · exact he
  · simp at ht

theorem runCommand_upd (f : State → State) (hf : ∀ s, (f s).err = s.err) (hfe : ∀ c w s, errorEntry c w (f s) = f
    (errorEntry c w s)) {i : Instr} {s : State} {e : Effect} :
   runCommand i (f s) (e.map f) = f (runCommand i s e) := by
  unfold runCommand
  rw [hf]
  split_ifs
  · rfl
  · cases e with
    | ok t => rfl
    | error c => exact hfe _ _ _

theorem exec_upd (f : State → State) (hf : ∀ s, (f s).err = s.err) (hfe : ∀ c w s, errorEntry c w (f s) = f
    (errorEntry c w s)) {i : Instr} {s t : State} 
  (h1 : i ≠ .sysClrerr) (h2 : i ≠ .sysSreset) (heff : effectOf i (f s) = (effectOf i s).map f)
      (h : exec i s = .next t) : exec i (f s) = .next (f t) := by
  cases hs : s.err
  · cases he : effectOf i s with
    | ok u =>
      rw [exec_of_ok hs he, Host.Outcome.next.injEq] at h
      subst h
      exact exec_of_ok ((hf s).trans hs) (by rw [heff, he]; rfl)
    | error c =>
      rw [exec_of_error hs he, Host.Outcome.next.injEq] at h
      subst h
      rw [exec_of_error ((hf s).trans hs) (by rw [heff, he]; rfl), hfe]
  · rw [exec_of_err hs h1 h2, Host.Outcome.next.injEq] at h
    subst h
    exact exec_of_err ((hf s).trans hs) h1 h2

theorem exec_qv {i : Instr} {s t : State} (h : exec i s = .next t) : t.qv = s.qv ∨ (i = .bpeSplit ∧ t.qv = true) ∨
    (i = .sysSreset ∧ t.qv = false) := by
  rcases exec_cases h with ⟨-, -, -, rfl⟩ | ⟨-, rfl, rfl⟩ | ⟨-, rfl, rfl⟩ | ⟨-, he⟩ | ⟨-, c, -, rfl⟩
  · exact .inl rfl
  · exact .inl rfl
  · exact .inr (.inr ⟨rfl, rfl⟩)
  · cases i <;>
        simp only [effectOf, embedEffect, extractEffect, extractfEffect, cipherEffect, splitEffect, reorderEffect,
          mergeEffect] at he
    case sysSreset => cases he; exact .inr (.inr ⟨rfl, rfl⟩)
    case bpeSplit => split_ifs at he; cases he; exact .inr (.inl ⟨rfl, rfl⟩)
    all_goals
        first
        | (simp only [Except.ok.injEq] at he; subst he; exact .inl rfl)
        | (split_ifs at he; simp only [Except.ok.injEq] at he; subst he; exact .inl rfl)
  · exact .inl rfl

theorem errorAt_cases {i : Instr} {s : State} {n : Nat} {f : ErrorFigures} (h : errorAt i s n f) :
   (n = 3 ∧ f = ⟨1,1,0,0⟩ ∧ ∃ b, i.bppOperand = some b ∧ ¬(1 ≤ b ∧ b ≤ 4)) ∨
   (n = 3 ∧ f = ⟨1,2,0,0⟩ ∧ ∃ p, i.permOperand = some p ∧ ¬(p.Perm [0,1,2,3])) ∨
   (n = 4 ∧ f = ⟨1,3,0,0⟩ ∧ i.checksDims = true ∧ s.cfg.pmMax < s.count) ∨
   (n = 5 ∧ f = ⟨1,4,0,0⟩ ∧ i.checksDblen = true ∧ s.cfg.dbMax < s.dblen.toNat) ∨
   (n = 6 ∧ f = ⟨1,5,0,0⟩ ∧ i.checksKdlen = true ∧ (s.kdlen.toNat = 0 ∨ 64 < s.kdlen.toNat)) ∨
   (n = 7 ∧ f = ⟨5,1,0,0⟩ ∧ i.checksSplit = true ∧ s.qv = false) ∨
   (n = 8 ∧ f = ⟨5,2,0,0⟩ ∧ i = .bpeMerge ∧ ¬s.mergeFits) ∨
   (n = 9 ∧ ∃ b sub req, f = ⟨2,sub,req,s.capacity b⟩ ∧ i.bppOperand = some b ∧ i.capacityRequest s = some (sub,
       req) ∧ s.capacity b < req) ∨
   (n = 10 ∧ ∃ b len, f = ⟨3,1,32+8*len,s.capacity b⟩ ∧ i = .bpcExtractf b ∧ len < 2^32 ∧ (∀ m < 32,
       len.testBit (31 - m) = planeBit s b m) ∧ s.capacity b < 32 + 8*len) := by
  cases h with
  | bpp h hb => exact .inl ⟨rfl, rfl, _, h, hb⟩
  | perm h hb => exact .inr (.inl ⟨rfl, rfl, _, h, hb⟩)
  | dims h hb => exact .inr (.inr (.inl ⟨rfl, rfl, h, hb⟩))
  | dblen h hb => exact .inr (.inr (.inr (.inl ⟨rfl, rfl, h, hb⟩)))
  | kdlen h hb => exact .inr (.inr (.inr (.inr (.inl ⟨rfl, rfl, h, hb⟩))))
  | noSplit h hb => exact .inr (.inr (.inr (.inr (.inr (.inl ⟨rfl, rfl, h, hb⟩)))))
  | shapes h hb => exact .inr (.inr (.inr (.inr (.inr (.inr (.inl ⟨rfl, rfl, h, (quadrantsFit_iff s).not.1 hb⟩))))))
  | capacity h hr hc => exact .inr (.inr (.inr (.inr (.inr (.inr (.inr (.inl ⟨rfl, _, _, _, rfl, h, hr, hc⟩)))))))
  | framing h hl hh hc => exact .inr (.inr (.inr (.inr (.inr (.inr (.inr (.inr ⟨rfl, _, _, rfl, h, hl, hh, hc⟩)))))))

end Sys2Proof.Machine
end

