-- ==== Sys2Proof/Laws/Accepted.lean ====
section
/-! SUPPORT. The map of `Safety.lean` against the bus, where an access goes, what a write leaves readable, and that
neither the bus nor a command looks at the host's side. -/

namespace Sys2Proof.Machine

theorem effectOf_onHost (f : State → State) (hf : ∃ p c r,
    f = fun s => { s with pending := p, cp := c, results := r }) (i : Instr) (s : State) :
    effectOf i (f s) = (effectOf i s).map f := by
  obtain ⟨p, c, r, rfl⟩ := hf
  cases i
  case sysNop => rfl
  case sysClrerr => rfl
  case sysSreset => rfl
  all_goals
    simp only [effectOf, embedEffect, extractEffect, extractfEffect, cipherEffect, splitEffect, reorderEffect,
          mergeEffect, apply_ite (Except.map _)]
    rfl

theorem exec_onHost {i : Instr} {s t : State} (p c r) (h : exec i s = .next t) :
    exec i { s with pending := p, cp := c, results := r } = .next { t with pending := p, cp := c, results := r } := by
  by_cases h1 : i = .sysClrerr
  · subst h1; cases h; rfl
  by_cases h2 : i = .sysSreset
  · subst h2; cases h; rfl
  exact exec_upd (fun s => { s with pending := p, cp := c, results := r }) (fun _ => rfl) (fun _ _ _ => rfl) h1 h2
      (effectOf_onHost _ ⟨p, c, r, rfl⟩ _ _) h

theorem busRead_onHost {s : State} {off n}
    (p c r) : busRead { s with pending := p, cp := c, results := r } off n = busRead s off n :=
  busRead_congr rfl fun x _ => by cases x <;> rfl

theorem busWrite_onHost {s : State} {p c r} {off n : Nat} {v : Word} :
    busWrite { s with pending := p, cp := c, results := r } off n v =
      (busWrite s off n v).map fun t => { t with pending := p, cp := c, results := r } := by
  simp only [busWrite]
  cases locate s.cfg off n with
  | none => rfl
  | some x => rcases x with x | x | x | x | x | ⟨x, i⟩ <;> try rfl
              cases x <;> rfl

theorem regAt_some_iff {off : Nat} : (∃ r, regAt off = some r) ↔ off % 4 = 0 ∧ off < 0x5C := by
  constructor
  · rintro ⟨r, h⟩
    by_contra hn
    rw [regAt_none (by omega)] at h; cases h
  · rintro ⟨h, h'⟩
    have : ∀ k < 23, ∃ r, regAt (4 * k) = some r := by
      intro k hk
      interval_cases k <;> exact ⟨_, rfl⟩
    have := this (off / 4) (by omega)
    rwa [show 4 * (off / 4) = off by omega] at this

theorem window_target {c : Config} {off : Nat} {x : Nat × Nat × Bool} (hx : x ∈ windows c) (h1 : x.1 ≤ off)
    (h2 : off < x.1 + x.2.1) :
    ∃ y, windowAt c off = some y ∧ (x.2.2 = true → ∀ s v, ∃ t, writeTarget s v y = some t) := by
  have key : ∀ y : Target, y.inRange c → y.offset = off → (∀ r, y ≠ .reg r) → (x.2.2 = true → ∀ s v, ∃ t,
      writeTarget s v y = some t) →
      ∃ y, windowAt c off = some y ∧ (x.2.2 = true → ∀ s v, ∃ t, writeTarget s v y = some t) := by
    rintro y hy rfl hr hw
    exact ⟨y, windowAt_offset hy hr, hw⟩
  simp only [windows, List.mem_cons, List.not_mem_nil, or_false] at hx
  rcases hx with rfl | rfl | rfl | rfl | rfl | rfl | rfl | rfl <;> simp only at h1 h2
  · exact key (.kd (off - 0x100)) (by simp only [Target.inRange]; omega) (by simp only [Target.offset]; omega)
        (by simp) (fun _ _ _ => ⟨_, rfl⟩)
  · exact key (.pat (off - 0x200)) (by simp only [Target.inRange]; omega) (by simp only [Target.offset]; omega)
        (by simp) (fun h => by cases h)
  · exact key (.db (off - 0x00800000)) (by simp only [Target.inRange]; omega) (by simp only [Target.offset]; omega)
        (by simp) (fun _ _ _ => ⟨_, rfl⟩)
  · exact key (.pm (off - 0x01000000)) (by simp only [Target.inRange]; omega) (by simp only [Target.offset]; omega)
        (by simp) (fun _ _ _ => ⟨_, rfl⟩)
  · exact key (.qb 0 (off - 0x02000000)) (by simp only [Target.inRange]; omega)
        (by simp only [Target.offset]; simp; omega) (by simp) (fun h => by cases h)
  · exact key (.qb 1 (off - 0x03000000)) (by simp only [Target.inRange]; omega)
        (by simp only [Target.offset]; simp; omega) (by simp) (fun h => by cases h)
  · exact key (.qb 2 (off - 0x04000000)) (by simp only [Target.inRange]; omega)
        (by simp only [Target.offset]; simp; omega) (by simp) (fun h => by cases h)
  · exact key (.qb 3 (off - 0x05000000)) (by simp only [Target.inRange]; omega)
        (by simp only [Target.offset]; simp; omega) (by simp) (fun h => by cases h)

theorem window_iff {c : Config} {off : Nat} : (∃ x ∈ windows c, x.1 ≤ off ∧ off < x.1 + x.2.1) ↔ ∃ x,
    windowAt c off = some x := by
  constructor
  · rintro ⟨x, hx, h1, h2⟩
    obtain ⟨y, hy, -⟩ := window_target hx h1 h2
    exact ⟨y, hy⟩
  · rintro ⟨x, hx⟩
    obtain ⟨hin, rfl, hr⟩ := windowAt_some hx
    simp only [windows, List.mem_cons, List.not_mem_nil, or_false, exists_eq_or_imp, exists_eq_left]
    rcases x with r | i | i | i | i | ⟨k, i⟩
    · exact absurd rfl (hr r)
    all_goals simp only [Target.inRange, Target.offset] at *
    · omega
    · omega
    · omega
    · omega
    · have hk := k.isLt
      rcases (by omega : k.val = 0 ∨ k.val = 1 ∨ k.val = 2 ∨ k.val = 3) with h | h | h | h <;> rw [h] <;> omega

theorem wwindow_iff {c : Config} {off : Nat} : (∃ x ∈ windows c, x.2.2 = true ∧ x.1 ≤ off ∧ off < x.1 + x.2.1) ↔ ∃ x,
    windowAt c off = some x ∧ ∀ s v, ∃ t, writeTarget s v x = some t := by
  constructor
  · rintro ⟨x, hx, hw, h1, h2⟩
    obtain ⟨y, hy, hy'⟩ := window_target hx h1 h2
    exact ⟨y, hy, hy' hw⟩
  · rintro ⟨x, hx, hwr⟩
    obtain ⟨hin, rfl, hr⟩ := windowAt_some hx
    simp only [windows, List.mem_cons, List.not_mem_nil, or_false, exists_eq_or_imp, exists_eq_left]
    rcases x with r | i | i | i | i | ⟨k, i⟩
    · exact absurd rfl (hr r)
    all_goals simp only [Target.inRange, Target.offset] at *
    · exact .inl ⟨trivial, by omega, by omega⟩
    · obtain ⟨t, ht⟩ := hwr State.reset 0; cases ht
    · exact .inr (.inr (.inl ⟨trivial, by omega, by omega⟩))
    · exact .inr (.inr (.inr (.inl ⟨trivial, by omega, by omega⟩)))
    · obtain ⟨t, ht⟩ := hwr State.reset 0; cases ht

theorem setWidth_byte (v : Byte) : ((v.setWidth 32).setWidth 8 : Byte) = v := by simp

theorem notAccepted_of_locate {s : State} {off : Word} {n : Nat} {v : BitVec (8 * n)} (hc : ¬(off = 0x04 ∧ n = 4))
   (h : locate s.cfg off.toNat n = none) : notAccepted s (.read off n) ∧ notAccepted s (.write off n v) :=
  ⟨notAccepted_read_iff.2 (busRead_none h), notAccepted_write_of hc (busWrite_none h)⟩

/-- the place an offset names, whichever the width -/
theorem locate_offset {c : Config} {off n : Nat} {x : Target} (h : locate c off n = some x) :
   (n = 4 ∧ ∃ r, x = .reg r ∧ regAt off = some r) ∨ (n = 1 ∧ x.inRange c ∧ x.offset = off ∧ ∀ r, x ≠ .reg r) := by
  by_cases h4 : n = 4
  · subst h4
    rw [locate_four] at h
    obtain ⟨r, hr, rfl⟩ := Option.map_eq_some_iff.1 h
    exact .inl ⟨rfl, r, rfl, hr⟩
  · by_cases h1 : n = 1
    · subst h1; exact .inr ⟨rfl, windowAt_some h⟩
    · rw [locate_other h1 h4] at h; cases h

theorem regAt_inj {a b : Nat} {r : Reg} (ha : regAt a = some r) (hb : regAt b = some r) : a = b := by
  have key : ∀ j < 23, ∀ k < 23, regAt (4 * j) = regAt (4 * k) → j = k := by decide
  have h1 : a % 4 = 0 ∧ a < 0x5C := by
    by_contra hn
    rw [regAt_none (by omega)] at ha; cases ha
  have h2 : b % 4 = 0 ∧ b < 0x5C := by
    by_contra hn
    rw [regAt_none (by omega)] at hb; cases hb
  have := key (a / 4) (by omega) (b / 4) (by omega)
      (by rw [show 4 * (a / 4) = a by omega, show 4 * (b / 4) = b by omega, ha, hb])
  omega

theorem writeReg_cases {s t : State} {r : Reg} {v : Word} (h : writeReg s v r = some t) :
    (r = .cmd ∧ t = s) ∨ (r = .dims ∧ t = { s with dims := Shape.ofWord v }) ∨ (r = .dblen ∧
        t = { s with dblen := v }) ∨
    (r = .numbits ∧ t = { s with numbits := v }) ∨ (r = .kdlen ∧ t = { s with kdlen := v }) ∨
    (r = .vok ∧ t = { s with vok := v }) := by
  cases r <;> simp only [writeReg, Option.some.injEq, reduceCtorEq] at h <;> subst h <;> simp

theorem readTarget_writeTarget {s t : State} {x y : Target} {v : Word} (hin : x.inRange s.cfg)
    (hw : writeTarget s v x = some t) (hy : y ≠ x) (hv : y ≠ .reg .voidx) : readTarget t y = readTarget s y := by
  rcases x with r | i | i | i | i | ⟨k, i⟩
  · rcases y with r' | j | j | j | j | ⟨k, j⟩
    · have h1 : r' ≠ r := fun h => hy (by rw [h])
      have h2 : r' ≠ .voidx := fun h => hv (by rw [h])
      rcases writeReg_cases hw with ⟨rfl, rfl⟩ | ⟨rfl, rfl⟩ | ⟨rfl, rfl⟩ | ⟨rfl, rfl⟩ | ⟨rfl, rfl⟩ | ⟨rfl, rfl⟩ <;>
        cases r' <;> first | contradiction | rfl
    all_goals
      rcases writeReg_cases hw with ⟨rfl, rfl⟩ | ⟨rfl, rfl⟩ | ⟨rfl, rfl⟩ | ⟨rfl, rfl⟩ | ⟨rfl, rfl⟩ | ⟨rfl, rfl⟩ <;> rfl
  · cases hw
    rcases y with r' | j | j | j | j | ⟨k, j⟩
    · cases r' <;> rfl
    · have : i ≠ j := fun h => hy (by rw [h])
      simp [readTarget, kdRead_kdWrite _ _ _ hin, this]
    all_goals rfl
  · cases hw
  · cases hw
    rcases y with r' | j | j | j | j | ⟨k, j⟩
    · cases r' <;> rfl
    · rfl
    · rfl
    · have : i ≠ j := fun h => hy (by rw [h])
      simp [readTarget, Memory.read_write, this]
    all_goals rfl
  · cases hw
    rcases y with r' | j | j | j | j | ⟨k, j⟩
    · cases r' <;> rfl
    · rfl
    · rfl
    · rfl
    · have : i ≠ j := fun h => hy (by rw [h])
      simp [readTarget, Memory.read_write, this]
    · rfl
  · cases hw

end Sys2Proof.Machine
end

