-- ==== Sys2Proof/Laws/Invariant.lean ====
section
/-! SUPPORT. Every operation of the machine keeps the invariant of `Safety.lean`, the canonical form of the memories
(entry 1) among it; the draws of the quadrant buffers, which the invariant does not fix. -/

namespace Sys2Proof.Machine

theorem clearError_inv {s : State} (h : s.Inv) : (clearError s).Inv :=
  ⟨h.memories, h.fit, ⟨rfl, rfl, rfl, rfl, rfl, rfl⟩, h.unsplit, h.responses⟩

theorem softReset_inv {s : State} (h : s.Inv) : (softReset s).Inv := by
  refine ⟨⟨h.memories.1, h.memories.2.1, fun k => ?_⟩, fun k => ?_, ⟨rfl, rfl, rfl, rfl, rfl, rfl⟩,
    fun _ => ⟨rfl, fun k => ?_⟩, h.responses⟩
  · rw [softReset_qb]; exact h.memories.2.2 k
  · rw [softReset_qb]; exact Nat.zero_le _
  · rw [softReset_qb]

theorem errorEntry_inv {s : State} {c : Cause} (w : Word) (hc : c.bounded) (h : s.Inv) : (errorEntry c w s).Inv := by
  refine ⟨h.memories, h.fit, ?_, h.unsplit, h.responses⟩
  have h1 := hc.1
  have h2 := hc.2
  show (errorEntry c w s).errorRecorded
  refine ⟨c.code_bounds.1, c.code_bounds.2, ?_, ?_⟩
  · simp only [errorEntry_errAvail, BitVec.toNat_ofNat]
    rw [Nat.mod_eq_of_lt (by omega)]; exact h2
  · simp only [errReq, errorEntry_errReqH, errorEntry_errReqL, BitVec.toNat_ofNat]
    rw [Nat.mod_mod, Nat.mod_eq_of_lt (a := c.req / 2^32) (by omega)]
    have := Nat.div_add_mod c.req (2^32)
    omega

theorem answer_inv {s : State} (rest : List HostEvent) (r : Response) (h : s.Inv) : (s.answer rest r).Inv :=
  ⟨h.memories, h.fit, h.errors, h.unsplit, by simp [h.responses]⟩

theorem pending_inv {s : State} (rest : List HostEvent) (h : s.Inv) : ({ s with pending := rest } : State).Inv :=
  ⟨h.memories, h.fit, h.errors, h.unsplit, h.responses⟩

theorem powerOn_inv (c : Config) (r : Nat) : (State.powerOn c r).Inv where
  memories := ⟨Memory.wf_afterReset _ _ _, Memory.wf_afterReset _ _ _, fun k => by
    match k with
    | 0 | 1 | 2 | 3 => exact Memory.wf_afterReset _ _ _⟩
  fit := fun k => by
    match k with
    | 0 | 1 | 2 | 3 => exact Nat.zero_le _
  errors := ⟨rfl, rfl, rfl, rfl, rfl, rfl⟩
  unsplit := fun _ => ⟨rfl, fun k => by
    match k with
    | 0 | 1 | 2 | 3 => rfl⟩
  responses := rfl

theorem pm_inv {s : State} {m : Memory} (hm : m.wf s.cfg.pmMax) (h : s.Inv) : ({ s with pm := m } : State).Inv :=
  ⟨⟨hm, h.memories.2⟩, h.fit, h.errors, h.unsplit, h.responses⟩

theorem db_inv {s : State} {m : Memory} (l k : Word) (hm : m.wf s.cfg.dbMax) (h : s.Inv) :
    ({ s with db := m, dblen := l, hdrlen := k } : State).Inv :=
  ⟨⟨h.memories.1, hm, h.memories.2.2⟩, h.fit, h.errors, h.unsplit, h.responses⟩

theorem writeBits_inv {s : State} (bits : List Bool) (b : Nat) (hN : s.count ≤ s.cfg.pmMax) (h : s.Inv) :
   ({ s with pm := writeBits s.order bits b s.pm } : State).Inv :=
  pm_inv (wf_writeBits h.memories.1 fun _ hi => ((s.mem_order).1 hi).trans_le hN) h

theorem quadrants_inv {s : State} {qb : Vector Quadrant 4} (hq : s.qv = true)
    (hm : ∀ k : Fin 4, ∃ j : Fin 4, qb[k] = s.qb[j]) (h : s.Inv) : ({ s with qb := qb } : State).Inv := by
  refine ⟨⟨h.memories.1, h.memories.2.1, fun k => ?_⟩, fun k => ?_, h.errors, fun hq' => ?_, h.responses⟩
  · obtain ⟨j, hj⟩ := hm k
    show qb[k].data.wf _
    rw [hj]; exact h.memories.2.2 j
  · obtain ⟨j, hj⟩ := hm k
    show qb[k].shape.rows.toNat * qb[k].shape.cols.toNat ≤ _
    rw [hj]; exact h.fit j
  · simp [hq] at hq'

theorem permute_mem (qb : Vector Quadrant 4) (p0 p1 p2 p3 : Nat) (k : Fin 4) : ∃ j : Fin 4,
    (permuteQuadrants qb p0 p1 p2 p3)[k] = qb[j] := by
  match k with
  | 0 | 1 | 2 | 3 => exact ⟨_, rfl⟩

theorem setIfInBounds_mem {qb qb' : Vector Quadrant 4} (h : ∀ k : Fin 4, ∃ j : Fin 4, qb'[k] = qb[j]) (p : Nat)
    (j : Fin 4) (k : Fin 4) : ∃ i : Fin 4, (qb'.setIfInBounds p qb[j])[k] = qb[i] := by
  simp only [Fin.getElem_fin, Vector.getElem_setIfInBounds]
  split_ifs
  · exact ⟨j, rfl⟩
  · exact h k

theorem unpermute_mem (qb : Vector Quadrant 4) (p0 p1 p2 p3 : Nat) (k : Fin 4) : ∃ j : Fin 4,
    (unpermuteQuadrants qb p0 p1 p2 p3)[k] = qb[j] :=
  setIfInBounds_mem (setIfInBounds_mem (setIfInBounds_mem (setIfInBounds_mem (fun k => ⟨k,
      rfl⟩) p0 0) p1 1) p2 2) p3 3 k

theorem splitRegion_size (s : State) (hN : s.count ≤ s.cfg.pmMax) (k : Fin 4) : (s.splitRegion k).rows *
    (s.splitRegion k).cols ≤ s.cfg.pmMax :=
  (region_size_le (by omega) (by omega) k).trans hN

theorem effectOf_inv {i : Instr} {s t : State} (h : s.Inv) (he : effectOf i s = .ok t) : t.Inv := by
  cases i <;> simp only [effectOf] at he
  case sysNop => cases he; exact h
  case sysClrerr => cases he; exact clearError_inv h
  case sysSreset => cases he; exact softReset_inv h
  case bpcEmbed b =>
    rcases embedEffect_cases b s.dblen.toNat (rawPayload s) s with ⟨-, e⟩ | ⟨-, -, e⟩ | ⟨-, -, -, e⟩ | ⟨-, -, -, -,
        e⟩ | ⟨-, hN, -, -, e⟩ <;> rw [e] at he <;> cases he
    exact writeBits_inv _ _ hN h
  case bpcEmbedf b =>
    rcases embedEffect_cases b (s.dblen.toNat + 4) (framedPayload s) s with ⟨-, e⟩ | ⟨-, -, e⟩ | ⟨-, -, -, e⟩ | ⟨-, -,
        -, -, e⟩ | ⟨-, hN, -, -, e⟩ <;> rw [e] at he <;> cases he
    exact writeBits_inv _ _ hN h
  case bpcExtract b =>
    rcases extractEffect_cases b s with ⟨-, e⟩ | ⟨-, -, e⟩ | ⟨-, -, -, e⟩ | ⟨⟨hb, hb4⟩, hN, hc, e⟩ <;> rw [e] at he
        <;> cases he
    refine db_inv _ _ (Memory.wf_load h.memories.2.1 ?_) h
    have := capacity_dbMax hb4 hN hc
    have hl := length_readBits (order := s.order) (n := s.numbits.toNat) (b := b) (pm := s.pm) hb
        (by rw [s.length_order]; exact hc)
    have hle := le_ceilDiv_mul s.numbits.toNat (b := 8) (by decide)
    rw [length_pack, List.length_append, hl, List.length_replicate]; omega
  case bpcExtractf b =>
    rcases extractfEffect_cases b s with ⟨-, e⟩ | ⟨-, -, e⟩ | ⟨-, -, -, e⟩ | ⟨-, -, -, -, e⟩ | ⟨⟨hb, hb4⟩, hN, hc, e⟩
        <;> rw [e] at he <;> cases he
    refine db_inv _ _ (Memory.wf_load h.memories.2.1 ?_) h
    have := capacity_dbMax hb4 hN hc
    have hl := length_readBits (order := s.order) (n := 32 + 8 * headerLength b s) (b := b) (pm := s.pm) hb
        (by rw [s.length_order]; exact hc)
    have hc2 : ceilDiv (32 + 8 * headerLength b s) 8 = 4 + headerLength b s := by unfold ceilDiv; omega
    rw [length_pack, List.length_drop, hl]; omega
  case mleaEnc | mleaDec =>
    rcases cipherEffect_cases _ s with ⟨-, e⟩ | ⟨-, -, e⟩ | ⟨hL, -, e⟩ <;> rw [e] at he <;> cases he
    refine db_inv s.dblen s.hdrlen (Memory.wf_writeAll h.memories.2.1 fun w hw => ?_) h
    obtain ⟨i, hi, rfl⟩ := List.mem_map.1 hw
    exact (List.mem_range.1 hi).trans_le hL
  case bpePerm p0 p1 p2 p3 =>
    rcases reorderEffect_cases p0 p1 p2 p3 _ s with ⟨-, e⟩ | ⟨-, -, e⟩ | ⟨-, hq, e⟩ <;> rw [e] at he <;> cases he
    exact quadrants_inv hq (permute_mem _ _ _ _ _) h
  case bpeUnperm p0 p1 p2 p3 =>
    rcases reorderEffect_cases p0 p1 p2 p3 _ s with ⟨-, e⟩ | ⟨-, -, e⟩ | ⟨-, hq, e⟩ <;> rw [e] at he <;> cases he
    exact quadrants_inv hq (unpermute_mem _ _ _ _ _) h
  case bpeSplit =>
    rcases splitEffect_cases s with ⟨-, e⟩ | ⟨hN, e⟩ <;> rw [e] at he <;> cases he
    refine ⟨⟨h.memories.1, h.memories.2.1, fun k => ?_⟩, fun k => ?_, h.errors, fun hq' => (by cases hq'), h.responses⟩
    · simp only [getElem_split]
      refine Memory.wf_writeAll (h.memories.2.2 k) fun w hw => ?_
      obtain ⟨x, hx, rfl⟩ := List.mem_map.1 hw
      obtain ⟨r, hr, c, hc, rfl⟩ := mem_cells.1 hx
      exact (flat_lt hr hc).trans_le (splitRegion_size s hN k)
    · simp only [getElem_split]
      rw [(splitQuadrant_shape s k).1, (splitQuadrant_shape s k).2]
      exact splitRegion_size s hN k
  case bpeMerge =>
    rcases mergeEffect_cases s with ⟨-, e⟩ | ⟨-, -, e⟩ | ⟨-, -, -, e⟩ | ⟨hN, -, hf, e⟩ <;> rw [e] at he <;> cases he
    refine pm_inv (Memory.wf_writeAll h.memories.1 fun w hw => ?_) h
    have : w.1 ∈ (mergeWrites s).map Prod.fst := List.mem_map_of_mem hw
    rw [map_fst_mergeWrites] at this
    have := (regions_perm_range hf.1.1 hf.1.2).mem_iff.1 this
    exact (List.mem_range.1 this).trans_le hN

theorem exec_inv {i : Instr} {s t : State} (h : s.Inv) (he : exec i s = .next t) : t.Inv := by
  rcases exec_cases he with ⟨-, -, -, rfl⟩ | ⟨-, rfl, rfl⟩ | ⟨-, rfl, rfl⟩ | ⟨-, he⟩ | ⟨-, c, hc, rfl⟩
  · exact h
  · exact clearError_inv h
  · exact softReset_inv h
  · exact effectOf_inv h he
  · exact errorEntry_inv _ (effectOf_error hc) h

theorem busWrite_inv {s t : State} {off n : Nat} {v : Word} (h : s.Inv) (hw : busWrite s off n v = some t) : t.Inv := by
  rcases busWrite_cases hw with rfl | ⟨d, rfl⟩ | ⟨d, rfl⟩ | ⟨d, rfl⟩ | ⟨d, rfl⟩ | ⟨d, rfl⟩ | ⟨i, b, hi, rfl⟩ | ⟨i, b,
      hi, rfl⟩ | ⟨i, b, hi, rfl⟩
  · exact h
  · exact ⟨h.memories, h.fit, h.errors, h.unsplit, h.responses⟩
  · exact ⟨h.memories, h.fit, h.errors, h.unsplit, h.responses⟩
  · exact ⟨h.memories, h.fit, h.errors, h.unsplit, h.responses⟩
  · exact ⟨h.memories, h.fit, h.errors, h.unsplit, h.responses⟩
  · exact ⟨h.memories, h.fit, h.errors, h.unsplit, h.responses⟩
  · exact ⟨h.memories, h.fit, h.errors, h.unsplit, h.responses⟩
  · exact db_inv s.dblen s.hdrlen (Memory.wf_write b h.memories.2.1 hi) h
  · exact pm_inv (Memory.wf_write b h.memories.1 hi) h

/-! ## The draws of the quadrant buffers -/

/-- A command leaves every quadrant buffer on a draw that one of the buffers had (R122 moves whole buffers; R48, entry 1). -/
theorem exec_qbDraw {i : Instr} {s t : State} (h : exec i s = .next t) (k : Fin 4) :
    ∃ j : Fin 4, t.qb[k].data.draw = s.qb[j].data.draw := by
  have moved {qb : Vector Quadrant 4} (hm : ∃ j : Fin 4, qb[k] = s.qb[j]) :
      ∃ j : Fin 4, qb[k].data.draw = s.qb[j].data.draw := hm.imp fun j hj => by rw [hj]
  rcases exec_cases h with ⟨-, -, -, rfl⟩ | ⟨-, rfl, rfl⟩ | ⟨-, rfl, rfl⟩ | ⟨-, he⟩ | ⟨-, c, -, rfl⟩
  · exact ⟨k, rfl⟩
  · exact ⟨k, rfl⟩
  · exact ⟨k, by rw [softReset_qb]⟩
  · cases i <;>
      simp only [effectOf, embedEffect, extractEffect, extractfEffect, cipherEffect, splitEffect, reorderEffect,
        mergeEffect] at he
    case sysSreset => cases he; exact ⟨k, by rw [softReset_qb]⟩
    case bpeSplit =>
      split_ifs at he; cases he
      exact ⟨k, by simp only [getElem_split]; exact Memory.writeAll_draw _ _⟩
    case bpePerm => split_ifs at he; cases he; exact moved (permute_mem _ _ _ _ _ k)
    case bpeUnperm => split_ifs at he; cases he; exact moved (unpermute_mem _ _ _ _ _ k)
    case sysNop | sysClrerr => cases he; exact ⟨k, rfl⟩
    all_goals split_ifs at he; cases he; exact ⟨k, rfl⟩
  · exact ⟨k, rfl⟩

end Sys2Proof.Machine
end

