-- ==== Sys2Proof/Laws/PerInstr.lean ====
section
/-! SUPPORT. Statements made once per constructor of `Instr`, one lemma each. -/

namespace Sys2Proof.Laws.Row

/-- The command's word matches the row of the opcode table that bears its name (30_encoding.md R97). -/
def Statement (i : Instr) : Prop := ∃ r ∈ opcodeTable, encode i &&& r.mask = r.pattern ∧ r.mnemonic = i.mnemonic

theorem sysNop : Statement .sysNop :=
  ⟨opcodeTable[0], List.getElem_mem _, encodeN_row rfl, rfl⟩

theorem sysClrerr : Statement .sysClrerr :=
  ⟨opcodeTable[1], List.getElem_mem _, encodeN_row rfl, rfl⟩

theorem sysSreset : Statement .sysSreset :=
  ⟨opcodeTable[2], List.getElem_mem _, encodeN_row rfl, rfl⟩

theorem bpcEmbed (bpp : Nat) : Statement (.bpcEmbed bpp) :=
  ⟨opcodeTable[3], List.getElem_mem _, encodeB_row bpp rfl, rfl⟩

theorem bpcExtract (bpp : Nat) : Statement (.bpcExtract bpp) :=
  ⟨opcodeTable[4], List.getElem_mem _, encodeB_row bpp rfl, rfl⟩

theorem bpcEmbedf (bpp : Nat) : Statement (.bpcEmbedf bpp) :=
  ⟨opcodeTable[5], List.getElem_mem _, encodeB_row bpp rfl, rfl⟩

theorem bpcExtractf (bpp : Nat) : Statement (.bpcExtractf bpp) :=
  ⟨opcodeTable[6], List.getElem_mem _, encodeB_row bpp rfl, rfl⟩

theorem mleaEnc : Statement .mleaEnc :=
  ⟨opcodeTable[7], List.getElem_mem _, encodeN_row rfl, rfl⟩

theorem mleaDec : Statement .mleaDec :=
  ⟨opcodeTable[8], List.getElem_mem _, encodeN_row rfl, rfl⟩

theorem bpeSplit : Statement .bpeSplit :=
  ⟨opcodeTable[9], List.getElem_mem _, encodeN_row rfl, rfl⟩

theorem bpePerm (p0 p1 p2 p3 : Nat) : Statement (.bpePerm p0 p1 p2 p3) :=
  ⟨opcodeTable[10], List.getElem_mem _, encodeP_row p0 p1 p2 p3 rfl, rfl⟩

theorem bpeUnperm (p0 p1 p2 p3 : Nat) : Statement (.bpeUnperm p0 p1 p2 p3) :=
  ⟨opcodeTable[11], List.getElem_mem _, encodeP_row p0 p1 p2 p3 rfl, rfl⟩

theorem bpeMerge : Statement .bpeMerge :=
  ⟨opcodeTable[12], List.getElem_mem _, encodeN_row rfl, rfl⟩

end Sys2Proof.Laws.Row
end

