-- ==== Sys2Proof/Laws/Pipeline.lean ====
section
/-! SUPPORT. Sequences of commands: the shuffle and the unshuffle of a plane as one fact each, and when two planes give
the same bits. -/

namespace Sys2Proof.Machine

/-- shuffle by p: split; perm; merge from any state on an even plane -/
theorem execSeq_append (a b : List Instr) {s t : State} (h : execSeq a s = .next t) : execSeq
    (a ++ b) s = execSeq b t := by
  induction a generalizing s with
  | nil => simp only [execSeq, Host.Outcome.next.injEq] at h; subst h; rfl
  | cons i is ih =>
    simp only [List.cons_append, execSeq] at h ⊢
    cases hx : exec i s with
    | next u => rw [hx] at h; exact ih h
    | fault f => rw [hx] at h; cases h
    | refused f => rw [hx] at h; cases h

theorem merge_frame {s u : State} (he : s.err = false) (h : execSeq [.bpeMerge] s = .next u)
    (hu : u.err = false) : u = { s with pm := u.pm } := by
  have h : exec .bpeMerge s = .next u := by
    simp only [execSeq] at h
    cases hx : exec .bpeMerge s with
    | next u => rw [hx] at h; exact h
    | fault f => rw [hx] at h; cases h
    | refused f => rw [hx] at h; cases h
  have := effectOf_of he h hu
  rcases mergeEffect_cases s with ⟨-, e⟩ | ⟨-, -, e⟩ | ⟨-, -, -, e⟩ | ⟨-, -, -, e⟩ <;> rw [effectOf, e] at this
      <;> cases this
  rfl

/-- What a shuffle (by `f`) leaves. -/
def shuffled (s u : State) (f : Fin 4 → Fin 4) : Prop :=
   u = { s with pm := u.pm, qb := u.qb, splitpt := u.splitpt, qv := u.qv } ∧
     (∀ i : Fin 4, ∀ r < s.height / 2, ∀ c < s.width / 2,
        u.pm.read (((s.splitRegion i).r0 + r) * s.width + (s.splitRegion i).c0 + c)
          = s.pm.read (((s.splitRegion (f i)).r0 + r) * s.width + (s.splitRegion (f i)).c0 + c)) ∧
     ∀ j, s.count ≤ j → u.pm.read j = s.pm.read j

theorem shuffle (s : State) (p : Equiv.Perm (Fin 4)) (he : s.err = false) (hN : s.count ≤ s.cfg.pmMax)
    (h1 : s.height % 2 = 0) (h2 : s.width % 2 = 0) :
    ∃ u, execSeq [.bpeSplit, .bpePerm (p 0) (p 1) (p 2) (p 3), .bpeMerge] s = .next u ∧ shuffled s u p := by
  set t0 : State := { splitState s with qb := permuteQuadrants (splitState s).qb (p 0) (p 1) (p 2) (p 3) } with ht0
  obtain ⟨t, ht, hte, htd, htc, htr,
      htb⟩ := shuffle_merge (s := s) (t := t0) p he hN h1 h2 rfl (fun i => (permute_eq _ p i).trans (splitState_qb s _))
  refine ⟨t, ?_, ?_, htr, htb⟩
  · rw [execSeq_cons (exec_split he hN), execSeq_cons (exec_perm (s := splitState s) he rfl p)]; exact ht
  · have := merge_frame (s := t0) he ht hte
    rw [this]; rfl

theorem unshuffle (s : State) (p : Equiv.Perm (Fin 4)) (he : s.err = false) (hN : s.count ≤ s.cfg.pmMax)
    (h1 : s.height % 2 = 0) (h2 : s.width % 2 = 0) :
    ∃ u, execSeq [.bpeSplit, .bpeUnperm (p 0) (p 1) (p 2) (p 3), .bpeMerge] s = .next u ∧ shuffled s u p.symm := by
  obtain ⟨u, h, h'⟩ := shuffle s p.symm he hN h1 h2
  refine ⟨u, ?_, h'⟩
  rw [execSeq_cons (exec_split he hN), execSeq_cons (exec_unperm (s := splitState s) he rfl p), unperm_symm]
  rw [execSeq_cons (exec_split he hN), execSeq_cons (exec_perm (s := splitState s) he rfl p.symm)] at h
  exact h

/-- Two planes of one size shuffled by inverse permutations: the second undoes the first, on the plane. -/
theorem shuffled_back {s u t v : State} {p : Equiv.Perm (Fin 4)} (h1 : s.height % 2 = 0) (h2 : s.width % 2 = 0)
    (h : shuffled s u p) (h' : shuffled t v p.symm) (hd : t.dims = s.dims)
   (hpm : ∀ j < s.count, t.pm.read j = u.pm.read j) (j : Nat) (hj : j < s.count) : v.pm.read j = s.pm.read j := by
  obtain ⟨k, r, hr, c, hc, rfl⟩ := exists_region (h2 := s.height/2) (w2 := s.width/2) (by omega) (by omega) hj
  change r < (s.splitRegion k).rows at hr
  change c < (s.splitRegion k).cols at hc
  rw [(even_region h1 h2 k).1] at hr
  rw [(even_region h1 h2 k).2] at hc
  have hH := State.height_congr hd
  have hW := State.width_congr hd
  have hR : ∀ k, t.splitRegion k = s.splitRegion k := fun k => by simp only [State.splitRegion, hH, hW]
  have a := h'.2.1 k r (by rw [hH]; exact hr) c (by rw [hW]; exact hc)
  rw [hR, hR, hW] at a
  refine a.trans ((hpm _ ?_).trans ?_)
  · exact region_lt (by omega) (by omega)
        (by rw [show (region s.height s.width (s.height/2) (s.width/2) (p.symm k)).rows = s.height/2 from
            (even_region h1 h2 _).1]; exact hr)
                (by rw [show (region s.height s.width (s.height/2) (s.width/2) (p.symm k)).cols = s.width/2 from
                    (even_region h1 h2 _).2]; exact hc)
  · have := h.2.1 (p.symm k) r hr c hc
    simp only [Equiv.apply_symm_apply] at this
    exact this

theorem order_congr {s t : State} (hc : t.cfg = s.cfg) (hd : t.dims = s.dims) : t.order = s.order := by
  rw [State.order, State.order, State.count_congr hd, hc]

theorem planeBit_congr {s t : State} {b m : Nat} (hc : t.cfg = s.cfg) (hd : t.dims = s.dims) (hpm : ∀ j < s.count,
    t.pm.read j = s.pm.read j) (hb : 0 < b) (hm : m < s.capacity b) : planeBit t b m = planeBit s b m := by
  have hk : m / b < s.order.length := by rw [s.length_order]; exact (Nat.div_lt_iff_lt_mul hb).2 hm
  rw [planeBit, planeBit, order_congr hc hd, List.getD_eq_getElem _ _ hk, hpm _ (s.mem_order.1 (List.getElem_mem hk))]

theorem readBits_congr {s t : State} {b n : Nat} (hc : t.cfg = s.cfg) (hd : t.dims = s.dims)
    (hpm : ∀ j < s.count, t.pm.read j = s.pm.read j) (hb : 0 < b) (hn : n ≤ s.capacity b) :
        readBits t.order n b t.pm = readBits s.order n b s.pm := by
  have hcap : t.capacity b = s.capacity b := by rw [State.capacity, State.capacity, State.count_congr hd]
  refine List.ext_getElem? fun m => ?_
  by_cases h : m < n
  · rw [getElem?_readBits_order hb hn h, getElem?_readBits_order hb (by rw [hcap]; exact hn) h,
        planeBit_congr hc hd hpm hb (by omega)]
  · rw [List.getElem?_eq_none (l := readBits t.order n b t.pm)
        (by rw [length_readBits_order hb (by rw [hcap]; exact hn)]; omega), List.getElem?_eq_none
            (by rw [length_readBits_order hb hn]; omega)]

end Sys2Proof.Machine
end

