-- ==== Sys2Proof/Laws/Words.lean ====
section
/-! SUPPORT. The words the statements write out (`wordB`, `wordP`) are the encodings, and decode. -/

namespace Sys2Proof.Machine

/-- The word of a format B command is its encoding (R92, R101). -/
theorem wordB_eq (op : Byte) {b : Nat} (hb : b < 16) : wordB op.toNat b = encodeB op b := by
  have := op.isLt
  refine BitVec.eq_of_toNat_eq ?_
  rw [toNat_encodeB, wordB, BitVec.toNat_ofNat]
  omega

/-- The word of a format P command is its encoding (R93, R101). -/
theorem wordP_eq (op : Byte) {p0 p1 p2 p3 : Nat} (h0 : p0 < 16) (h1 : p1 < 16) (h2 : p2 < 16) (h3 : p3 < 16) :
    wordP op.toNat p0 p1 p2 p3 = encodeP op p0 p1 p2 p3 := by
  have := op.isLt
  refine BitVec.eq_of_toNat_eq ?_
  rw [toNat_encodeP, wordP, BitVec.toNat_ofNat]
  omega

theorem decode_wordB (op : Byte) (mk : Nat → Instr) {b : Nat} (hb : b < 16)
    (h : ∀ w, opcodeField w = op.toNat → decode w = decodeB w mk) : decode (wordB op.toNat b) = .ok (mk b) := by
  rw [wordB_eq op hb, h _ (opcodeField_encodeB op b)]
  exact decodeB_encodeB op mk hb

theorem decode_wordP (op : Byte) (mk : Nat → Nat → Nat → Nat → Instr) {p0 p1 p2 p3 : Nat} (h0 : p0 < 16) (h1 : p1 < 16)
    (h2 : p2 < 16) (h3 : p3 < 16) (h : ∀ w, opcodeField w = op.toNat → decode w = decodeP w mk) :
    decode (wordP op.toNat p0 p1 p2 p3) = .ok (mk p0 p1 p2 p3) := by
  rw [wordP_eq op h0 h1 h2 h3, h _ (opcodeField_encodeP op p0 p1 p2 p3)]
  exact decodeP_encodeP op mk h0 h1 h2 h3

end Sys2Proof.Machine
end

