-- ==== Sys2Proof/Tests/Slice0.lean ====
section
/-! SUPPORT. Tests of the model on values of the spec (95_test_vectors.md and the worked examples of the rules; nothing
here is a value the model gave), and one witness per statement that has hypotheses: concrete states and operands that
meet all of them together, clause by clause, at the boundaries. -/

open Sys2Proof Sys2Proof.Machine

namespace Sys2Proof.Tests

/-! ## Helpers -/

/-- What a result's next state shows through `f`. -/
def shows {α : Type} (r : Result) (f : State → α) : Option α :=
  match r with
  | .next t => some (f t)
  | .fault _ => none
  | .refused _ => none

/-- The response the next step records. -/
def response (s : State) (a : Access) : Option Response :=
  (shows (step { s with pending := [.access a] }) fun t => t.results.head?).join

/-- An `h` by `w` plane holding `bytes`, everything else as after reset. -/
def plane (h w : Half) (bytes : List Byte) : State :=
  { State.reset with dims := ⟨h, w⟩, pm := State.reset.pm.load bytes }

/-- `s` with `bytes` in DB and their number in DBLEN. -/
def withData (s : State) (bytes : List Byte) : State :=
  { s with db := s.db.load bytes, dblen := BitVec.ofNat 32 bytes.length }

/-- `s` with a 2-byte digest. -/
def withKey (s : State) (k0 k1 : Byte) : State := { s with kd := kdWrite (kdWrite s.kd 0 k0) 1 k1, kdlen := 2 }

/-- A quadrant of the given shape and samples. -/
def quad (r c : Half) (bytes : List Byte) : Quadrant := ⟨⟨r, c⟩, State.reset.pm.load bytes⟩

/-- The first `n` bytes of PM and of DB, and the first samples of each quadrant, as numbers. -/
def pmBytes (n : Nat) (s : State) : List Nat := (s.pm.bytes n).map BitVec.toNat
def dbBytes (n : Nat) (s : State) : List Nat := (s.db.bytes n).map BitVec.toNat
def qbBytes (n : Nat) (s : State) : List (List Nat) :=
  positions.map fun k => ((s.qb[k].data.bytes n).map BitVec.toNat)
def qdims (s : State) : List Word := positions.map fun k => s.qb[k].shape.toWord

/-- STATUS, ERRCODE, ERRREQH, ERRREQL, ERRAVAIL, ERRCMD. -/
def errors (s : State) : List Word :=
  [statusWord s, errCodeWord s, s.errReqH, s.errReqL, s.errAvail, s.errCmd]

/-- Plane A of section 2.4: 4 by 4, `PM[i] = 0x80 + i`. -/
def planeA : State :=
  plane 4 4 [0x80, 0x81, 0x82, 0x83, 0x84, 0x85, 0x86, 0x87, 0x88, 0x89, 0x8A, 0x8B, 0x8C, 0x8D, 0x8E, 0x8F]

/-- Plane C of section 2.4: 4 by 8. -/
def planeC : State :=
  plane 4 8 ([0x10, 0x11, 0x12, 0x13, 0x14, 0x15, 0x16, 0x17, 0x20, 0x21, 0x22, 0x23, 0x24, 0x25, 0x26, 0x27] ++
    [0x30, 0x31, 0x32, 0x33, 0x34, 0x35, 0x36, 0x37, 0x40, 0x41, 0x42, 0x43, 0x44, 0x45, 0x46, 0x47])

/-- The plane V-BPC-18 embeds into plane C: header 4, then DE AD BE EF, at 2 bits per pixel. -/
def planeCEmbedded : State :=
  plane 4 8 ([0x10, 0x10, 0x10, 0x10, 0x14, 0x14, 0x14, 0x14, 0x20, 0x20, 0x20, 0x20, 0x24, 0x25, 0x24, 0x24] ++
    [0x33, 0x33, 0x31, 0x33, 0x36, 0x37, 0x37, 0x35, 0x42, 0x42, 0x43, 0x42, 0x46, 0x47, 0x46, 0x47])

/-- The plane of section 1.1: 10, 20, ..., 160. -/
def planeS : State := plane 4 4 [10, 20, 30, 40, 50, 60, 70, 80, 90, 100, 110, 120, 130, 140, 150, 160]

/-- Section 1.1 after `bpe.split`. -/
def split11 : State :=
  { planeS with
    qv := true, splitpt := ⟨2, 2⟩
    qb := #v[quad 2 2 [10, 20, 50, 60], quad 2 2 [30, 40, 70, 80], quad 2 2 [90, 100, 130, 140],
             quad 2 2 [110, 120, 150, 160]] }

/-- Section 1.1 after `bpe.perm 2,0,3,1`. -/
def perm11 : State :=
  { split11 with
    qb := #v[quad 2 2 [90, 100, 130, 140], quad 2 2 [10, 20, 50, 60], quad 2 2 [110, 120, 150, 160],
             quad 2 2 [30, 40, 70, 80]] }

/-- A state in which every command may run: 4 by 4, two bytes of data, a 2-byte digest, a completed split. -/
def ready : State := withKey (withData { split11 with numbits := 48 } [0xC3, 0x5A]) 0xA5 0x5A

/-! ## Well-formedness: an ill-formed term for each check -/

theorem test_wf_refuses_bpp : [Instr.bpcEmbed 16, .bpcExtract 16, .bpcEmbedf 16, .bpcExtractf 99].all
    (fun i => !i.wellFormed) = true := by decide

theorem test_wf_refuses_p : [Instr.bpePerm 16 0 0 0, .bpePerm 0 16 0 0, .bpePerm 0 0 16 0, .bpePerm 0 0 0 16,
    .bpeUnperm 16 0 0 0, .bpeUnperm 0 16 0 0, .bpeUnperm 0 0 16 0, .bpeUnperm 0 0 0 16].all
    (fun i => !i.wellFormed) = true := by decide

theorem test_wf_accepts : [Instr.sysNop, .sysClrerr, .sysSreset, .bpcEmbed 0, .bpcExtract 15, .bpcEmbedf 5, .bpcExtractf 4,
    .mleaEnc, .mleaDec, .bpeSplit, .bpePerm 15 15 15 15, .bpeUnperm 0 0 0 0, .bpeMerge].all Instr.wellFormed = true := by
  decide

/-! ## Decoding: words written out from the format tables of R91 to R93 (V-ENC, V-ILL) -/

theorem test_decode_N :
    decode 0b00000000000000000000000000000000 = .ok .sysNop ∧
    decode 0b00000000000000000000000000000001 = .ok .sysClrerr ∧
    decode 0b00000000000000000000000000000010 = .ok .sysSreset ∧
    decode 0b00000000000000000000000000100000 = .ok .mleaEnc ∧
    decode 0b00000000000000000000000000100001 = .ok .mleaDec ∧
    decode 0b00000000000000000000000000110000 = .ok .bpeSplit ∧
    decode 0b00000000000000000000000000110011 = .ok .bpeMerge := by decide

theorem test_decode_B :
    decode 0b00000000000000000000_0001_00010000 = .ok (.bpcEmbed 1) ∧
    decode 0b00000000000000000000_0011_00010001 = .ok (.bpcExtract 3) ∧
    decode 0b00000000000000000000_0010_00010010 = .ok (.bpcEmbedf 2) ∧
    decode 0b00000000000000000000_1111_00010011 = .ok (.bpcExtractf 15) ∧
    decode 0b00000000000000000000_0000_00010000 = .ok (.bpcEmbed 0) := by decide

theorem test_decode_P :
    decode 0b00000000_0001_0011_0000_0010_00110001 = .ok (.bpePerm 2 0 3 1) ∧
    decode 0b00000000_0000_0011_0010_0001_00110001 = .ok (.bpePerm 1 2 3 0) ∧
    decode 0b00000000_0001_0011_0000_0010_00110010 = .ok (.bpeUnperm 2 0 3 1) := by decide

theorem test_decode_unknown : [(0x00000003 : Word), 0x00000014, 0x00000022, 0x00000034, 0xFFFFFFFF].all
    (fun w => decode w = .error .unknownOpcode) = true := by decide

theorem test_decode_reserved : [(0x00000100 : Word), 0x00001110, 0x01130231, 0x80000020].all
    (fun w => decode w = .error .reservedBit) = true := by decide

theorem test_encode : encode (.bpePerm 1 0 3 2) = 0x00230131 ∧ encode (.bpcExtractf 4) = 0x00000413 ∧
    encode .bpeMerge = 0x00000033 := by decide

theorem test_decodeTableWord : decodeTableWord 32 0x00130232 = some (.bpeUnperm 2 0 3 1) ∧
    decodeTableWord 32 0x00001110 = none := by decide

/-! ## SYS (2.6) -/

/-- The state of V-SYS-2. -/
def errState : State :=
  { split11 with err := true, errCode := 0x02, errSub := 0x01, errReqL := 0x48, errAvail := 0x40, errCmd := 0x00000212 }

theorem test_nop : shows (exec .sysNop errState) errors = some [0x3, 0x0102, 0, 0x48, 0x40, 0x00000212] := by decide

theorem test_clrerr : shows (exec .sysClrerr errState) (fun t => (errors t, t.splitpt.toWord)) =
    some ([0x2, 0, 0, 0, 0, 0], 0x00020002) := by decide

theorem test_sreset : shows (exec .sysSreset ready)
    (fun t => (errors t ++ [t.dims.toWord, t.kdlen] ++ qdims t, (kdRead t.kd 0).toNat :: pmBytes 4 t)) =
    some ([0, 0, 0, 0, 0, 0, 0, 0, 0, 0, 0, 0], [0, 10, 20, 30, 40]) := by decide

/-! ## BPC (2.4) -/

/-- V-BPC-3. -/
theorem test_embed : shows (exec (.bpcEmbed 3) (withData planeA [0xC3, 0x5A])) (pmBytes 16) =
    some [0x80, 0x86, 0x80, 0x83, 0x85, 0x85, 0x86, 0x87, 0x88, 0x88, 0x8A, 0x8B, 0x8D, 0x8D, 0x8E, 0x8E] := by decide

/-- V-BPC-7: one byte more than the plane holds. -/
theorem test_embed_capacity : shows (exec (.bpcEmbed 1) (withData planeA [0xFF, 0xFF, 0xFF])) errors =
    some [0x1, 0x0102, 0, 0x18, 0x10, 0x00000110] := by decide

/-- V-BPC-14: 13 bits of the plane V-BPC-3 gives, over eight bytes 11. -/
theorem test_extract : shows (exec (.bpcExtract 3) (withData { plane 4 4 [0x80, 0x86, 0x80, 0x83, 0x85, 0x85, 0x86, 0x87,
      0x88, 0x88, 0x8A, 0x8B, 0x8D, 0x8D, 0x8E, 0x8E] with numbits := 13 } (List.replicate 8 0x11)))
    (fun t => (dbBytes 3 t, t.dblen)) = some ([0xC3, 0x58, 0x11], 2) := by decide

/-- V-BPC-17. -/
theorem test_extract_capacity : shows (exec (.bpcExtract 3) { planeA with numbits := 49 }) errors =
    some [0x1, 0x0202, 0, 0x31, 0x30, 0x00000311] := by decide

/-- V-BPC-18. -/
theorem test_embedf : shows (exec (.bpcEmbedf 2) (withData planeC [0xDE, 0xAD, 0xBE, 0xEF]))
    (fun t => (pmBytes 32 t, dbBytes 4 t, t.dblen)) =
    some (pmBytes 32 planeCEmbedded, [0xDE, 0xAD, 0xBE, 0xEF], 4) := by decide

/-- V-BPC-21. -/
theorem test_embedf_capacity : shows (exec (.bpcEmbedf 2) (withData planeC [0xDE, 0xAD, 0xBE, 0xEF, 0x99])) errors =
    some [0x1, 0x0102, 0, 0x48, 0x40, 0x00000212] := by decide

/-- V-BPC-19. -/
theorem test_extractf : shows (exec (.bpcExtractf 2) (withData planeCEmbedded [0, 0, 0, 0, 0]))
    (fun t => (dbBytes 5 t, t.dblen, t.hdrlen)) = some ([0xDE, 0xAD, 0xBE, 0xEF, 0], 4, 4) := by decide

/-- V-BPC-27: the largest figure. -/
theorem test_extractf_framing : shows (exec (.bpcExtractf 2) (plane 4 8 (List.replicate 32 0xFF))) errors =
    some [0x1, 0x0103, 0x8, 0x18, 0x40, 0x00000213] := by decide

/-- The table of visiting orders. -/
theorem test_order : visitingOrder Config.default.pat 6 = [2, 1, 4, 5, 3, 0] ∧
    visitingOrder Config.default.pat 17 = [15, 2, 1, 12, 4, 9, 10, 7, 8, 5, 6, 11, 3, 14, 13, 0, 16] := by decide

/-! ## MLEA (2.5) -/

/-- V-MLEA-1. -/
theorem test_enc : shows (exec .mleaEnc (withKey (withData State.reset [0x48, 0x69, 0x21]) 0xA5 0x5A)) (dbBytes 3) =
    some [0x3C, 0xA7, 0xC1] := by decide

/-- V-MLEA-11: DBLEN is checked before KDLEN. -/
theorem test_enc_order : shows (exec .mleaEnc { State.reset with dblen := 0x00800001 }) errors =
    some [0x1, 0x0401, 0, 0, 0, 0x00000020] := by decide

/-- V-MLEA-7: the wrong digest gives other bytes and no error. -/
theorem test_dec : shows (exec .mleaDec (withKey (withData State.reset [0x3C, 0xA7, 0xC1]) 0xA5 0x5B))
    (fun t => (dbBytes 3 t, statusWord t)) = some ([0x48, 0xE1, 0x21], 0) := by decide

/-- V-MLEA-10. -/
theorem test_dec_kdlen : shows (exec .mleaDec { State.reset with kdlen := 65 }) errors =
    some [0x1, 0x0501, 0, 0, 0, 0x00000021] := by decide

/-- Row 7_ of the tables of section 3. -/
theorem test_scramble : [(0x70 : Byte), 0x71, 0x7E, 0x7F].map scramble = [0xEE, 0xCE, 0x3F, 0x1F] ∧
    [(0x70 : Byte), 0x71, 0x7E, 0x7F].map unscramble = [0x83, 0x0B, 0xF4, 0x7C] := by decide

/-! ## BPE (1.1, 2.3) -/

/-- V-BPE-6: 3 by 4. -/
theorem test_split : shows (exec .bpeSplit (plane 3 4 [1, 2, 3, 4, 5, 6, 7, 8, 9, 10, 11, 12]))
    (fun t => ((qbBytes 2 t).take 2, (qbBytes 4 t).drop 2, qdims t, t.splitpt.toWord, statusWord t)) =
    some ([[1, 2], [3, 4]], [[5, 6, 9, 10], [7, 8, 11, 12]], [0x00010002, 0x00010002, 0x00020002, 0x00020002],
      0x00010002, 0x2) := by decide

/-- V-BPE-18. -/
theorem test_split_dims : shows (exec .bpeSplit { State.reset with dims := ⟨0x1001, 0x1000⟩ }) errors =
    some [0x1, 0x0301, 0, 0, 0, 0x00000030] := by decide

/-- Section 1.1. -/
theorem test_perm : shows (exec (.bpePerm 2 0 3 1) split11) (qbBytes 4) = some (qbBytes 4 perm11) := by decide

/-- V-BPE-12: the permutation is checked before QV. -/
theorem test_perm_invalid : shows (exec (.bpePerm 0 0 3 1) State.reset) errors =
    some [0x1, 0x0201, 0, 0, 0, 0x00130031] := by decide

/-- Section 1.1. -/
theorem test_unperm : shows (exec (.bpeUnperm 2 0 3 1) perm11) (qbBytes 4) = some (qbBytes 4 split11) := by decide

/-- R123, R212: no split yet. -/
theorem test_unperm_qv : shows (exec (.bpeUnperm 2 0 3 1) State.reset) errors =
    some [0x1, 0x0105, 0, 0, 0, 0x00130232] := by decide

/-- Section 1.1: the shuffle. -/
theorem test_merge : shows (exec .bpeMerge perm11) (pmBytes 16) =
    some [90, 100, 10, 20, 130, 140, 50, 60, 110, 120, 30, 40, 150, 160, 70, 80] := by decide

/-- V-BPE-16: DIMS changed after the split. -/
theorem test_merge_mismatch : shows (exec .bpeMerge { split11 with dims := ⟨4, 6⟩ }) errors =
    some [0x3, 0x0205, 0, 0, 0, 0x00000033] := by decide

/-! ## The bus (2.2) and the gate (2.6) -/

/-- V-BUS-1, 2, 8, 11, 19, 20. -/
theorem test_reads : [response State.reset (.read 0x00 4), response State.reset (.read 0x04 4),
    response State.reset (.read 0x13F 1), response State.reset (.read 0x200 1), response State.reset (.read 0x20F 1),
    response State.reset (.read 0x50 4), response State.reset (.read 0x54 4), response State.reset (.read 0x58 4),
    response State.reset (.read 0x48 4)] =
    [some (.okWord 0x49534301), some (.okWord 0), some (.okByte 0), some (.okByte 0x0F), some (.okByte 0),
     some (.okWord 0x01000000), some (.okWord 0x00800000), some (.okWord 0x10), some (.okWord 0xFFFFFFFF)] := by decide

/-- V-BUS-3 to 7, 9, 10, 12 to 14, 17, 18: each a BusError. -/
theorem test_bus_errors : [Access.read 0x02 4, .read 0x00 1, .read 0x44 2, .read 0x5C 4, .read 0xFC 4, .write 0x00 4 1,
    .write 0x08 4 0, .write 0x30 4 5, .write 0x48 4 5, .write 0x4C 4 5, .write 0x50 4 5, .read 0x100 4, .read 0x140 1,
    .read 0x210 1, .write 0x200 1 3, .read 0x300 1, .read 0x7FFFFF 1, .write 0x2000000 1 1, .read 0x6000000 1,
    .read 0xFFFFFFFF 1].all (fun a => response State.reset a == some .busError) = true := by decide

/-- V-BUS-15, 16: the last bytes of DB and PM. -/
theorem test_last_bytes : shows (step { State.reset with pending := [.access (.write 0xFFFFFF 1 0x77)] })
      (fun t => response t (.read 0xFFFFFF 1)) = some (some (.okByte 0x77)) ∧
    shows (step { State.reset with pending := [.access (.write 0x1FFFFFF 1 0x66)] })
      (fun t => response t (.read 0x1FFFFFF 1)) = some (some (.okByte 0x66)) := by decide

/-- V-BUS-21: VO(6) through VOIDX, then out of range. -/
theorem test_voidx : [(0 : Word), 1, 2, 3, 4, 5, 6].map
    (fun k => response { State.reset with dims := ⟨2, 3⟩, vok := k } (.read 0x48 4)) =
    [some (.okWord 2), some (.okWord 1), some (.okWord 4), some (.okWord 5), some (.okWord 3), some (.okWord 0),
     some (.okWord 0xFFFFFFFF)] := by decide

/-- V-SYS-4: ignored while an error is recorded. -/
theorem test_gate : [(0x20 : Word), 0x101, 0xFFFFFFFF, 0x30].all (fun w =>
    shows (step { errState with pending := [cmdWrite w] }) (fun t => (errors t, t.results)) ==
      some (errors errState, [.ok])) = true := by decide

/-- V-ILL-7, and the access that carries the word completes. -/
theorem test_illegal : shows (step { State.reset with pending := [cmdWrite 0x00001110] })
    (fun t => (errors t, t.results, t.cp)) = some ([0x1, 0x0204, 0, 0, 0, 0x00001110], [.ok], 1) := by decide

/-- A table word placed for the next step runs. -/
theorem test_withFetchWord : shows (step (State.reset.withFetchWord 32 0x00000030)) statusWord = some 0x2 := by decide

/-! ## Witnesses: for each statement with hypotheses, states and operands that meet them, clause by clause -/

/-- `s` about to make the `CMD` write of `w`. -/
def doing (w : Word) (s : State) : State := { s with pending := [cmdWrite w] }

/-- A small legal configuration: some of every window's range is unmapped. -/
def tiny : Config := ⟨16, 8, [0], by decide⟩

/-- The largest plane, 4096 by 4096, with the largest payload, 2^23 bytes: at 4 bits per pixel it fits exactly. -/
def full : State := { State.reset with dims := ⟨4096, 4096⟩, dblen := 0x00800000 }

/-- `ready` with a plane one row too large for PM_MAX. -/
def wide : State := { ready with dims := ⟨4097, 4096⟩ }

theorem witness_DecodeOfEncodeIsTheCommand : [Instr.sysNop, .bpcEmbed 0, .bpcExtractf 15, .bpePerm 0 0 0 0,
    .bpeUnperm 15 15 15 15].all Instr.wellFormed = true := by decide

theorem witness_EncodeOfDecodeIsTheWord : decode 0x00FFFF31 = .ok (.bpePerm 15 15 15 15) ∧
    decode 0x00000F13 = .ok (.bpcExtractf 15) := by decide

theorem witness_DecodeFollowsTheOpcodeTable :
    (opcodeTable[10] ∈ opcodeTable ∧ (0x00FFFF31 : Word) &&& opcodeTable[10].mask = opcodeTable[10].pattern) ∧
    decode 0x00FFFF31 = .ok (.bpePerm 15 15 15 15) ∧
    (doing 0xFFFFFFFF errState).err = true ∧ (0xFFFFFFFF : Word) ≠ 1 ∧ (0xFFFFFFFF : Word) ≠ 2 ∧
    (doing 0xFFFFFFFF errState).pending = cmdWrite 0xFFFFFFFF :: [] := by decide

theorem witness_WordsThatAreNoCommandRaiseIllegalCommand :
    ([(0x1110 : Word), 0x01000033, 0x03, 0xFFFFFFFF].all fun w => decide ((doing w ready).err = false ∧
      (doing w ready).pending = cmdWrite w :: [] ∧ ∀ r ∈ opcodeTable, w &&& r.mask ≠ r.pattern)) = true := by decide

theorem witness_ReservedOpcodesAreIllegalAndBadOperandsAreNot :
    ([(0x03 : Word), 0x0F, 0x14, 0x1F, 0x22, 0x2F, 0x34, 0xFF, 0xFFFFFF03].all fun w =>
      decide ((0x03 ≤ w.toNat % 256 ∧ w.toNat % 256 ≤ 0x0F) ∨ (0x14 ≤ w.toNat % 256 ∧ w.toNat % 256 ≤ 0x1F) ∨
        (0x22 ≤ w.toNat % 256 ∧ w.toNat % 256 ≤ 0x2F) ∨ (0x34 ≤ w.toNat % 256 ∧ w.toNat % 256 ≤ 0xFF)) &&
      decide ((doing w ready).pending = cmdWrite w :: [])) = true ∧
    (∀ b ∈ [0, 5, 15], b < 16 ∧ (b = 0 ∨ 5 ≤ b) ∧
      (doing (encode (.bpcEmbedf b)) ready).pending = cmdWrite (encode (.bpcEmbedf b)) :: []) ∧
    ¬[0, 0, 0, 0].Perm [0, 1, 2, 3] ∧ ¬[0, 1, 2, 15].Perm [0, 1, 2, 3] ∧
    (doing (encode (.bpePerm 0 1 2 15)) ready).pending = cmdWrite (encode (.bpePerm 0 1 2 15)) :: [] := by decide

theorem witness_CmdWriteRunsTheDecodedCommand :
    (doing 0x30 ready).pending = cmdWrite 0x30 :: [] ∧ decode 0x30 = .ok .bpeSplit ∧
    (doing 0x03 ready).pending = cmdWrite 0x03 :: [] ∧ decode 0x03 = .error .unknownOpcode ∧
    (doing 0x03 ready).err = false := by decide

theorem witness_EachAccessIsOneStepWithOneResult :
    (doing 0x30 ready).pending = cmdWrite 0x30 :: [] ∧
    (doing 0x30 ready).sameDevice { doing 0x30 ready with cp := 7, results := [.busError] } := ⟨rfl, rfl⟩

theorem witness_ProgramsEndAfterTheirLastAccess :
    State.reset.pending = ([] : List Access).map HostEvent.access ∧
    (doing 0x30 ready).pending = [Access.write 0x04 4 0x30].map HostEvent.access := ⟨rfl, rfl⟩

theorem witness_AccessesAreAcceptedExactlyAsTheMapSays :
    (accepted Config.default (.read 0x58 4) ∧ accepted Config.default (.read 0x20F 1) ∧
      accepted Config.default (.read 0x05FFFFFF 1) ∧ accepted Config.default (.write 0x44 4 0) ∧
      accepted Config.default (.write 0x00800000 1 0)) ∧
    ¬accepted Config.default (.read 0x5C 4) ∧ ¬accepted Config.default (.read 0x01 4) ∧
    ¬accepted Config.default (.read 0x210 1) ∧ ¬accepted Config.default (.read 0x06000000 1) ∧
    ¬accepted Config.default (.write 0x48 4 0) ∧ ¬accepted Config.default (.write 0x02000000 1 0) ∧
    ¬accepted Config.default (.read 0x00 8) := by
  simp [accepted, windows, Config.default, Config.tileLen]

theorem witness_WindowsReadAndWriteOneByte :
    Config.default.pat[15]? = some 0 ∧ 2 ^ 23 - 1 < Config.default.dbMax ∧ 2 ^ 24 - 1 < Config.default.pmMax ∧
    (0x100 ≤ (0x100 : Word).toNat ∧ 4 ≠ 1) ∧
    (∀ off ∈ [0x201, 0x2FF], 0x200 + tiny.tileLen ≤ off ∧ off < 0x300) ∧
    (∀ off ∈ [0x00800008, 0x00FFFFFF], 0x00800000 + tiny.dbMax ≤ off ∧ off < 0x01000000) ∧
    (∀ off ∈ [0x01000010, 0x01FFFFFF, 0x02000010, 0x05000010, 0x05FFFFFF],
      ∃ k < 5, 0x01000000 * (k + 1) + tiny.pmMax ≤ off ∧ off < 0x01000000 * (k + 2)) := by decide

theorem witness_ReservedOffsetsAndBits :
    [(0x5C : Word), 0xFF].all (fun off => decide (0x5C ≤ off.toNat ∧ off.toNat ≤ 0xFF)) = true := by decide

theorem witness_VoidxReadsTheVisitingOrder :
    ({ ready with vok := 15 } : State).vok.toNat < ready.height * ready.width ∧
    ready.height * ready.width ≤ ({ ready with vok := 16 } : State).vok.toNat := by decide

/-- A write that is accepted (to DB[0]), for the clauses about what an accepted write leaves. -/
theorem witness_WindowAccessesIgnoreLengthsAndTheGate :
    writesAs errState 0x00800000 1 0x77 { errState with db := errState.db.write 0 0x77 } := fun _ => rfl

theorem witness_ReadsHaveNoEffectAndWritesAreIdempotent :
    ¬((0x20 : Word) = 0x04 ∧ 4 = 4) ∧ ¬((0x04 : Word) = 0x04 ∧ 1 = 4) ∧ (0x24 : Word) ≠ 0x20 ∧ (0x24 : Word) ≠ 0x48 := by
  decide

theorem witness_HardResetClearsEveryRegister :
    ({ ready with pending := [.hardReset] } : State).pending = .hardReset :: [] := rfl

theorem witness_SysClrerrRestoresTheStateBeforeTheError :
    ready.err = false ∧ ready.errorConsistent ∧
    (∃ t, exec (.bpcEmbed 0) ready = .next t ∧ t.err = true) ∧
    (0xFFFFFF01 : Word).toNat % 256 = 1 ∧ (0xFFFFFF01 : Word) ≠ 1 :=
  ⟨rfl, (errorConsistent_false rfl).2 ⟨rfl, rfl, rfl, rfl, rfl, rfl⟩, ⟨_, rfl, rfl⟩, by decide, by decide⟩

theorem witness_FailingCommandsWriteOnlyTheErrorRegisters :
    (doing 0x10 ready).err = false ∧ (doing 0x10 ready).pending = cmdWrite 0x10 :: [] ∧
    ∃ t, step (doing 0x10 ready) = .next t ∧ t.err = true := ⟨rfl, rfl, _, rfl, rfl⟩

theorem witness_TheFirstFailingCheckIsReported_gate : (doing 0x30 errState).pending = cmdWrite 0x30 :: [] ∧
    (doing 0x30 errState).err = true ∧ ∀ i, decode 0x03 ≠ .ok i := ⟨rfl, rfl, nofun⟩

/-- The first check of the order and the last: a plane of ones holds no frame (V-BPC-27). -/
theorem witness_TheFirstFailingCheckIsReported :
    (decode (encode (.bpcEmbed 0)) = .ok (.bpcEmbed 0) ∧ reports (.bpcEmbed 0) wide ⟨1, 1, 0, 0⟩) ∧
    reports (.bpcExtractf 2) (plane 4 8 (List.replicate 32 0xFF)) ⟨3, 1, 0x800000018, 64⟩ := by
  refine ⟨⟨by decide, 3, .bpp rfl (by decide), fun m f h => by cases h <;> decide⟩, 10,
    .framing (len := 0xFFFFFFFF) rfl (by decide) (by decide) (by decide), fun m f h => ?_⟩
  cases h with
  | bpp h hb => cases h; exact absurd (by decide) hb
  | dims h hn => exact absurd hn (by decide)
  | capacity h hr hc => cases h; cases hr; exact absurd hc (by decide)
  | perm h => cases h
  | dblen h => cases h
  | kdlen h => cases h
  | noSplit h => cases h
  | shapes h => cases h
  | framing => decide

theorem witness_TheFirstFailingCheckIsReported_none : decode 0 = .ok .sysNop ∧ ¬∃ e, reports .sysNop ready e := by
  refine ⟨by decide, ?_⟩
  rintro ⟨e, n, h, -⟩
  cases h <;> contradiction

theorem witness_CommandsAreIgnoredWhileAnErrorIsRecorded :
    ([(1 : Word), 2, 0, 0x101, 0xFFFFFFFF].all fun w => decide ((doing w errState).err = true ∧
      (doing w errState).pending = cmdWrite w :: [])) = true ∧
    ¬((0x04 : Word) = 0x04 ∧ 1 = 4) ∧
    writesAs errState 0x44 4 5 { errState with vok := 5 } := ⟨by decide, by decide, fun _ => rfl⟩

theorem witness_ErrIsSetAndClearedOnlyAsTheRulesSay :
    (∃ t, step (doing 0x10 ready) = .next t ∧ (doing 0x10 ready).err = false ∧ t.err = true) ∧
    (∃ t, step (doing 1 errState) = .next t ∧ (doing 1 errState).err = true ∧ t.err = false) ∧
    ∃ t, step { errState with pending := [.hardReset] } = .next t ∧ t.err = false :=
  ⟨⟨_, rfl, rfl, rfl⟩, ⟨_, rfl, rfl, rfl⟩, _, rfl, rfl⟩

theorem witness_TheFourRegionsPartitionThePlane :
    (0 ≤ 0 ∧ 0 ≤ 5) ∧ (3 ≤ 3 ∧ 5 ≤ 5) ∧ (14 < 3 * 5) ∧ 0 < (region 3 5 1 2 3).rows ∧ 2 < (region 3 5 1 2 3).cols := by
  decide

theorem witness_BpeSplitCopiesTheFourRegions :
    wide.err = false ∧ wide.cfg.pmMax < wide.height * wide.width ∧
    full.err = false ∧ full.height * full.width ≤ full.cfg.pmMax := by decide

theorem witness_BpePermMovesWholeBuffers :
    ready.err = false ∧ ready.qv = true ∧ 15 < 16 ∧ ¬[15, 15, 15, 15].Perm [0, 1, 2, 3] ∧
    [3, 2, 1, 0].Perm [0, 1, 2, 3] ∧ planeS.err = false ∧ planeS.qv = false := by decide

theorem witness_BpeUnpermMovesWholeBuffersBack :
    ready.err = false ∧ ready.qv = true ∧ ¬[0, 1, 2, 2].Perm [0, 1, 2, 3] ∧
    [2, 0, 3, 1].Perm [0, 1, 2, 3] ∧ planeS.err = false ∧ planeS.qv = false := by decide

theorem witness_BpeMergeWritesThePlane :
    (wide.err = false ∧ wide.cfg.pmMax < wide.height * wide.width) ∧
    (planeS.err = false ∧ planeS.height * planeS.width ≤ planeS.cfg.pmMax ∧ planeS.qv = false) ∧
    ({ ready with dims := ⟨4, 6⟩ } : State).qv = true ∧ ¬quadrantsFitPositions { ready with dims := ⟨4, 6⟩ } ∧
    ready.height * ready.width ≤ ready.cfg.pmMax ∧ ready.qv = true ∧ quadrantsFitPositions ready := by
  simp only [quadrantsFitPositions]
  decide

theorem witness_PermAndUnpermAreInverse : ready.err = false ∧ ready.qv = true := ⟨rfl, rfl⟩

theorem witness_SplitThenMergeIsTheIdentity : ∀ s ∈ [State.reset, plane 1 1 [], plane 3 5 [], full],
    s.err = false ∧ s.height * s.width ≤ s.cfg.pmMax := by decide

theorem witness_WhichShufflesFit :
    (∀ s ∈ [plane 4 4 [], plane 3 4 [], plane 1 2 [], plane 4 3 [], plane 2 1 [], plane 1 1 [], plane 3 3 []],
      s.err = false ∧ s.height * s.width ≤ s.cfg.pmMax) ∧
    ((plane 4 4 []).height % 2 = 0 ∧ (plane 4 4 []).width % 2 = 0) ∧
    ((plane 1 2 []).height % 2 = 1 ∧ (plane 1 2 []).width % 2 = 0 ∧ 2 ≤ (plane 1 2 []).width) ∧
    ((plane 2 1 []).height % 2 = 0 ∧ (plane 2 1 []).width % 2 = 1 ∧ 2 ≤ (plane 2 1 []).height) ∧
    ((plane 1 1 []).height % 2 = 1 ∧ (plane 1 1 []).width % 2 = 1) := by decide

theorem witness_ShuffleThenUnshuffleRestoresThePlane : ∀ s ∈ [plane 0 0 [], planeS, full],
    s.err = false ∧ s.height * s.width ≤ s.cfg.pmMax ∧ s.height % 2 = 0 ∧ s.width % 2 = 0 := by decide

/-- The clauses of `mlea.enc`, each at both of its ends. -/
theorem witness_MleaEncScramblesThenAddsTheKeystream :
    (State.reset.cfg.dbMax < ({ State.reset with dblen := 0x00800001 } : State).dblen.toNat) ∧
    (∀ s ∈ [full, { full with kdlen := 65 }], s.err = false ∧ s.dblen.toNat ≤ s.cfg.dbMax ∧
      (s.kdlen.toNat = 0 ∨ 64 < s.kdlen.toNat)) ∧
    (∀ s ∈ [{ full with kdlen := 1 }, { State.reset with kdlen := 64 }], s.err = false ∧
      s.dblen.toNat ≤ s.cfg.dbMax ∧ 1 ≤ s.kdlen.toNat ∧ s.kdlen.toNat ≤ 64) := by decide

theorem witness_MleaDecRemovesTheKeystreamThenUnscrambles :
    ready.err = false ∧ ready.dblen.toNat ≤ ready.cfg.dbMax ∧ 1 ≤ ready.kdlen.toNat ∧ ready.kdlen.toNat ≤ 64 ∧
    full.dblen.toNat ≤ full.cfg.dbMax ∧ (full.kdlen.toNat = 0 ∨ 64 < full.kdlen.toNat) ∧
    State.reset.cfg.dbMax < ({ State.reset with dblen := 0xFFFFFFFF } : State).dblen.toNat := by decide

theorem witness_EncryptionAndDecryptionAreInverse : ∀ s ∈ [ready, { full with kdlen := 64 }],
    s.err = false ∧ s.dblen.toNat ≤ s.cfg.dbMax ∧ 1 ≤ s.kdlen.toNat ∧ s.kdlen.toNat ≤ 64 := by decide

theorem witness_TheVisitingOrderHasTheClosedForm :
    0 < Config.default.tileLen ∧ 15 < Config.default.tileLen ∧ 31 < 2 * Config.default.tileLen ∧
    2 * Config.default.tileLen ≤ 46 ∧ 46 < 2 * Config.default.tileLen + 15 := by decide

theorem witness_BpcEmbedWritesTheBitStream :
    (∀ b ∈ [0, 5, 15], b < 16 ∧ ¬(1 ≤ b ∧ b ≤ 4)) ∧ (wide.err = false ∧ wide.cfg.pmMax < wide.height * wide.width) ∧
    (planeA.height * planeA.width ≤ planeA.cfg.pmMax ∧
      planeA.cfg.dbMax < ({ planeA with dblen := 0x00800001 } : State).dblen.toNat) ∧
    planeA.height * planeA.width * 4 < 8 * ({ planeA with dblen := 9 } : State).dblen.toNat ∧
    (full.err = false ∧ full.height * full.width ≤ full.cfg.pmMax ∧ full.dblen.toNat ≤ full.cfg.dbMax ∧
      8 * full.dblen.toNat ≤ full.height * full.width * 4) ∧
    8 * ready.dblen.toNat ≤ ready.height * ready.width * 1 := by decide

theorem witness_BpcEmbedfWritesHeaderAndBitStream :
    (∀ b ∈ [0, 5, 15], b < 16 ∧ ¬(1 ≤ b ∧ b ≤ 4)) ∧ (wide.err = false ∧ wide.cfg.pmMax < wide.height * wide.width) ∧
    (planeA.height * planeA.width ≤ planeA.cfg.pmMax ∧
      planeA.cfg.dbMax < ({ planeA with dblen := 0x00800001 } : State).dblen.toNat) ∧
    (full.height * full.width ≤ full.cfg.pmMax ∧ full.dblen.toNat ≤ full.cfg.dbMax ∧
      full.height * full.width * 4 < 8 * (full.dblen.toNat + 4)) ∧
    (ready.err = false ∧ ready.height * ready.width ≤ ready.cfg.pmMax ∧ ready.dblen.toNat ≤ ready.cfg.dbMax ∧
      8 * (ready.dblen.toNat + 4) ≤ ready.height * ready.width * 3) := by decide

theorem witness_BpcExtractReadsTheBitStream :
    (∀ b ∈ [0, 5, 15], b < 16 ∧ ¬(1 ≤ b ∧ b ≤ 4)) ∧ (wide.err = false ∧ wide.cfg.pmMax < wide.height * wide.width) ∧
    (planeA.height * planeA.width ≤ planeA.cfg.pmMax ∧
      planeA.height * planeA.width * 3 < ({ planeA with numbits := 49 } : State).numbits.toNat) ∧
    ready.err = false ∧ ready.height * ready.width ≤ ready.cfg.pmMax ∧
    ready.numbits.toNat ≤ ready.height * ready.width * 3 := by decide

/-- The header of `planeCEmbedded` at 2 bits per pixel is 4, which fits exactly; that of a plane of ones is 2^32 -
1. -/
theorem witness_BpcExtractfReadsHeaderAndBody :
    (∀ b ∈ [0, 5, 15], b < 16 ∧ ¬(1 ≤ b ∧ b ≤ 4)) ∧ (wide.err = false ∧ wide.cfg.pmMax < wide.height * wide.width) ∧
    (planeA.height * planeA.width ≤ planeA.cfg.pmMax ∧ planeA.height * planeA.width * 1 < 32) ∧
    (planeCEmbedded.err = false ∧ planeCEmbedded.height * planeCEmbedded.width ≤ planeCEmbedded.cfg.pmMax ∧
      32 + 8 * 4 ≤ planeCEmbedded.height * planeCEmbedded.width * 2 ∧
      ∀ m < 32, Nat.testBit 4 (31 - m) = planeBit planeCEmbedded 2 m) ∧
    ((plane 4 8 (List.replicate 32 0xFF)).err = false ∧ 2 ^ 32 - 1 < 2 ^ 32 ∧
      ∀ m < 32, (2 ^ 32 - 1).testBit (31 - m) = planeBit (plane 4 8 (List.replicate 32 0xFF)) 1 m) := by decide

theorem witness_ExtractAfterEmbedReturnsThePayload : ∀ x ∈ [(ready, 1), (full, 4)],
    x.1.err = false ∧ 1 ≤ x.2 ∧ x.2 ≤ 4 ∧ x.1.height * x.1.width ≤ x.1.cfg.pmMax ∧ x.1.dblen.toNat ≤ x.1.cfg.dbMax ∧
    8 * x.1.dblen.toNat ≤ x.1.height * x.1.width * x.2 := by decide

theorem witness_FramedRoundTrip : ∀ x ∈ [(ready, 3), ({ full with dblen := 0x007FFFFC }, 4)],
    x.1.err = false ∧ 1 ≤ x.2 ∧ x.2 ≤ 4 ∧ x.1.height * x.1.width ≤ x.1.cfg.pmMax ∧ x.1.dblen.toNat ≤ x.1.cfg.dbMax ∧
    8 * (x.1.dblen.toNat + 4) ≤ x.1.height * x.1.width * x.2 := by decide

theorem witness_EmbeddingLeavesTheRestOfThePlaneAlone :
    (∃ t, exec (.bpcEmbed 1) ready = .next t ∧ t.err = false) ∧ ∃ t, exec (.bpcEmbedf 3) ready = .next t ∧ t.err = false :=
  ⟨⟨_, rfl, by decide⟩, _, rfl, by decide⟩

theorem ready_inv : ready.Inv where
  memories := by unfold State.memoriesWf; decide
  fit := by unfold State.quadrantsFit; decide
  errors := (errorConsistent_false rfl).2 ⟨rfl, rfl, rfl, rfl, rfl, rfl⟩
  unsplit := nofun
  responses := rfl

theorem witness_EveryStepKeepsTheInvariant : (doing 0x31 ready).Inv ∧ ∃ t, step (doing 0x31 ready) = .next t :=
  ⟨pending_inv _ ready_inv, _, rfl⟩

theorem witness_NoStepChangesTheConfiguration : (∃ t, step (doing 0x30 ready) = .next t) ∧
    ∀ rest, (doing 0x30 ready).pending ≠ .hardReset :: rest := ⟨⟨_, rfl⟩, nofun⟩

/-- Each command completes in `ready`, or, for `bpc.extractf`, in `planeCEmbedded`, whose header says 4. -/
theorem witness_EachCommandWritesOnlyItsPlaces :
    (∀ i ∈ [Instr.sysNop, .sysClrerr, .sysSreset, .bpcEmbed 1, .bpcExtract 3, .bpcEmbedf 3, .mleaEnc, .mleaDec, .bpeSplit,
      .bpePerm 2 0 3 1, .bpeUnperm 2 0 3 1, .bpeMerge], shows (exec i ready) State.err = some false) ∧
    shows (exec (.bpcExtractf 2) planeCEmbedded) State.err = some false ∧ planeCEmbedded.err = false ∧
    ∀ m < 32, Nat.testBit 4 (31 - m) = planeBit planeCEmbedded 2 m := by decide

theorem witness_QvIsSetBySplitClearedByResetReadByThree :
    (∃ t, step (doing 0x30 planeS) = .next t ∧ planeS.qv = false ∧ t.qv = true) ∧
    (∃ t, step (doing 2 ready) = .next t ∧ ready.qv = true ∧ t.qv = false) ∧
    (∃ t, step { ready with pending := [.hardReset] } = .next t ∧ t.qv = false) ∧
    (∃ t, exec .bpeSplit ready = .next t ∧ t.err = false) ∧
    (Instr.checksSplit .mleaEnc = false ∧ ∃ t, exec .mleaEnc ready = .next t) ∧
    (∀ i ∈ [Instr.bpePerm 0 1 2 3, .bpeUnperm 0 1 2 3, .bpeMerge], i.checksSplit = true) ∧
    ∃ t, exec .bpeMerge planeS = .next t :=
  ⟨⟨_, rfl, rfl, rfl⟩, ⟨_, rfl, rfl, rfl⟩, ⟨_, rfl, rfl⟩, ⟨_, rfl, by decide⟩, ⟨by decide, _, rfl⟩, by decide, _, rfl⟩

theorem witness_OnlyTheCipherReadsTheKeyDigest : Instr.bpeSplit ≠ .mleaEnc ∧ Instr.bpeSplit ≠ .mleaDec ∧
    Instr.bpeSplit ≠ .sysSreset ∧ ∃ t, exec .bpeSplit ready = .next t := ⟨nofun, nofun, nofun, _, rfl⟩

theorem witness_ReadsReturnTheMostRecentWrite :
    writesAs ready 0x01000000 1 0x66 { ready with pm := ready.pm.write 0 0x66 } ∧
    (0x24 : Word) ≠ 0x04 ∧ writesAs ready 0x24 4 0xFFFFFFFF { ready with dblen := 0xFFFFFFFF } :=
  ⟨fun _ => rfl, by decide, fun _ => rfl⟩

/-- With the permutation that exchanges 0 and 2: the hypotheses on the embedding side, and a state that meets those on
the extracting side (the embedding's own last state). -/
theorem witness_ThePipelineReturnsThePayload :
    (ready.err = false ∧ ready.height * ready.width ≤ ready.cfg.pmMax ∧ ready.height % 2 = 0 ∧ ready.width % 2 = 0 ∧
      ready.dblen.toNat ≤ ready.cfg.dbMax ∧ 1 ≤ ready.kdlen.toNat ∧ ready.kdlen.toNat ≤ 64 ∧
      8 * (ready.dblen.toNat + 4) ≤ ready.height * ready.width * 3) ∧
    shows (execSeq [.bpeSplit, .bpePerm 2 1 0 3, .bpeMerge, .mleaEnc, .bpcEmbedf 3, .bpeSplit, .bpeUnperm 2 1 0 3,
      .bpeMerge] ready) (fun t => decide (t.err = false ∧ t.cfg = ready.cfg ∧ t.dims = ready.dims ∧ t.kd = ready.kd ∧
        t.kdlen = ready.kdlen)) = some true := by decide

end Sys2Proof.Tests
end

section
/-! PROOFS. The statements of the state family (spec/10_state.md): the fixed registers, the reserved offsets, VOIDX, the
command port and STATUS.QV. -/

namespace Sys2Proof.Machine

/-! ## Register accesses -/

/-- A 4-byte read at a register's offset returns what `readReg` gives (20_memory.md R64). -/
theorem readsAs_reg {s : State} {off : Word} {r : Reg} (hr : regAt off.toNat = some r) :
    readsAs s off 4 (.okWord (readReg s r)) :=
  readsAs_of (by rw [busRead, locate_four, hr]; rfl)

/-- A 4-byte write at the offset of a register the host cannot write is a BusError (R64). -/
theorem notAccepted_write_reg {s : State} {off v : Word} {r : Reg} (hr : regAt off.toNat = some r)
    (hro : ∀ v, writeReg s v r = none) : notAccepted s (.write off 4 v) := by
  have hport : ¬(off = 0x04 ∧ 4 = 4) := by
    rintro ⟨rfl, -⟩
    obtain rfl : Reg.cmd = r := Option.some.inj hr
    cases hro v
  refine notAccepted_write_of hport ?_
  rw [busWrite, locate_four, hr]
  exact hro _

/-- No access of any width finds anything at the reserved offsets (10_state.md R49). -/
theorem locate_reserved {c : Config} {off : Nat} (n : Nat) (h : 0x5C ≤ off) (h' : off ≤ 0xFF) :
    locate c off n = none := by
  by_cases h4 : n = 4
  · rw [h4, locate_four, regAt_none (.inr h)]; rfl
  · by_cases h1 : n = 1
    · rw [h1, locate_one]
      exact windowAt_eq_none (by omega) (by omega) (by omega) (by omega)
    · exact locate_other h1 h4

/-! ## Register values -/

/-- STATUS holds ERR in bit 0, QV in bit 1 and 0 in every other bit (R24). -/
theorem toNat_statusWord (s : State) : (statusWord s).toNat = s.err.toNat + 2 * s.qv.toNat := by
  simp only [statusWord, toNat_append', BitVec.toNat_ofBool, BitVec.ofNat_eq_ofNat, BitVec.toNat_ofNat]
  omega

/-- ERRCODE holds CODE in bits [7:0], SUB in bits [15:8] and 0 above (R27). -/
theorem toNat_errCodeWord (s : State) : (errCodeWord s).toNat = s.errCode.toNat + 256 * s.errSub.toNat := by
  simp only [errCodeWord, toNat_append', BitVec.ofNat_eq_ofNat, BitVec.toNat_ofNat]
  omega

/-- `N` fits a 32-bit register, as HEIGHT and WIDTH have 16 bits each (R32). -/
theorem State.count_lt (s : State) : s.count < 2 ^ 32 :=
  calc s.height * s.width < 2 ^ 16 * 2 ^ 16 := Nat.mul_lt_mul'' s.dims.rows.isLt s.dims.cols.isLt
    _ = 2 ^ 32 := by norm_num

/-- Within the plane VOIDX is the index visited at position VOK (R38). -/
theorem toNat_voidx {s : State} {i : Nat} (h : s.order[s.vok.toNat]? = some i) : (voidx s).toNat = i := by
  have hi : i < s.count := s.mem_order.1 (List.mem_of_getElem? h)
  rw [voidx, h]
  exact (BitVec.toNat_ofNat _ _).trans (Nat.mod_eq_of_lt (hi.trans s.count_lt))

/-- Beyond the plane VOIDX is all ones (R38). -/
theorem voidx_beyond {s : State} (h : s.count ≤ s.vok.toNat) : voidx s = 0xFFFFFFFF := by
  rw [voidx, List.getElem?_eq_none (s.length_order.le.trans h)]

/-! ## Which word a command was decoded from -/

/-- A word that decodes is the encoding of its command, whose operands fit their fields (30_encoding.md R97). -/
theorem wellFormed_encode_of_decode {w : Word} {i : Instr} (h : decode w = .ok i) :
    i.wellFormed = true ∧ encode i = w := by
  rcases opcode_cases w with ho | ho | ho | ho | ho | ho | ho | ho | ho | ho | ho | ho | ho | ho
  · rw [decode_unknown ho] at h; cases h
  · exact decodeN_inv (op := 0x00) ho rfl rfl (decode_sysNop ho ▸ h)
  · exact decodeN_inv (op := 0x01) ho rfl rfl (decode_sysClrerr ho ▸ h)
  · exact decodeN_inv (op := 0x02) ho rfl rfl (decode_sysSreset ho ▸ h)
  · exact decodeB_inv (op := 0x10) ho (fun _ => rfl) (fun _ => rfl) (decode_bpcEmbed ho ▸ h)
  · exact decodeB_inv (op := 0x11) ho (fun _ => rfl) (fun _ => rfl) (decode_bpcExtract ho ▸ h)
  · exact decodeB_inv (op := 0x12) ho (fun _ => rfl) (fun _ => rfl) (decode_bpcEmbedf ho ▸ h)
  · exact decodeB_inv (op := 0x13) ho (fun _ => rfl) (fun _ => rfl) (decode_bpcExtractf ho ▸ h)
  · exact decodeN_inv (op := 0x20) ho rfl rfl (decode_mleaEnc ho ▸ h)
  · exact decodeN_inv (op := 0x21) ho rfl rfl (decode_mleaDec ho ▸ h)
  · exact decodeN_inv (op := 0x30) ho rfl rfl (decode_bpeSplit ho ▸ h)
  · exact decodeP_inv (op := 0x31) ho (fun _ _ _ _ => rfl) (fun _ _ _ _ => rfl) (decode_bpePerm ho ▸ h)
  · exact decodeP_inv (op := 0x32) ho (fun _ _ _ _ => rfl) (fun _ _ _ _ => rfl) (decode_bpeUnperm ho ▸ h)
  · exact decodeN_inv (op := 0x33) ho rfl rfl (decode_bpeMerge ho ▸ h)

/-! ## STATUS.QV -/

/-- A word that is no command leaves STATUS.QV as it is, gated or not. -/
@[simp] theorem illegalCommand_qv (d : DecodeError) (w : Word) (s : State) : (illegalCommand d w s).qv = s.qv := by
  unfold illegalCommand
  split_ifs <;> rfl

/-- No bus write but the command port's reaches STATUS.QV. -/
theorem busWrite_qv {s t : State} {off n : Nat} {v : Word} (h : busWrite s off n v = some t) : t.qv = s.qv := by
  rcases busWrite_cases h with rfl | ⟨_, rfl⟩ | ⟨_, rfl⟩ | ⟨_, rfl⟩ | ⟨_, rfl⟩ | ⟨_, rfl⟩ | ⟨_, _, _, rfl⟩ |
    ⟨_, _, _, rfl⟩ | ⟨_, _, _, rfl⟩ <;> rfl

/-- What a step can do to STATUS.QV (R25). -/
theorem step_qv {s t : State} (h : step s = .next t) :
    t.qv = s.qv ∨ ((∃ rest, s.pending = cmdWrite 0x30 :: rest) ∧ t.qv = true) ∨
    ((∃ rest, s.pending = cmdWrite 2 :: rest ∨ s.pending = .hardReset :: rest) ∧ t.qv = false) := by
  rcases step_cases h with ⟨-, rfl⟩ | ⟨rest, hp, rfl⟩ | ⟨off, n, rest, -, rfl⟩ | ⟨w, rest, i, hp, hd, he⟩ |
    ⟨w, rest, d, -, -, rfl⟩ | ⟨off, n, v, rest, u, -, -, hw, rfl⟩ | ⟨off, n, v, rest, -, -, -, rfl⟩
  · exact .inl rfl
  · exact .inr (.inr ⟨⟨rest, .inr hp⟩, rfl⟩)
  · exact .inl rfl
  · obtain rfl : encode i = w := (wellFormed_encode_of_decode hd).2
    rcases exec_qv he with hq | ⟨rfl, hq⟩ | ⟨rfl, hq⟩
    · exact .inl hq
    · exact .inr (.inl ⟨⟨rest, hp⟩, hq⟩)
    · exact .inr (.inr ⟨⟨rest, .inl hp⟩, hq⟩)
  · exact .inl (illegalCommand_qv _ _ _)
  · exact .inl (busWrite_qv hw : u.qv = s.qv)
  · exact .inl rfl

/-- A `bpe.split` that completes sets STATUS.QV (40_bpe_block_permutation.md R121). -/
theorem qv_of_splitEffect {s t : State} (h : splitEffect s = .ok t) : t.qv = true := by
  rcases splitEffect_cases s with ⟨-, e⟩ | ⟨-, e⟩ <;> rw [e] at h <;> cases h
  rfl

/-- The state with another STATUS.QV. -/
def State.withQv (q : Bool) (s : State) : State := { s with qv := q }

/-- The checks and writes of a command without the STATUS.QV check do not look at it (R25). -/
theorem effectOf_withQv {i : Instr} (q : Bool) (s : State) (hi : i.checksSplit = false) (hsp : i ≠ .bpeSplit)
    (hsr : i ≠ .sysSreset) : effectOf i (s.withQv q) = (effectOf i s).map (State.withQv q) := by
  cases i
  case bpeSplit => exact absurd rfl hsp
  case sysSreset => exact absurd rfl hsr
  case bpePerm | bpeUnperm | bpeMerge => simp [Instr.checksSplit, Instr.mnemonic] at hi
  case sysNop | sysClrerr => rfl
  all_goals
    simp only [effectOf, embedEffect, extractEffect, extractfEffect, cipherEffect, apply_ite (Except.map _)]
    rfl

/-- Such a command does the same whatever STATUS.QV holds, the gate included. -/
theorem exec_withQv {i : Instr} {s t : State} (q : Bool) (hi : i.checksSplit = false) (hsp : i ≠ .bpeSplit)
    (hsr : i ≠ .sysSreset) (h : exec i s = .next t) : exec i (s.withQv q) = .next (t.withQv q) := by
  by_cases hc : i = .sysClrerr
  · subst hc; cases h; rfl
  · exact exec_upd (State.withQv q) (fun _ => rfl) (fun _ _ _ => rfl) hc hsr (effectOf_withQv q s hi hsp hsr) h

/-- With STATUS.QV = 0 each of the three commands that need it fails: with QuadrantError, or with the ConfigError of
the one check that comes before (60_exceptions.md R212, R215). -/
theorem effectOf_of_notSplit {i : Instr} {s : State} (hi : i.checksSplit = true) (hq : s.qv = false) :
    ∃ c, effectOf i s = .error c ∧ (c.code = 5 ∨ c.code = 1) := by
  have reorder (p0 p1 p2 p3 : Nat) (qb' : Vector Quadrant 4) :
      ∃ c, reorderEffect p0 p1 p2 p3 qb' s = .error c ∧ (c.code = 5 ∨ c.code = 1) := by
    rcases reorderEffect_cases p0 p1 p2 p3 qb' s with ⟨-, e⟩ | ⟨-, -, e⟩ | ⟨-, hq', -⟩
    · exact ⟨_, e, .inr rfl⟩
    · exact ⟨_, e, .inl rfl⟩
    · simp [hq] at hq'
  cases i
  case bpePerm => exact reorder _ _ _ _ _
  case bpeUnperm => exact reorder _ _ _ _ _
  case bpeMerge =>
    rcases mergeEffect_cases s with ⟨-, e⟩ | ⟨-, -, e⟩ | ⟨-, hq', -⟩ | ⟨-, hq', -⟩
    · exact ⟨_, e, .inr rfl⟩
    · exact ⟨_, e, .inl rfl⟩
    · simp [hq] at hq'
    · simp [hq] at hq'
  all_goals simp [Instr.checksSplit, Instr.mnemonic] at hi

/-! ## The statements -/

/-- Settles O13: nothing is found at a reserved offset, and STATUS and ERRCODE read as the sums of their fields. -/
theorem reservedOffsetsAndBits : Obligations.ReservedOffsetsAndBits := by
  refine ⟨fun s off n v h h' => ?_, fun s v => ⟨?_, statusWord s, errCodeWord s, ?_, ?_, ?_, ?_⟩⟩
  · have hport : ¬(off = 0x04 ∧ n = 4) := by
      rintro ⟨rfl, -⟩
      exact absurd h (by decide)
    exact notAccepted_of_locate hport (locate_reserved n h h')
  · exact notAccepted_write_reg (r := .status) rfl fun _ => rfl
  · exact readsAs_reg (r := .status) rfl
  · exact readsAs_reg (r := .errcode) rfl
  · exact toNat_statusWord s
  · exact toNat_errCodeWord s

/-- Settles O16: the visiting order has an entry at VOK exactly where VOK is below `N`. -/
theorem voidxReadsTheVisitingOrder : Obligations.VoidxReadsTheVisitingOrder := by
  intro s
  have hread : readsAs s 0x48 4 (.okWord (voidx s)) := readsAs_reg (r := .voidx) rfl
  refine ⟨fun h => ?_, fun h => ?_, fun v => notAccepted_write_reg (r := .voidx) rfl fun _ => rfl⟩
  · have hlt : s.vok.toNat < s.order.length := s.length_order.symm ▸ h
    have hi : s.order[s.vok.toNat]? = some s.order[s.vok.toNat] := List.getElem?_eq_getElem hlt
    exact ⟨_, hi, s.mem_order.1 (List.getElem_mem hlt), voidx s, toNat_voidx hi, hread⟩
  · exact voidx_beyond h ▸ hread

/-- Settles O54: what a step does to STATUS.QV, that the other commands are blind to it, and how the three that need it
fail. -/
theorem qvIsSetBySplitClearedByResetReadByThree : Obligations.QvIsSetBySplitClearedByResetReadByThree := by
  refine ⟨fun s t h => ?_, fun s t he h ht => ?_, fun i s t q hi hsp hsr h => ⟨?_, ?_⟩, fun i s t hi he hq h => ?_⟩
  · rcases step_qv h with hq | ⟨hp, hq⟩ | ⟨hp, hq⟩
    · exact ⟨fun h0 h1 => by simp [hq, h0] at h1, fun h1 h0 => by simp [hq, h1] at h0⟩
    · exact ⟨fun _ _ => hp, fun _ h0 => by simp [hq] at h0⟩
    · exact ⟨fun _ h1 => by simp [hq] at h1, fun _ _ => hp⟩
  · exact qv_of_splitEffect (effectOf_of he h ht)
  · rcases exec_qv h with hq | ⟨rfl, -⟩ | ⟨rfl, -⟩
    · exact hq
    · exact absurd rfl hsp
    · exact absurd rfl hsr
  · exact exec_withQv q hi hsp hsr h
  · obtain ⟨c, hc, hcode⟩ := effectOf_of_notSplit hi hq
    obtain rfl : errorEntry c (encode i) s = t := Host.Outcome.next.inj ((exec_of_error he hc).symm.trans h)
    exact ⟨rfl, hcode⟩

/-- Settles O7: a `CMD` write executes its word, decoded or illegal, and a `CMD` read finds nothing stored. -/
theorem cmdWriteRunsTheDecodedCommand : Obligations.CmdWriteRunsTheDecodedCommand := by
  refine ⟨fun s w i rest hp hd => ?_, fun s w d rest hp hd he => ⟨_, step_illegal he hp hd⟩, fun s => ?_⟩
  · rw [step_cmdWrite hp, executeWord_ok _ hd]
  · exact readsAs_reg (r := .cmd) rfl

/-- Settles O12: ID is a read-only register with a constant value. -/
theorem idReadsItsConstant : Obligations.IdReadsItsConstant := fun _ _ =>
  ⟨readsAs_reg (r := .id) rfl, notAccepted_write_reg (r := .id) rfl fun _ => rfl⟩

end Sys2Proof.Machine
end

section
/-! PROOFS. The statements of the memory family (spec/20_memory.md): one access is one step, which accesses are
accepted, and the byte windows. -/

namespace Sys2Proof.Machine

/-! ## The host's side of a state -/

/-- The state with another host's list, command pointer and results beside it (20_memory.md R62). -/
def State.onHost (p : List HostEvent) (c : Nat) (rs : List Response) (s : State) : State :=
  { s with pending := p, cp := c, results := rs }

theorem sameDevice_iff {s t : State} : s.sameDevice t ↔ t = s.onHost t.pending t.cp t.results := Iff.rfl

/-- A command word does the same whatever stands on the host's side, which it leaves alone. -/
theorem executeWord_onHost (w : Word) (s : State) :
    ∃ t : State, ∀ p c rs, executeWord w (s.onHost p c rs) = .next (t.onHost p c rs) := by
  cases hd : decode w with
  | ok i =>
    obtain ⟨t, ht⟩ := exec_total i s
    exact ⟨t, fun p c rs => (executeWord_ok _ hd).trans (exec_onHost p c rs ht)⟩
  | error d =>
    refine ⟨illegalCommand d w s, fun p c rs => (executeWord_error _ hd).trans (congrArg _ ?_)⟩
    rw [illegalCommand, illegalCommand, apply_ite (State.onHost p c rs)]
    rfl

/-- One access makes one next state of the ISCC and one response, both fixed by the ISCC's state and the access; on the
host's side the access leaves the list and its response is recorded (R62). -/
theorem step_access_onHost (s : State) (a : Access) :
    ∃ (t : State) (r : Response), ∀ rest c rs,
      step (s.onHost (.access a :: rest) c rs) = .next (t.onHost rest (c + 1) (r :: rs)) := by
  cases a with
  | read off n =>
    refine ⟨s, busRead s off.toNat n, fun rest c rs => (step_read rfl).trans ?_⟩
    rw [State.onHost, busRead_onHost]
    rfl
  | write off n v =>
    by_cases hc : off = 0x04 ∧ n = 4
    · obtain ⟨rfl, rfl⟩ := hc
      obtain ⟨t, ht⟩ := executeWord_onHost v s
      exact ⟨t, .ok, fun rest c rs => (step_cmdWrite rfl).trans (ht _ _ _)⟩
    · cases hw : busWrite s off.toNat n (v.setWidth 32) with
      | some t => exact ⟨t, .ok, fun rest c rs => by rw [step_write rfl hc, State.onHost, busWrite_onHost, hw]; rfl⟩
      | none => exact ⟨s, .busError, fun rest c rs => by rw [step_write rfl hc, State.onHost, busWrite_onHost, hw]; rfl⟩

/-! ## Which accesses the bus accepts -/

/-- Two kinds of access find something: 4 bytes at a register's offset, 1 byte in a window (R64, R65). -/
theorem locate_some_iff {c : Config} {off n : Nat} : (∃ x, locate c off n = some x) ↔
    (n = 4 ∧ ∃ r, regAt off = some r) ∨ (n = 1 ∧ ∃ x, windowAt c off = some x) := by
  constructor
  · rintro ⟨x, hx⟩
    rcases locate_offset hx with ⟨rfl, r, -, hr⟩ | ⟨rfl, -⟩
    · exact .inl ⟨rfl, r, hr⟩
    · exact .inr ⟨rfl, x, hx⟩
  · rintro (⟨rfl, r, hr⟩ | ⟨rfl, x, hx⟩)
    · exact ⟨.reg r, by rw [locate_four, hr]; rfl⟩
    · exact ⟨x, hx⟩

/-- A read is accepted exactly where the bus finds something. -/
theorem accepted_read_iff {c : Config} {off : Word} {n : Nat} :
    accepted c (.read off n) ↔ ∃ x, locate c off.toNat n = some x := by
  rw [locate_some_iff, regAt_some_iff, ← window_iff]
  rfl

/-- Whether a place can be written depends on the place alone. -/
theorem writeTarget_none_congr {s : State} {v : Word} {x : Target} (h : writeTarget s v x = none) (s' : State)
    (v' : Word) : writeTarget s' v' x = none := by
  rcases x with r | i | i | i | i | ⟨k, i⟩
  · cases r <;> first | rfl | cases h
  all_goals first | rfl | cases h

theorem writeTarget_some_congr {s t : State} {v : Word} {x : Target} (h : writeTarget s v x = some t) (s' : State)
    (v' : Word) : ∃ t', writeTarget s' v' x = some t' := by
  refine Option.ne_none_iff_exists'.1 fun hn => ?_
  rw [writeTarget_none_congr hn] at h
  cases h

/-- The registers the host can write are those at the offsets the map lists (10_state.md register summary). -/
theorem writableReg_iff {s : State} {v : Word} {off : Nat} :
    (∃ r t, regAt off = some r ∧ writeReg s v r = some t) ↔ off ∈ [0x04, 0x20, 0x24, 0x28, 0x2C, 0x44] := by
  simp only [List.mem_cons, List.not_mem_nil, or_false]
  constructor
  · rintro ⟨r, t, hr, hw⟩
    have hoff {a : Nat} (ha : regAt a = some r) : off = a := regAt_inj hr ha
    rcases writeReg_cases hw with ⟨rfl, -⟩ | ⟨rfl, -⟩ | ⟨rfl, -⟩ | ⟨rfl, -⟩ | ⟨rfl, -⟩ | ⟨rfl, -⟩
    · exact .inl (hoff rfl)
    · exact .inr (.inl (hoff rfl))
    · exact .inr (.inr (.inl (hoff rfl)))
    · exact .inr (.inr (.inr (.inl (hoff rfl))))
    · exact .inr (.inr (.inr (.inr (.inl (hoff rfl)))))
    · exact .inr (.inr (.inr (.inr (.inr (hoff rfl)))))
  · rintro (rfl | rfl | rfl | rfl | rfl | rfl) <;> exact ⟨_, _, rfl, rfl⟩

/-- A write is accepted exactly where the bus writes something (`CMD`, which stores nothing, included). -/
theorem accepted_write_iff {s : State} {off : Word} {n : Nat} {v : BitVec (8 * n)} (w : Word) :
    accepted s.cfg (.write off n v) ↔ ∃ t, busWrite s off.toNat n w = some t := by
  rw [accepted, wwindow_iff, ← writableReg_iff (s := s) (v := w)]
  constructor
  · rintro (⟨rfl, r, t, hr, hw⟩ | ⟨rfl, x, hx, hw⟩)
    · exact ⟨t, by rw [busWrite, locate_four, hr]; exact hw⟩
    · obtain ⟨t, ht⟩ := hw s w
      exact ⟨t, by rw [busWrite, locate_one, hx]; exact ht⟩
  · rintro ⟨t, ht⟩
    obtain ⟨x, hx, hw⟩ := Option.bind_eq_some_iff.1 ht
    rcases locate_offset hx with ⟨rfl, r, rfl, hr⟩ | ⟨rfl, -⟩
    · exact .inl ⟨rfl, r, t, hr, hw⟩
    · exact .inr ⟨rfl, x, hx, writeTarget_some_congr hw⟩

/-- A read that finds something returns a value of its own width (R60). -/
theorem busRead_answered {s : State} {off : Word} {n : Nat} (h : accepted s.cfg (.read off n)) :
    (Access.read off n).answeredBy (busRead s off.toNat n) := by
  obtain ⟨x, hx⟩ := accepted_read_iff.1 h
  rw [busRead, hx]
  rcases locate_offset hx with ⟨rfl, r, rfl, -⟩ | ⟨rfl, -, -, hr⟩
  · exact .inr ⟨rfl, _, rfl⟩
  · cases x with
    | reg r => exact absurd rfl (hr r)
    | kd | pat | db | pm | qb => exact .inl ⟨rfl, _, rfl⟩

/-! ## The windows -/

/-- A 1-byte write is no command (10_state.md R23). -/
theorem not_commandPort_one {off : Word} : ¬(off = 0x04 ∧ 1 = 4) := fun h => absurd h.2 (by decide)

/-- A 1-byte write of a writable byte of a window leaves what `writeTarget` gives. -/
theorem writesAs_window {s t : State} {x : Target} {v : Byte} (h : x.inRange s.cfg) (hr : ∀ r, x ≠ .reg r)
    (hw : writeTarget s (v.setWidth 32) x = some t) : writesAs s (BitVec.ofNat 32 x.offset) 1 v t :=
  writesAs_of not_commandPort_one ((busWrite_window h hr _).trans hw)

/-- A write of a byte of a read-only window is a BusError. -/
theorem notAccepted_write_window {s : State} {x : Target} {v : Byte} (h : x.inRange s.cfg) (hr : ∀ r, x ≠ .reg r)
    (hw : writeTarget s (v.setWidth 32) x = none) : notAccepted s (.write (BitVec.ofNat 32 x.offset) 1 v) :=
  notAccepted_write_of not_commandPort_one ((busWrite_window h hr _).trans hw)

/-- From offset 0x100 up only 1-byte accesses find anything (R64, R65). -/
theorem locate_wide {c : Config} {off n : Nat} (h : 0x100 ≤ off) (hn : n ≠ 1) : locate c off n = none := by
  by_cases h4 : n = 4
  · rw [h4, locate_four, regAt_none (.inr (by omega))]; rfl
  · exact locate_other hn h4

/-- An index at or beyond a memory's size is mapped to nothing (R65). -/
theorem windowAt_beyond {c : Config} {off : Nat} (h : (0x200 + c.tileLen ≤ off ∧ off < 0x300) ∨
    (0x00800000 + c.dbMax ≤ off ∧ off < 0x01000000) ∨
    (∃ k < 5, 0x01000000 * (k + 1) + c.pmMax ≤ off ∧ off < 0x01000000 * (k + 2))) : windowAt c off = none := by
  obtain ⟨-, hpm, -, hdb, -, hpat, -⟩ := c.bounds
  change c.tileLen ≤ 256 at hpat
  exact windowAt_eq_none (by omega) (by omega) (by omega) fun k hk => by omega

/-- What a 1-byte access finds is no register. -/
theorem ne_reg_of_locate_one {c : Config} {off : Nat} {x : Target} (h : locate c off 1 = some x) (r : Reg) :
    x ≠ .reg r := (locate_one_iff.1 h).2.2 r

/-- Whether a write is a BusError depends on the configuration and the access alone. -/
theorem busWrite_none_congr {s s' : State} {off n : Nat} {v : Word} (hc : s'.cfg = s.cfg)
    (h : busWrite s off n v = none) : busWrite s' off n v = none := by
  rw [busWrite, hc]
  refine Option.bind_eq_none_iff.2 fun x hx => ?_
  exact writeTarget_none_congr (Option.bind_eq_none_iff.1 h x hx) s' v

/-- A 1-byte write changes at most bytes of PM, DB and KD (R66). -/
theorem busWrite_one_frame {s t : State} {off : Nat} {v : Word} (h : busWrite s off 1 v = some t) :
    t = { s with pm := t.pm, db := t.db, kd := t.kd } := by
  obtain ⟨x, hx, hw⟩ := Option.bind_eq_some_iff.1 h
  cases x with
  | reg r => exact absurd rfl (ne_reg_of_locate_one hx r)
  | pat i | qb k i => cases hw
  | kd i | db i | pm i => cases hw; rfl

/-- A window read looks at the configuration, KD and the bytes of PM, DB and the quadrants, and at nothing else
(R66). -/
theorem busRead_one_congr {s s' : State} {off : Nat} (hc : s'.cfg = s.cfg) (hkd : s'.kd = s.kd) (hdb : s'.db = s.db)
    (hpm : s'.pm = s.pm) (hqb : ∀ k : Fin 4, s'.qb[k].data = s.qb[k].data) : busRead s' off 1 = busRead s off 1 := by
  refine busRead_congr hc fun x hx => ?_
  cases x with
  | reg r => exact absurd rfl (ne_reg_of_locate_one hx r)
  | kd i => simp only [readTarget, hkd]
  | pat i => simp only [readTarget, hc]
  | db i => simp only [readTarget, hdb]
  | pm i => simp only [readTarget, hpm]
  | qb k i => simp only [readTarget, hqb]

/-! ## The statements -/

/-- Settles O8: an access acts on the ISCC's side as `step_access_onHost` says, whatever the host's side holds. -/
theorem eachAccessIsOneStepWithOneResult : Obligations.EachAccessIsOneStepWithOneResult := by
  intro s a rest hp
  obtain ⟨t, r, hstep⟩ := step_access_onHost s a
  have hs : s = s.onHost (.access a :: rest) s.cp s.results := by rw [← hp]; rfl
  refine ⟨t.onHost rest (s.cp + 1) (r :: s.results), r, ?_, rfl, rfl, rfl, fun s' rest' hd hp' => ?_⟩
  · exact (congrArg step hs).trans (hstep _ _ _)
  · have hs' : s' = s.onHost (.access a :: rest') s'.cp s'.results := hp' ▸ sameDevice_iff.1 hd
    exact ⟨_, (congrArg step hs').trans (hstep _ _ _), rfl, rfl⟩

/-- Settles O10: `accepted` names exactly the accesses for which the bus finds a readable or writable place. -/
theorem accessesAreAcceptedExactlyAsTheMapSays : Obligations.AccessesAreAcceptedExactlyAsTheMapSays := by
  intro s a rest hp
  cases a with
  | read off n =>
    refine ⟨fun ha => ?_, fun ha => ⟨_, _, step_read hp, rfl, busRead_answered ha⟩⟩
    have hx : locate s.cfg off.toNat n = none :=
      Option.eq_none_iff_forall_ne_some.2 (not_exists.1 (mt accepted_read_iff.2 ha))
    rw [step_read hp, busRead_none hx]
  | write off n v =>
    have hacc := accepted_write_iff (s := s) (off := off) (v := v) (v.setWidth 32)
    by_cases hc : off = 0x04 ∧ n = 4
    · obtain ⟨rfl, rfl⟩ := hc
      obtain ⟨t, ht⟩ := executeWord_onHost v s
      exact ⟨fun ha => absurd (hacc.2 ⟨s, rfl⟩) ha, fun _ => ⟨_, _, (step_cmdWrite hp).trans (ht _ _ _), rfl, rfl⟩⟩
    · rw [hacc, step_write hp hc]
      cases hw : busWrite s off.toNat n (v.setWidth 32) with
      | none => exact ⟨fun _ => rfl, fun ha => nomatch ha⟩
      | some t =>
        refine ⟨fun ha => absurd ⟨t, rfl⟩ ha, fun _ => ⟨_, .ok, rfl, ?_, rfl⟩⟩
        rw [State.answer_results, (busWrite_host hw).2.2.1]

/-- Settles O11: each mapped byte stands alone at its offset, and no other access finds anything. -/
theorem windowsReadAndWriteOneByte : Obligations.WindowsReadAndWriteOneByte := by
  have replaced (m : Memory) (i j : Nat) (v : Byte) : (m.write i v).read j = if j = i then v else m.read j :=
    (m.read_write i j v).trans (if_congr eq_comm rfl rfl)
  refine ⟨fun s i v h => ?_, fun s i p v h => ?_, fun s i v h => ?_, fun s i v h => ?_, fun s k i v h => ?_,
    fun s off n v h hn => ?_, fun s off v h => ?_⟩
  · refine ⟨readsAs_window (x := .kd i) h nofun, kdWrite s.kd i v, writesAs_window (x := .kd i) h nofun ?_, fun j => ?_⟩
    · rw [writeTarget, setWidth_byte]
    · rw [kdRead_kdWrite _ _ _ h, if_congr eq_comm rfl rfl]
  · obtain ⟨hi, rfl⟩ := List.getElem?_eq_some_iff.1 h
    have hr := readsAs_window (s := s) (x := .pat i) hi nofun
    rw [readTarget, List.getD_eq_getElem _ _ hi] at hr
    exact ⟨hr, notAccepted_write_window (x := .pat i) hi nofun rfl⟩
  · refine ⟨readsAs_window (x := .db i) h nofun, s.db.write i v, writesAs_window (x := .db i) h nofun ?_,
      fun j => replaced _ _ _ _⟩
    rw [writeTarget, setWidth_byte]
  · refine ⟨readsAs_window (x := .pm i) h nofun, s.pm.write i v, writesAs_window (x := .pm i) h nofun ?_,
      fun j => replaced _ _ _ _⟩
    rw [writeTarget, setWidth_byte]
  · exact ⟨readsAs_window (x := .qb k i) h nofun, notAccepted_write_window (x := .qb k i) h nofun rfl⟩
  · exact notAccepted_of_locate (fun hc => absurd (hc.1 ▸ h) (by decide)) (locate_wide h hn)
  · exact notAccepted_of_locate not_commandPort_one (windowAt_beyond h)

/-- Settles O17: the lengths and the gate are not among what a window access looks at, nor among what it writes. -/
theorem windowAccessesIgnoreLengthsAndTheGate : Obligations.WindowAccessesIgnoreLengthsAndTheGate := by
  intro s off v d l k q e s'
  have hqb : ∀ k : Fin 4, s'.qb[k].data = s.qb[k].data := by
    intro k
    fin_cases k <;> rfl
  refine ⟨fun r => ?_, ?_, fun t ht => ?_⟩
  · have hread : busRead s' off.toNat 1 = busRead s off.toNat 1 := busRead_one_congr rfl rfl rfl rfl hqb
    rw [readsAs_iff, readsAs_iff, hread]
  · rw [notAccepted_write_iff not_commandPort_one, notAccepted_write_iff not_commandPort_one]
    exact ⟨busWrite_none_congr rfl, busWrite_none_congr rfl⟩
  · obtain ⟨p, hp⟩ := (writesAs_iff not_commandPort_one).1 ht
    exact (congrArg (State.onHost s.pending s.cp s.results) (busWrite_one_frame hp)).symm

end Sys2Proof.Machine
end

section
/-! PROOFS. The statements of the encoding family (spec/30_encoding.md): the decoder against the opcode map, the words
that are no command, and the commands whose operand field is out of range. -/

namespace Sys2Proof.Machine

/-! ## Commands and their words -/

/-- A value fits an operand field when it is 0 to 15 (30_encoding.md R94). -/
theorem fitsField_iff {v : Nat} : fitsField v = true ↔ v < 16 := decide_eq_true_iff

/-- A permutation field takes four values, each 0 to 15 (R95). -/
theorem fitsFields_iff {p0 p1 p2 p3 : Nat} :
    (fitsField p0 && fitsField p1 && fitsField p2 && fitsField p3) = true ↔
      p0 < 16 ∧ p1 < 16 ∧ p2 < 16 ∧ p3 < 16 := by
  simp only [Bool.and_eq_true, fitsField_iff, and_assoc]

/-- Each command that fits its operand fields is the one its word decodes to (R101). -/
theorem decode_encode {i : Instr} (h : i.wellFormed = true) : decode (encode i) = .ok i := by
  cases i with
  | sysNop => exact (decode_sysNop (opcodeField_encodeN _)).trans (decodeN_encodeN _ _)
  | sysClrerr => exact (decode_sysClrerr (opcodeField_encodeN _)).trans (decodeN_encodeN _ _)
  | sysSreset => exact (decode_sysSreset (opcodeField_encodeN _)).trans (decodeN_encodeN _ _)
  | bpcEmbed b =>
    exact (decode_bpcEmbed (opcodeField_encodeB _ b)).trans (decodeB_encodeB _ _ (fitsField_iff.1 h))
  | bpcExtract b =>
    exact (decode_bpcExtract (opcodeField_encodeB _ b)).trans (decodeB_encodeB _ _ (fitsField_iff.1 h))
  | bpcEmbedf b =>
    exact (decode_bpcEmbedf (opcodeField_encodeB _ b)).trans (decodeB_encodeB _ _ (fitsField_iff.1 h))
  | bpcExtractf b =>
    exact (decode_bpcExtractf (opcodeField_encodeB _ b)).trans (decodeB_encodeB _ _ (fitsField_iff.1 h))
  | mleaEnc => exact (decode_mleaEnc (opcodeField_encodeN _)).trans (decodeN_encodeN _ _)
  | mleaDec => exact (decode_mleaDec (opcodeField_encodeN _)).trans (decodeN_encodeN _ _)
  | bpeSplit => exact (decode_bpeSplit (opcodeField_encodeN _)).trans (decodeN_encodeN _ _)
  | bpePerm p0 p1 p2 p3 =>
    obtain ⟨h0, h1, h2, h3⟩ := fitsFields_iff.1 h
    exact (decode_bpePerm (opcodeField_encodeP _ _ _ _ _)).trans (decodeP_encodeP _ _ h0 h1 h2 h3)
  | bpeUnperm p0 p1 p2 p3 =>
    obtain ⟨h0, h1, h2, h3⟩ := fitsFields_iff.1 h
    exact (decode_bpeUnperm (opcodeField_encodeP _ _ _ _ _)).trans (decodeP_encodeP _ _ h0 h1 h2 h3)
  | bpeMerge => exact (decode_bpeMerge (opcodeField_encodeN _)).trans (decodeN_encodeN _ _)

/-! ## Commands and the rows of the opcode map -/

/-- The row of every command, whatever its operands (R97). -/
theorem row_encode (i : Instr) : Laws.Row.Statement i := by
  cases i with
  | sysNop => exact Laws.Row.sysNop
  | sysClrerr => exact Laws.Row.sysClrerr
  | sysSreset => exact Laws.Row.sysSreset
  | bpcEmbed b => exact Laws.Row.bpcEmbed b
  | bpcExtract b => exact Laws.Row.bpcExtract b
  | bpcEmbedf b => exact Laws.Row.bpcEmbedf b
  | bpcExtractf b => exact Laws.Row.bpcExtractf b
  | mleaEnc => exact Laws.Row.mleaEnc
  | mleaDec => exact Laws.Row.mleaDec
  | bpeSplit => exact Laws.Row.bpeSplit
  | bpePerm p0 p1 p2 p3 => exact Laws.Row.bpePerm p0 p1 p2 p3
  | bpeUnperm p0 p1 p2 p3 => exact Laws.Row.bpeUnperm p0 p1 p2 p3
  | bpeMerge => exact Laws.Row.bpeMerge

/-- A word that decodes selects the row of its command, for it is that command's encoding (R97). -/
theorem row_of_decode {w : Word} {i : Instr} (h : decode w = .ok i) :
    ∃ r ∈ opcodeTable, w &&& r.mask = r.pattern ∧ r.mnemonic = i.mnemonic := by
  obtain ⟨-, rfl⟩ := wellFormed_encode_of_decode h
  exact row_encode i

/-- At most one row matches a word, because each row fixes the opcode (R97). -/
theorem row_unique {w : Word} {r r' : OpcodeRow} (hr : r ∈ opcodeTable) (hr' : r' ∈ opcodeTable)
    (hm : w &&& r.mask = r.pattern) (hm' : w &&& r'.mask = r'.pattern) : r = r' :=
  opcodeTable_inj r hr r' hr' ((mem_opcodeTable hr w hm).1.symm.trans (mem_opcodeTable hr' w hm').1)

/-- A word that selects no row is no command (R98). -/
theorem decode_error_of_no_row {w : Word} (h : ∀ r ∈ opcodeTable, w &&& r.mask ≠ r.pattern) :
    ∃ d, decode w = .error d := by
  cases hd : decode w with
  | error d => exact ⟨d, rfl⟩
  | ok i =>
    obtain ⟨r, hr, hm, -⟩ := row_of_decode hd
    exact absurd hm (h r hr)

/-! ## What a command word does -/

/-- While an error is recorded a `CMD` write of any word but 1 and 2 is answered and not acted on (R97, R218). -/
theorem step_gated {s : State} {w : Word} {rest : List HostEvent} (he : s.err = true) (h1 : w ≠ 1) (h2 : w ≠ 2)
    (hp : s.pending = cmdWrite w :: rest) : step s = .next (s.answer rest .ok) := by
  have hg : (s.answer rest .ok).err = true := he
  rw [step_cmdWrite hp]
  cases hd : decode w with
  | error d => rw [executeWord_error _ hd, illegalCommand, if_pos hg]
  | ok i =>
    rw [executeWord_ok _ hd]
    obtain ⟨-, rfl⟩ := wellFormed_encode_of_decode hd
    refine exec_of_err hg ?_ ?_
    · rintro rfl; exact h1 rfl
    · rintro rfl; exact h2 rfl

/-- A command of which a check fails, written with the gate open, records that error and does nothing else. -/
theorem step_failing {s : State} {i : Instr} {c : Cause} {rest : List HostEvent} (he : s.err = false)
    (hp : s.pending = cmdWrite (encode i) :: rest) (hd : decode (encode i) = .ok i)
    (hc : effectOf i (s.answer rest .ok) = .error c) :
    step s = .next ((s.answer rest .ok).failed c.code c.sub c.req c.avail (encode i)) := by
  rw [step_cmdWrite hp, executeWord_ok _ hd]
  exact exec_of_error he hc

/-- An illegal `bpp` is the first check of the commands that have one (R94, R215). -/
theorem effectOf_bppRange {i : Instr} {b : Nat} (hi : i.bppOperand = some b) (hb : ¬(1 ≤ b ∧ b ≤ 4)) (s : State) :
    effectOf i s = .error .bppRange := by
  have hl : bppLegal b = false := bppLegal_eq_false.2 hb
  cases i with
  | bpcEmbed | bpcEmbedf => cases hi; rw [effectOf, embedEffect, if_pos hl]
  | bpcExtract => cases hi; rw [effectOf, extractEffect, if_pos hl]
  | bpcExtractf => cases hi; rw [effectOf, extractfEffect, if_pos hl]
  | _ => cases hi

/-- A permutation field that is no bijection is the first check of the commands that have one (R95, R215). -/
theorem effectOf_permInvalid {i : Instr} {p : List Nat} (hi : i.permOperand = some p)
    (hp : ¬p.Perm [0, 1, 2, 3]) (s : State) : effectOf i s = .error .permInvalid := by
  cases i with
  | bpePerm | bpeUnperm =>
    cases hi
    rw [effectOf, reorderEffect, if_pos (Bool.eq_false_iff.2 (mt permValid_iff.1 hp))]
  | _ => cases hi

/-- The reserved ranges of R99 hold no opcode. -/
theorem reserved_not_knownOpcodes {n : Nat} (h : (0x03 ≤ n ∧ n ≤ 0x0F) ∨ (0x14 ≤ n ∧ n ≤ 0x1F) ∨
    (0x22 ≤ n ∧ n ≤ 0x2F) ∨ (0x34 ≤ n ∧ n ≤ 0xFF)) : n ∉ knownOpcodes := by
  simp only [knownOpcodes, List.mem_cons, List.not_mem_nil, or_false]
  omega

/-! ## The statements -/

/-- Settles O4: the decoder and the opcode map agree because a word that decodes is the encoding of its command, and
the encoding of a command matches its row. -/
theorem decodeFollowsTheOpcodeTable : Obligations.DecodeFollowsTheOpcodeTable :=
  ⟨fun w _ hr hm => (mem_opcodeTable hr w hm).2, fun _ _ => row_of_decode, fun _ _ _ => row_unique,
    fun _ _ _ => step_gated⟩

/-- Settles O5: a word that selects no row does not decode, and such a word records IllegalCommand. -/
theorem wordsThatAreNoCommandRaiseIllegalCommand : Obligations.WordsThatAreNoCommandRaiseIllegalCommand := by
  refine ⟨fun s w rest he hp hrow => ?_, fun w => ?_⟩
  · obtain ⟨d, hd⟩ := decode_error_of_no_row hrow
    rw [← opcodeField_eq]
    exact step_illegal he hp hd
  · cases decode w with
    | ok i => exact .inl ⟨i, rfl⟩
    | error d => exact .inr ⟨d, rfl⟩

/-- Settles O6: a reserved opcode is not in the map, and a bad operand, which fits its field, fails the command's first
check. -/
theorem reservedOpcodesAreIllegalAndBadOperandsAreNot : Obligations.ReservedOpcodesAreIllegalAndBadOperandsAreNot := by
  refine ⟨fun s w rest he hp hw => ?_, fun s rest b he hb hbad i hi hp => ?_,
    fun s rest p0 p1 p2 p3 he h0 h1 h2 h3 hperm i hi hp => ?_⟩
  · have hop : opcodeField w ∉ knownOpcodes := opcodeField_eq w ▸ reserved_not_knownOpcodes hw
    rw [step_illegal he hp (decode_unknown hop), if_neg hop]
  · obtain ⟨hwf, hop⟩ : i.wellFormed = true ∧ i.bppOperand = some b := by
      simp only [List.mem_cons, List.not_mem_nil, or_false] at hi
      rcases hi with rfl | rfl | rfl | rfl <;> exact ⟨fitsField_iff.2 hb, rfl⟩
    have hd := decode_encode hwf
    exact ⟨hd, step_failing he hp hd (effectOf_bppRange hop (by omega) _)⟩
  · obtain ⟨hwf, hop⟩ : i.wellFormed = true ∧ i.permOperand = some [p0, p1, p2, p3] := by
      simp only [List.mem_cons, List.not_mem_nil, or_false] at hi
      rcases hi with rfl | rfl <;> exact ⟨fitsFields_iff.2 ⟨h0, h1, h2, h3⟩, rfl⟩
    have hd := decode_encode hwf
    exact ⟨hd, step_failing he hp hd (effectOf_permInvalid hop hperm _)⟩

end Sys2Proof.Machine
end

section
/-! PROOFS. The statements of the block permutation family (spec/40_bpe_block_permutation.md): the four regions of a
plane, whole buffers moved by `bpe.perm` and back by `bpe.unperm`, and the plane `bpe.merge` writes. -/

namespace Sys2Proof.Machine

/-! ## The four regions -/

/-- An element of the plane has one region and one place in it: some region holds it, and no two share it (R120). -/
theorem existsUnique_region {h w h2 w2 : Nat} (hh : h2 ≤ h) (hw : w2 ≤ w) {p : Nat} (hp : p < h * w) :
    ∃! x : Fin 4 × Nat × Nat, x.2.1 < (region h w h2 w2 x.1).rows ∧ x.2.2 < (region h w h2 w2 x.1).cols ∧
      p = ((region h w h2 w2 x.1).r0 + x.2.1) * w + (region h w h2 w2 x.1).c0 + x.2.2 := by
  obtain ⟨k, r, hr, c, hc, rfl⟩ := exists_region hh hw hp
  refine ⟨(k, r, c), ⟨hr, hc, rfl⟩, ?_⟩
  rintro ⟨k', r', c'⟩ ⟨hr', hc', he⟩
  obtain ⟨rfl, rfl, rfl⟩ := region_disjoint hw hr hc hr' hc' he
  rfl

/-- The element counts of the four regions sum to the plane's (R120). -/
theorem region_sizes_sum {h w h2 w2 : Nat} (hh : h2 ≤ h) (hw : w2 ≤ w) :
    h2 * w2 + h2 * (w - w2) + (h - h2) * w2 + (h - h2) * (w - w2) = h * w := by
  obtain ⟨a, rfl⟩ := Nat.exists_eq_add_of_le hh
  obtain ⟨b, rfl⟩ := Nat.exists_eq_add_of_le hw
  rw [Nat.add_sub_cancel_left, Nat.add_sub_cancel_left]
  ring

/-! ## Whole buffers -/

/-- Moving the buffers back undoes moving them, in every position (R126). -/
theorem unpermute_permute (qb : Vector Quadrant 4) (p : Equiv.Perm (Fin 4)) :
    unpermuteQuadrants (permuteQuadrants qb (p 0) (p 1) (p 2) (p 3)) (p 0) (p 1) (p 2) (p 3) = qb := by
  ext j hj
  have hback := (unpermute_eq _ p (p.symm ⟨j, hj⟩)).trans (permute_eq qb p (p.symm ⟨j, hj⟩))
  simp only [Equiv.apply_symm_apply] at hback
  exact hback

/-- Moving the buffers undoes moving them back, in every position (R126). -/
theorem permute_unpermute (qb : Vector Quadrant 4) (p : Equiv.Perm (Fin 4)) :
    permuteQuadrants (unpermuteQuadrants qb (p 0) (p 1) (p 2) (p 3)) (p 0) (p 1) (p 2) (p 3) = qb := by
  ext j hj
  exact (permute_eq _ p ⟨j, hj⟩).trans (unpermute_eq qb p ⟨j, hj⟩)

/-! ## Failing checks -/

/-- With a valid permutation, the commands that have one fail where no split has completed (R122, R123). -/
theorem effectOf_perm_noSplit {i : Instr} {p : List Nat} {s : State} (hi : i.permOperand = some p)
    (hp : p.Perm [0, 1, 2, 3]) (hq : s.qv = false) : effectOf i s = .error .noSplit := by
  cases i with
  | bpePerm | bpeUnperm =>
    cases hi
    rw [effectOf, reorderEffect, if_neg (by rw [permValid_iff.2 hp]; decide), if_pos hq]
  | _ => cases hi

/-- The first check of `bpe.merge`: the plane fits PM (R124). -/
theorem mergeEffect_dimsTooLarge {s : State} (h : s.cfg.pmMax < s.count) : mergeEffect s = .error .dimsTooLarge :=
  if_pos h

/-- The second check of `bpe.merge`: a split has completed (R124). -/
theorem mergeEffect_noSplit {s : State} (h : s.count ≤ s.cfg.pmMax) (hq : s.qv = false) :
    mergeEffect s = .error .noSplit := by
  rw [mergeEffect, if_neg (not_lt.2 h), if_pos hq]

/-! ## The statements -/

/-- Settles O28: the regions cover the plane and do not overlap, so each element has exactly one place. -/
theorem theFourRegionsPartitionThePlane : Obligations.TheFourRegionsPartitionThePlane := by
  intro h w h2 w2 hh hw
  exact ⟨rfl, rfl, rfl, rfl, fun _ => existsUnique_region hh hw, fun _ _ _ => region_lt hh hw,
    region_sizes_sum hh hw, by omega, by omega⟩

/-- Settles O30: a completed `bpe.perm` replaces the buffers by the permuted ones, and the word each error records is
the command's own. -/
theorem bpePermMovesWholeBuffers : Obligations.BpePermMovesWholeBuffers := by
  refine ⟨fun s p he hq => ⟨_, exec_perm he hq p, permute_eq s.qb p⟩, fun s p0 p1 p2 p3 h0 h1 h2 h3 => ?_⟩
  have hw : encode (.bpePerm p0 p1 p2 p3) = wordP 0x31 p0 p1 p2 p3 := (wordP_eq 0x31 h0 h1 h2 h3).symm
  rw [← hw]
  refine ⟨decode_encode (fitsFields_iff.2 ⟨h0, h1, h2, h3⟩), fun he hp => ?_, fun he hp hq => ?_⟩
  · exact exec_of_error he (effectOf_permInvalid rfl hp s)
  · exact exec_of_error he (effectOf_perm_noSplit rfl hp hq)

/-- Settles O32: the checks of `bpe.merge` in their order, then the writes, which are to distinct indices, all in the
plane. -/
theorem bpeMergeWritesThePlane : Obligations.BpeMergeWritesThePlane := by
  refine ⟨decode_encode (i := .bpeMerge) rfl, fun s he =>
    ⟨fun hN => ?_, fun hN hq => ?_, fun hN hq hfit => ?_, fun hN hq hfit => ?_⟩⟩
  · exact exec_of_error (i := .bpeMerge) he (mergeEffect_dimsTooLarge hN)
  · exact exec_of_error (i := .bpeMerge) he (mergeEffect_noSplit hN hq)
  · exact exec_of_error (i := .bpeMerge) he (mergeEffect_mismatch hN hq (mt (quadrantsFit_iff s).2 hfit))
  · have hfits := (quadrantsFit_iff s).1 hfit
    have ⟨⟨hh, hw⟩, _⟩ := hfits
    refine ⟨_, exec_of_ok (i := .bpeMerge) he (mergeEffect_ok hN hq hfits), ?_, fun j => read_merge_beyond s hh hw⟩
    rintro k g rfl r hr c hc
    exact read_merge s hw k hr hc

/-- Settles O33: both commands complete whatever the buffers hold, and the buffers they leave are those before. -/
theorem permAndUnpermAreInverse : Obligations.PermAndUnpermAreInverse := by
  intro s p he hq
  have hperm (qb : Vector Quadrant 4) : exec (.bpePerm (p 0) (p 1) (p 2) (p 3)) { s with qb := qb } =
      .next { s with qb := permuteQuadrants qb (p 0) (p 1) (p 2) (p 3) } :=
    exec_perm (s := { s with qb := qb }) he hq p
  have hunperm (qb : Vector Quadrant 4) : exec (.bpeUnperm (p 0) (p 1) (p 2) (p 3)) { s with qb := qb } =
      .next { s with qb := unpermuteQuadrants qb (p 0) (p 1) (p 2) (p 3) } :=
    exec_unperm (s := { s with qb := qb }) he hq p
  constructor
  · rw [execSeq_cons (hperm s.qb), execSeq_cons (hunperm _), unpermute_permute, execSeq]
  · rw [execSeq_cons (hunperm s.qb), execSeq_cons (hperm _), permute_unpermute, execSeq]

end Sys2Proof.Machine
end

section
/-! PROOFS. The statements of the cipher family (spec/41_mlea_cipher.md): what both cipher commands check and write,
said once for the byte function they apply, and the state that tells the two commands apart. -/

namespace Sys2Proof.Machine

/-! ## Both cipher commands -/

/-- The first check of a cipher command: the data fits DB (R143). -/
theorem cipherEffect_dblenTooLarge {f : Nat → Byte → Byte} {s : State} (h : s.cfg.dbMax < s.dblen.toNat) :
    cipherEffect f s = .error .dblenTooLarge :=
  if_pos h

/-- The second check of a cipher command: the digest has 1 to 64 bytes (R143). -/
theorem cipherEffect_kdlenRange {f : Nat → Byte → Byte} {s : State} (h : s.dblen.toNat ≤ s.cfg.dbMax)
    (hk : s.kdlen.toNat = 0 ∨ 64 < s.kdlen.toNat) : cipherEffect f s = .error .kdlenRange := by
  rw [cipherEffect, if_neg (not_lt.2 h), if_pos (kdlenLegal_eq_false.2 hk)]

/-- `mlea.enc` scrambles, then adds the keystream (R143). -/
theorem effectOf_mleaEnc (s : State) :
    effectOf .mleaEnc s = cipherEffect (fun i x => scramble x ^^^ s.keystream i) s := rfl

/-- `mlea.dec` removes the keystream, then unscrambles (R144). -/
theorem effectOf_mleaDec (s : State) :
    effectOf .mleaDec s = cipherEffect (fun i y => unscramble (y ^^^ s.keystream i)) s := rfl

/-- A command that applies the byte function `f` to DB fails on its two checks in order; else the first DBLEN bytes are
mapped by `f` and every other byte and register stays (R143, R144). -/
theorem exec_cipher {i : Instr} {f : Nat → Byte → Byte} {s : State} (hi : effectOf i s = cipherEffect f s)
    (he : s.err = false) :
    (s.cfg.dbMax < s.dblen.toNat → exec i s = .next (s.failed 1 4 0 0 (encode i))) ∧
    (s.dblen.toNat ≤ s.cfg.dbMax → s.kdlen.toNat = 0 ∨ 64 < s.kdlen.toNat →
      exec i s = .next (s.failed 1 5 0 0 (encode i))) ∧
    (s.dblen.toNat ≤ s.cfg.dbMax → 1 ≤ s.kdlen.toNat → s.kdlen.toNat ≤ 64 → ∃ db' : Memory,
      exec i s = .next { s with db := db' } ∧
      (∀ k < s.dblen.toNat, db'.read k = f k (s.db.read k)) ∧
      ∀ j, s.dblen.toNat ≤ j → db'.read j = s.db.read j) := by
  refine ⟨fun hL => ?_, fun hL hk => ?_, fun hL h1 h64 => ?_⟩
  · exact exec_of_error he (hi.trans (cipherEffect_dblenTooLarge hL))
  · exact exec_of_error he (hi.trans (cipherEffect_kdlenRange hL hk))
  · refine ⟨_, exec_of_ok he (hi.trans (cipherEffect_ok hL h1 h64)), fun k hk => ?_, fun j hj => ?_⟩
    · rw [Memory.read_writeAll_range, if_pos hk]
    · rw [Memory.read_writeAll_range, if_neg (not_lt.2 hj)]

/-! ## A state that tells the commands apart -/

/-- The data byte 0x48 under the one-byte digest 0xA5, all else as after reset. -/
def cipherSample : State :=
  { State.reset with
    db := State.reset.db.write 0 0x48, dblen := 1
    kd := kdWrite State.reset.kd 0 0xA5, kdlen := 1 }

/-- From 0x48, `mlea.enc` leaves 0x3C and then 0x52, `mlea.dec` 0xE9 and then 0x64: four bytes other than 0x48, the
first of each command different (R144). -/
theorem cipherSample_runs :
    ∃ t u v w : State, exec .mleaEnc cipherSample = .next t ∧ exec .mleaEnc t = .next u ∧
      exec .mleaDec cipherSample = .next v ∧ exec .mleaDec v = .next w ∧ u.err = false ∧ w.err = false ∧
      t.db.read 0 = 0x3C ∧ u.db.read 0 = 0x52 ∧ v.db.read 0 = 0xE9 ∧ w.db.read 0 = 0x64 :=
  ⟨_, _, _, _, rfl, rfl, rfl, rfl, by decide⟩

/-! ## The statements -/

/-- Settles O39: the byte function is the scrambler followed by the keystream, and the word an error records is the
command's own. -/
theorem mleaEncScramblesThenAddsTheKeystream : Obligations.MleaEncScramblesThenAddsTheKeystream :=
  ⟨decode_encode (i := .mleaEnc) rfl, fun s he => exec_cipher (effectOf_mleaEnc s) he⟩

/-- Settles O40: the byte function is the keystream followed by the unscrambler; `cipherSample` is the state of the
last clause. -/
theorem mleaDecRemovesTheKeystreamThenUnscrambles : Obligations.MleaDecRemovesTheKeystreamThenUnscrambles := by
  refine ⟨decode_encode (i := .mleaDec) rfl, fun s he => exec_cipher (effectOf_mleaDec s) he, ?_⟩
  obtain ⟨t, u, v, w, ht, hu, hv, hw, hue, hwe, htb, hub, hvb, hwb⟩ := cipherSample_runs
  have hsb : cipherSample.db.read 0 = 0x48 := by decide
  refine ⟨cipherSample, t, u, v, w, rfl, ht, hu, hv, hw, hue, hwe, ?_, ?_, ?_⟩
  · rw [hvb, htb]; decide
  · rw [hub, hsb]; decide
  · rw [hwb, hsb]; decide

end Sys2Proof.Machine
end

section
/-! PROOFS. The statements of the bit-plane codec family on embedding (spec/42_bpc_bitplane_codec.md R170, R172): what
both embed commands check and write, said once for the payload they embed. -/

namespace Sys2Proof.Machine

/-! ## The checks of an embed command -/

/-- The first check of an embed command: 1 to 4 bits per pixel (R94, R170). -/
theorem embedEffect_bppRange {b len : Nat} {payload : List Byte} {s : State} (hb : ¬(1 ≤ b ∧ b ≤ 4)) :
    embedEffect b len payload s = .error .bppRange :=
  if_pos (bppLegal_eq_false.2 hb)

/-- The second check of an embed command: the plane fits PM (R170). -/
theorem embedEffect_dimsTooLarge {b len : Nat} {payload : List Byte} {s : State} (hb : 1 ≤ b ∧ b ≤ 4)
    (hN : s.cfg.pmMax < s.count) : embedEffect b len payload s = .error .dimsTooLarge := by
  rw [embedEffect, if_neg (mt bppLegal_eq_false.1 (not_not.2 hb)), if_pos hN]

/-- The third check of an embed command: the data fits DB (R170). -/
theorem embedEffect_dblenTooLarge {b len : Nat} {payload : List Byte} {s : State} (hb : 1 ≤ b ∧ b ≤ 4)
    (hN : s.count ≤ s.cfg.pmMax) (hL : s.cfg.dbMax < s.dblen.toNat) :
    embedEffect b len payload s = .error .dblenTooLarge := by
  rw [embedEffect, if_neg (mt bppLegal_eq_false.1 (not_not.2 hb)), if_neg (not_lt.2 hN), if_pos hL]

/-- The last check of an embed command: the payload's bits fit the plane (R170, R172). -/
theorem embedEffect_payloadTooLong {b len : Nat} {payload : List Byte} {s : State} (hb : 1 ≤ b ∧ b ≤ 4)
    (hN : s.count ≤ s.cfg.pmMax) (hL : s.dblen.toNat ≤ s.cfg.dbMax) (hc : s.capacity b < 8 * len) :
    embedEffect b len payload s = .error (.payloadTooLong (8 * len) (s.capacity b)) := by
  rw [embedEffect, if_neg (mt bppLegal_eq_false.1 (not_not.2 hb)), if_neg (not_lt.2 hN), if_neg (not_lt.2 hL),
    if_pos hc]

/-! ## Both embed commands -/

/-- A command that embeds a payload of `len` bytes fails on its four checks in order; else the plane holds the payload's
bits and every other part of the state stays (R170, R172). -/
theorem exec_embed {i : Instr} {b len : Nat} {payload : List Byte} {bit : Nat → Bool} {s : State}
    (hi : effectOf i s = embedEffect b len payload s) (hlen : payload.length = len)
    (hbit : ∀ m < 8 * len, (unpack payload).getD m false = bit m) (he : s.err = false) :
    (¬(1 ≤ b ∧ b ≤ 4) → exec i s = .next (s.failed 1 1 0 0 (encode i))) ∧
    (1 ≤ b → b ≤ 4 → s.cfg.pmMax < s.count → exec i s = .next (s.failed 1 3 0 0 (encode i))) ∧
    (1 ≤ b → b ≤ 4 → s.count ≤ s.cfg.pmMax → s.cfg.dbMax < s.dblen.toNat →
      exec i s = .next (s.failed 1 4 0 0 (encode i))) ∧
    (1 ≤ b → b ≤ 4 → s.count ≤ s.cfg.pmMax → s.dblen.toNat ≤ s.cfg.dbMax → s.capacity b < 8 * len →
      exec i s = .next (s.failed 2 1 (8 * len) (s.capacity b) (encode i))) ∧
    (1 ≤ b → b ≤ 4 → s.count ≤ s.cfg.pmMax → s.dblen.toNat ≤ s.cfg.dbMax → 8 * len ≤ s.capacity b →
      ∃ pm', exec i s = .next { s with pm := pm' } ∧ embedsStream s pm' b (8 * len) bit) := by
  refine ⟨fun hb => ?_, fun h1 h4 hN => ?_, fun h1 h4 hN hL => ?_, fun h1 h4 hN hL hc => ?_,
    fun h1 h4 hN hL hc => ?_⟩
  · exact exec_of_error he (hi.trans (embedEffect_bppRange hb))
  · exact exec_of_error he (hi.trans (embedEffect_dimsTooLarge ⟨h1, h4⟩ hN))
  · exact exec_of_error he (hi.trans (embedEffect_dblenTooLarge ⟨h1, h4⟩ hN hL))
  · exact exec_of_error he (hi.trans (embedEffect_payloadTooLong ⟨h1, h4⟩ hN hL hc))
  · have hbits : (unpack payload).length = 8 * len := by rw [length_unpack, hlen]
    exact ⟨_, exec_of_ok he (hi.trans (embedEffect_ok ⟨h1, h4⟩ hN hL hc)), embedsStream_of s h1 h4 hbits hbit⟩

/-- `bpc.embed` embeds the data as it is (R170). -/
theorem effectOf_bpcEmbed (b : Nat) (s : State) :
    effectOf (.bpcEmbed b) s = embedEffect b s.dblen.toNat (rawPayload s) s := rfl

/-- `bpc.embedf` embeds the data's length in four bytes, then the data (R172). -/
theorem effectOf_bpcEmbedf (b : Nat) (s : State) :
    effectOf (.bpcEmbedf b) s = embedEffect b (s.dblen.toNat + 4) (framedPayload s) s := rfl

/-! ## The statements -/

/-- Settles O44: the payload is DB's first DBLEN bytes, whose bits are the stream, and the word an error records is the
command's own. -/
theorem bpcEmbedWritesTheBitStream : Obligations.BpcEmbedWritesTheBitStream := by
  intro b hb
  refine ⟨decode_wordB 0x10 .bpcEmbed hb fun _ => decode_bpcEmbed, fun s he => ?_⟩
  have hw : wordB 0x10 b = encode (.bpcEmbed b) := wordB_eq 0x10 hb
  rw [hw]
  exact exec_embed (effectOf_bpcEmbed b s) (length_rawPayload s) (getD_rawPayload s) he

/-- Settles O45: the payload is the header and DB's first DBLEN bytes, whose bits are the stream, and the word an error
records is the command's own. -/
theorem bpcEmbedfWritesHeaderAndBitStream : Obligations.BpcEmbedfWritesHeaderAndBitStream := by
  intro b hb
  refine ⟨decode_wordB 0x12 .bpcEmbedf hb fun _ => decode_bpcEmbedf, fun s he => ?_⟩
  have hw : wordB 0x12 b = encode (.bpcEmbedf b) := wordB_eq 0x12 hb
  rw [hw]
  exact exec_embed (effectOf_bpcEmbedf b s) (length_framedPayload s) (getD_framedPayload s) he

end Sys2Proof.Machine
end

section
/-! PROOFS. The statements of the SYS family (spec/43_sys_commands.md): the empty command, the return from an error and
the soft reset. -/

namespace Sys2Proof.Machine

/-! ## The soft reset -/

/-- `sys.sreset` gives the "after sys.sreset" column of R48: each register by its definition, the quadrants' shapes and
KD by what is read of them (R202). -/
theorem softReset_registersClear (s : State) : (softReset s).registersClear := by
  have hqdim (k : Fin 4) : (softReset s).qb[k].shape = ⟨0, 0⟩ := by rw [softReset_qb]; rfl
  have hkd (i : Nat) : kdRead (softReset s).kd i = 0 := kdRead_zero i
  exact ⟨rfl, rfl, rfl, rfl, rfl, rfl, rfl, rfl, rfl, rfl, rfl, rfl, rfl, rfl, rfl, hqdim, hkd⟩

/-! ## The return from an error -/

/-- Clearing takes back every write of the error entry: what is left is what clearing alone gives (R216, R219). -/
theorem clearError_errorEntry (c : Cause) (w : Word) (s : State) : clearError (errorEntry c w s) = clearError s := rfl

/-- After a command that failed, clearing gives back the state before it (R201). -/
theorem clearError_of_failed {i : Instr} {s t : State} (he : s.err = false) (hc : s.errorConsistent)
    (h : exec i s = .next t) (ht : t.err = true) : clearError t = s := by
  obtain ⟨c, -, rfl⟩ := exec_failed he h ht
  rw [clearError_errorEntry]
  exact clearError_of_clear he ((errorConsistent_false he).1 hc)

/-- A word with the opcode of a command of format N, but not that command's one word, has a reserved bit set
(30_encoding.md R91, R98). -/
theorem decodeN_reservedBit {w : Word} {op : Byte} (i : Instr) (ho : opcodeField w = op.toNat) (hw : w ≠ encodeN op) :
    decodeN w i = .error .reservedBit := by
  refine if_neg fun hz => hw ?_
  obtain ⟨hzero, -⟩ := decodeN_ok.1 (if_pos hz : decodeN w i = .ok i)
  exact (encodeN_eq hzero ho).symm

/-! ## The statements -/

/-- Settles O20: the registers and KD after the soft reset, and a quadrant, which keeps its data and loses its shape. -/
theorem softResetClearsRegistersAndKeepsMemories : Obligations.SoftResetClearsRegistersAndKeepsMemories := by
  refine ⟨decode_encode (i := .sysSreset) rfl, fun s => ?_⟩
  have hdata (k : Fin 4) : (softReset s).qb[k].data = s.qb[k].data := by rw [softReset_qb]
  exact ⟨softReset s, exec_sysSreset s, softReset_registersClear s, rfl, rfl, hdata, rfl, rfl, rfl, rfl, rfl⟩

/-- Settles O23: `sys.clrerr` is `clearError`, which takes back the one thing a failed command does, the error entry. -/
theorem sysClrerrRestoresTheStateBeforeTheError : Obligations.SysClrerrRestoresTheStateBeforeTheError := by
  refine ⟨decode_encode (i := .sysClrerr) rfl, fun s => exec_sysClrerr s, fun s he hc => ?_,
    fun i s t he hc h ht => ?_, fun w ho hw => ?_⟩
  · rw [exec_sysClrerr, clearError_of_clear he ((errorConsistent_false he).1 hc)]
  · rw [exec_sysClrerr, clearError_of_failed he hc h ht]
  · rw [← opcodeField_eq] at ho
    rw [decode_sysClrerr ho]
    exact decodeN_reservedBit (op := 0x01) _ ho hw

/-- Settles O22: the word 0 encodes `sys.nop`, whose meaning is the state it is given. -/
theorem sysNopChangesNothing : Obligations.SysNopChangesNothing :=
  ⟨decode_encode (i := .sysNop) rfl, exec_sysNop⟩

end Sys2Proof.Machine
end

section
/-! PROOFS. The statements of the error family (spec/60_exceptions.md): what a failing command records, that the check
it reports is the first of the priority order, and the gate. -/

namespace Sys2Proof.Machine

/-! ## Causes in the terms of the statements -/

/-- The place of a cause's check in the priority order (R215): 2 the decoder, then the stages of `errorAt`. -/
def Cause.stage : Cause → Nat
  | .unknownOpcode | .reservedBit => 2
  | .bppRange | .permInvalid => 3
  | .dimsTooLarge => 4
  | .dblenTooLarge => 5
  | .kdlenRange => 6
  | .noSplit => 7
  | .shapeMismatch => 8
  | .payloadTooLong _ _ | .extractTooLong _ _ | .noRoomForHeader _ _ => 9
  | .headerTooLarge _ _ => 10

/-- What the error entry records of a cause, the command word aside (R214, R216). -/
def Cause.figures (c : Cause) : ErrorFigures := ⟨c.code, c.sub, c.req, c.avail⟩

/-- The command fails, at stage `n` of the priority order or before (R215). -/
abbrev Effect.failsBy (e : Effect) (n : Nat) : Prop := ∃ c, e = .error c ∧ c.stage ≤ n

/-! ## A failing check is reported, or an earlier one is -/

/-- An embed command fails no later than at any of its checks that fails (R170, R172). -/
theorem embedEffect_failsBy {b len n : Nat} {payload : List Byte} {s : State}
    (h : (s.cfg.pmMax < s.count ∧ 4 ≤ n) ∨ (s.cfg.dbMax < s.dblen.toNat ∧ 5 ≤ n) ∨
      (s.capacity b < 8 * len ∧ 9 ≤ n)) : (embedEffect b len payload s).failsBy n := by
  rcases embedEffect_cases b len payload s with ⟨-, e⟩ | ⟨-, -, e⟩ | ⟨-, hN, -, e⟩ | ⟨-, hN, hL, -, e⟩ |
    ⟨-, hN, hL, hc, -⟩
  · exact ⟨_, e, show 3 ≤ n by omega⟩
  · exact ⟨_, e, show 4 ≤ n by omega⟩
  · exact ⟨_, e, show 5 ≤ n by omega⟩
  · exact ⟨_, e, show 9 ≤ n by omega⟩
  · omega

/-- `bpc.extract` fails no later than at any of its checks that fails (R171). -/
theorem extractEffect_failsBy {b n : Nat} {s : State}
    (h : (s.cfg.pmMax < s.count ∧ 4 ≤ n) ∨ (s.capacity b < s.numbits.toNat ∧ 9 ≤ n)) :
    (extractEffect b s).failsBy n := by
  rcases extractEffect_cases b s with ⟨-, e⟩ | ⟨-, -, e⟩ | ⟨-, hN, -, e⟩ | ⟨-, hN, hc, -⟩
  · exact ⟨_, e, show 3 ≤ n by omega⟩
  · exact ⟨_, e, show 4 ≤ n by omega⟩
  · exact ⟨_, e, show 9 ≤ n by omega⟩
  · omega

/-- `bpc.extractf` fails no later than at any of its checks that fails; the header is looked at only where the plane
holds one (R173). -/
theorem extractfEffect_failsBy {b n : Nat} {s : State}
    (h : (s.cfg.pmMax < s.count ∧ 4 ≤ n) ∨ (s.capacity b < 32 ∧ 9 ≤ n) ∨
      ((1 ≤ b → 32 ≤ s.capacity b → s.capacity b < 32 + 8 * headerLength b s) ∧ 10 ≤ n)) :
    (extractfEffect b s).failsBy n := by
  rcases extractfEffect_cases b s with ⟨-, e⟩ | ⟨-, -, e⟩ | ⟨-, hN, -, e⟩ | ⟨-, hN, hc, -, e⟩ | ⟨hb, hN, hc, -⟩
  · exact ⟨_, e, show 3 ≤ n by omega⟩
  · exact ⟨_, e, show 4 ≤ n by omega⟩
  · exact ⟨_, e, show 9 ≤ n by omega⟩
  · exact ⟨_, e, show 10 ≤ n by omega⟩
  · omega

/-- A cipher command fails no later than at any of its checks that fails (R143, R144). -/
theorem cipherEffect_failsBy {f : Nat → Byte → Byte} {n : Nat} {s : State}
    (h : (s.cfg.dbMax < s.dblen.toNat ∧ 5 ≤ n) ∨ ((s.kdlen.toNat = 0 ∨ 64 < s.kdlen.toNat) ∧ 6 ≤ n)) :
    (cipherEffect f s).failsBy n := by
  rcases cipherEffect_cases f s with ⟨-, e⟩ | ⟨hL, -, e⟩ | ⟨hL, hk, -⟩
  · exact ⟨_, e, show 5 ≤ n by omega⟩
  · exact ⟨_, e, show 6 ≤ n by omega⟩
  · omega

/-- `bpe.perm` and `bpe.unperm` fail no later than at the check of STATUS.QV where no split has completed (R122,
R123). -/
theorem reorderEffect_failsBy {p0 p1 p2 p3 : Nat} {qb' : Vector Quadrant 4} {s : State} (hq : s.qv = false) :
    (reorderEffect p0 p1 p2 p3 qb' s).failsBy 7 := by
  rcases reorderEffect_cases p0 p1 p2 p3 qb' s with ⟨-, e⟩ | ⟨-, -, e⟩ | ⟨-, hq', -⟩
  · exact ⟨_, e, by decide⟩
  · exact ⟨_, e, by decide⟩
  · simp [hq] at hq'

/-- `bpe.merge` fails no later than at the check of STATUS.QV where no split has completed (R124). -/
theorem mergeEffect_failsBy_noSplit {s : State} (hq : s.qv = false) : (mergeEffect s).failsBy 7 := by
  rcases mergeEffect_cases s with ⟨-, e⟩ | ⟨-, -, e⟩ | ⟨-, hq', -⟩ | ⟨-, hq', -⟩
  · exact ⟨_, e, by decide⟩
  · exact ⟨_, e, by decide⟩
  · simp [hq] at hq'
  · simp [hq] at hq'

/-- `bpe.merge` fails where the quadrants do not fit their positions (R124). -/
theorem mergeEffect_failsBy_shapes {s : State} (hf : ¬s.mergeFits) : (mergeEffect s).failsBy 8 := by
  rcases mergeEffect_cases s with ⟨-, e⟩ | ⟨-, -, e⟩ | ⟨-, -, -, e⟩ | ⟨-, -, hf', -⟩
  · exact ⟨_, e, by decide⟩
  · exact ⟨_, e, by decide⟩
  · exact ⟨_, e, by decide⟩
  · exact absurd hf' hf

/-- A command that checks DIMS fails no later than there where the plane is larger than PM (R215). -/
theorem effectOf_failsBy_dims {i : Instr} {s : State} (hi : i.checksDims = true) (hN : s.cfg.pmMax < s.count) :
    (effectOf i s).failsBy 4 := by
  cases i with
  | bpcEmbed | bpcEmbedf => exact embedEffect_failsBy (.inl ⟨hN, le_rfl⟩)
  | bpcExtract => exact extractEffect_failsBy (.inl ⟨hN, le_rfl⟩)
  | bpcExtractf => exact extractfEffect_failsBy (.inl ⟨hN, le_rfl⟩)
  | bpeSplit => exact ⟨_, if_pos hN, le_rfl⟩
  | bpeMerge => exact ⟨_, mergeEffect_dimsTooLarge hN, le_rfl⟩
  | _ => simp [Instr.checksDims, Instr.mnemonic] at hi

/-- A command that checks DBLEN fails no later than there where the data is larger than DB (R215). -/
theorem effectOf_failsBy_dblen {i : Instr} {s : State} (hi : i.checksDblen = true)
    (hL : s.cfg.dbMax < s.dblen.toNat) : (effectOf i s).failsBy 5 := by
  cases i with
  | bpcEmbed | bpcEmbedf => exact embedEffect_failsBy (.inr (.inl ⟨hL, le_rfl⟩))
  | mleaEnc => exact effectOf_mleaEnc s ▸ cipherEffect_failsBy (.inl ⟨hL, le_rfl⟩)
  | mleaDec => exact effectOf_mleaDec s ▸ cipherEffect_failsBy (.inl ⟨hL, le_rfl⟩)
  | _ => simp [Instr.checksDblen, Instr.mnemonic] at hi

/-- A command that checks KDLEN fails no later than there where KDLEN is out of range (R215). -/
theorem effectOf_failsBy_kdlen {i : Instr} {s : State} (hi : i.checksKdlen = true)
    (hk : s.kdlen.toNat = 0 ∨ 64 < s.kdlen.toNat) : (effectOf i s).failsBy 6 := by
  cases i with
  | mleaEnc => exact effectOf_mleaEnc s ▸ cipherEffect_failsBy (.inr ⟨hk, le_rfl⟩)
  | mleaDec => exact effectOf_mleaDec s ▸ cipherEffect_failsBy (.inr ⟨hk, le_rfl⟩)
  | _ => simp [Instr.checksKdlen, Instr.mnemonic] at hi

/-- A command that checks STATUS.QV fails no later than there where no split has completed (R215). -/
theorem effectOf_failsBy_noSplit {i : Instr} {s : State} (hi : i.checksSplit = true) (hq : s.qv = false) :
    (effectOf i s).failsBy 7 := by
  cases i with
  | bpePerm | bpeUnperm => exact reorderEffect_failsBy hq
  | bpeMerge => exact mergeEffect_failsBy_noSplit hq
  | _ => simp [Instr.checksSplit, Instr.mnemonic] at hi

/-- A command that requires more bits than the plane holds fails no later than at that check (R215). -/
theorem effectOf_failsBy_capacity {i : Instr} {s : State} {b req : Nat} {sub : Byte} (hb : i.bppOperand = some b)
    (hr : i.capacityRequest s = some (sub, req)) (hc : s.capacity b < req) : (effectOf i s).failsBy 9 := by
  cases i with
  | bpcEmbed | bpcEmbedf => cases hb; cases hr; exact embedEffect_failsBy (.inr (.inr ⟨hc, le_rfl⟩))
  | bpcExtract => cases hb; cases hr; exact extractEffect_failsBy (.inr ⟨hc, le_rfl⟩)
  | bpcExtractf => cases hb; cases hr; exact extractfEffect_failsBy (.inr (.inl ⟨hc, le_rfl⟩))
  | _ => cases hb

/-- Where a check of a command fails, the command fails, at that check or before (R215). -/
theorem effectOf_failsBy {i : Instr} {s : State} {n : Nat} {f : ErrorFigures} (h : errorAt i s n f) :
    (effectOf i s).failsBy n := by
  cases h with
  | bpp hi hb => exact ⟨_, effectOf_bppRange hi hb s, le_rfl⟩
  | perm hi hp => exact ⟨_, effectOf_permInvalid hi hp s, le_rfl⟩
  | dims hi hN => exact effectOf_failsBy_dims hi hN
  | dblen hi hL => exact effectOf_failsBy_dblen hi hL
  | kdlen hi hk => exact effectOf_failsBy_kdlen hi hk
  | noSplit hi hq => exact effectOf_failsBy_noSplit hi hq
  | shapes hi hf =>
    subst hi
    exact mergeEffect_failsBy_shapes (mt (quadrantsFit_iff s).2 hf)
  | capacity hb hr hc => exact effectOf_failsBy_capacity hb hr hc
  | framing hi hl hh hc =>
    subst hi
    exact extractfEffect_failsBy (.inr (.inr ⟨fun h1 h32 => header_unique h1 h32 hl hh ▸ hc, le_rfl⟩))

/-! ## What is reported is a failing check -/

/-- What an embed command reports is a check of it that fails, with that check's figures (R170, R172). -/
theorem errorAt_of_embedEffect {i : Instr} {b len : Nat} {payload : List Byte} {s : State} {c : Cause}
    (hb : i.bppOperand = some b) (hd : i.checksDims = true) (hl : i.checksDblen = true)
    (hr : i.capacityRequest s = some (1, 8 * len)) (h : embedEffect b len payload s = .error c) :
    errorAt i s c.stage c.figures := by
  rcases embedEffect_cases b len payload s with ⟨hbpp, e⟩ | ⟨-, hN, e⟩ | ⟨-, -, hL, e⟩ | ⟨-, -, -, hc, e⟩ |
    ⟨-, -, -, -, e⟩ <;> rw [e] at h <;> cases h
  · exact .bpp hb hbpp
  · exact .dims hd hN
  · exact .dblen hl hL
  · exact .capacity hb hr hc

/-- What `bpc.extract` reports is a check of it that fails (R171). -/
theorem errorAt_of_extractEffect {b : Nat} {s : State} {c : Cause} (h : extractEffect b s = .error c) :
    errorAt (.bpcExtract b) s c.stage c.figures := by
  rcases extractEffect_cases b s with ⟨hbpp, e⟩ | ⟨-, hN, e⟩ | ⟨-, -, hc, e⟩ | ⟨-, -, -, e⟩ <;>
    rw [e] at h <;> cases h
  · exact .bpp rfl hbpp
  · exact .dims rfl hN
  · exact .capacity rfl rfl hc

/-- What `bpc.extractf` reports is a check of it that fails; the length it reads is the one the plane's first 32 bits
give (R173). -/
theorem errorAt_of_extractfEffect {b : Nat} {s : State} {c : Cause} (h : extractfEffect b s = .error c) :
    errorAt (.bpcExtractf b) s c.stage c.figures := by
  rcases extractfEffect_cases b s with ⟨hbpp, e⟩ | ⟨-, hN, e⟩ | ⟨-, -, hc, e⟩ | ⟨⟨hb, -⟩, -, h32, hc, e⟩ |
    ⟨-, -, -, e⟩ <;> rw [e] at h <;> cases h
  · exact .bpp rfl hbpp
  · exact .dims rfl hN
  · exact .capacity rfl rfl hc
  · exact .framing rfl (headerLength_lt s b) (header_bits s b hb h32) hc

/-- What a cipher command reports is a check of it that fails (R143, R144). -/
theorem errorAt_of_cipherEffect {i : Instr} {f : Nat → Byte → Byte} {s : State} {c : Cause}
    (hl : i.checksDblen = true) (hk : i.checksKdlen = true) (h : cipherEffect f s = .error c) :
    errorAt i s c.stage c.figures := by
  rcases cipherEffect_cases f s with ⟨hL, e⟩ | ⟨-, hkd, e⟩ | ⟨-, -, e⟩ <;> rw [e] at h <;> cases h
  · exact .dblen hl hL
  · exact .kdlen hk hkd

/-- What `bpe.split` reports is a check of it that fails (R121). -/
theorem errorAt_of_splitEffect {s : State} {c : Cause} (h : splitEffect s = .error c) :
    errorAt .bpeSplit s c.stage c.figures := by
  rcases splitEffect_cases s with ⟨hN, e⟩ | ⟨-, e⟩ <;> rw [e] at h <;> cases h
  exact .dims rfl hN

/-- What `bpe.perm` or `bpe.unperm` reports is a check of it that fails (R122, R123). -/
theorem errorAt_of_reorderEffect {i : Instr} {p0 p1 p2 p3 : Nat} {qb' : Vector Quadrant 4} {s : State} {c : Cause}
    (hp : i.permOperand = some [p0, p1, p2, p3]) (hs : i.checksSplit = true)
    (h : reorderEffect p0 p1 p2 p3 qb' s = .error c) : errorAt i s c.stage c.figures := by
  rcases reorderEffect_cases p0 p1 p2 p3 qb' s with ⟨hbad, e⟩ | ⟨-, hq, e⟩ | ⟨-, -, e⟩ <;> rw [e] at h <;> cases h
  · exact .perm hp (mt permValid_iff.2 (Bool.eq_false_iff.1 hbad))
  · exact .noSplit hs hq

/-- What `bpe.merge` reports is a check of it that fails (R124). -/
theorem errorAt_of_mergeEffect {s : State} {c : Cause} (h : mergeEffect s = .error c) :
    errorAt .bpeMerge s c.stage c.figures := by
  rcases mergeEffect_cases s with ⟨hN, e⟩ | ⟨-, hq, e⟩ | ⟨-, -, hf, e⟩ | ⟨-, -, -, e⟩ <;> rw [e] at h <;> cases h
  · exact .dims rfl hN
  · exact .noSplit rfl hq
  · exact .shapes rfl (mt (quadrantsFit_iff s).1 hf)

/-- The cause a command fails with is a failing check of it, at the cause's stage and with its figures (R212, R214). -/
theorem errorAt_of_effectOf_error {i : Instr} {s : State} {c : Cause} (h : effectOf i s = .error c) :
    errorAt i s c.stage c.figures := by
  cases i with
  | sysNop | sysClrerr | sysSreset => cases h
  | bpcEmbed | bpcEmbedf => exact errorAt_of_embedEffect rfl rfl rfl rfl h
  | bpcExtract => exact errorAt_of_extractEffect h
  | bpcExtractf => exact errorAt_of_extractfEffect h
  | mleaEnc => exact errorAt_of_cipherEffect rfl rfl ((effectOf_mleaEnc s).symm.trans h)
  | mleaDec => exact errorAt_of_cipherEffect rfl rfl ((effectOf_mleaDec s).symm.trans h)
  | bpeSplit => exact errorAt_of_splitEffect h
  | bpePerm | bpeUnperm => exact errorAt_of_reorderEffect rfl rfl h
  | bpeMerge => exact errorAt_of_mergeEffect h

/-! ## One report -/

/-- 32 bits, most significant first, give one length (42_bpc_bitplane_codec.md R173). -/
theorem eq_of_header_bits {len len' : Nat} {bit : Nat → Bool} (hl : len < 2 ^ 32) (hl' : len' < 2 ^ 32)
    (h : ∀ m < 32, len.testBit (31 - m) = bit m) (h' : ∀ m < 32, len'.testBit (31 - m) = bit m) : len = len' := by
  refine Nat.eq_of_testBit_eq fun j => ?_
  by_cases hj : j < 32
  · have hm : 31 - (31 - j) = j := by omega
    rw [← hm, h _ (by omega), h' _ (by omega)]
  · have h32 : 2 ^ 32 ≤ 2 ^ j := Nat.pow_le_pow_right (by decide) (by omega)
    rw [Nat.testBit_lt_two_pow (hl.trans_le h32), Nat.testBit_lt_two_pow (hl'.trans_le h32)]

/-- No command has a `bpp` and a permutation operand (30_encoding.md R92, R93). -/
theorem permOperand_of_bppOperand {i : Instr} {b : Nat} (h : i.bppOperand = some b) : i.permOperand = none := by
  cases i with
  | bpcEmbed | bpcExtract | bpcEmbedf | bpcExtractf => rfl
  | _ => cases h

/-- A command has one error per stage. -/
theorem errorAt_unique {i : Instr} {s : State} {n : Nat} {e f : ErrorFigures} (he : errorAt i s n e)
    (hf : errorAt i s n f) : e = f := by
  cases he with
  | bpp hb =>
    cases hf with
    | bpp => rfl
    | perm hp => cases (permOperand_of_bppOperand hb).symm.trans hp
  | perm hp =>
    cases hf with
    | bpp hb => cases (permOperand_of_bppOperand hb).symm.trans hp
    | perm => rfl
  | dims | dblen | kdlen | noSplit | shapes => cases hf; rfl
  | capacity hb hr =>
    cases hf with
    | capacity hb' hr' =>
      cases hb.symm.trans hb'
      cases hr.symm.trans hr'
      rfl
  | framing hi hl hh =>
    cases hf with
    | framing hi' hl' hh' =>
      cases hi.symm.trans hi'
      rw [eq_of_header_bits hl hl' hh hh']

/-- A command reports the figures of the cause it fails with, and nothing where it completes (R212, R214, R215). -/
theorem reports_iff {i : Instr} {s : State} {e : ErrorFigures} :
    reports i s e ↔ ∃ c, effectOf i s = .error c ∧ c.figures = e := by
  constructor
  · rintro ⟨n, he, hfirst⟩
    obtain ⟨c, hc, hcn⟩ := effectOf_failsBy he
    have hat := errorAt_of_effectOf_error hc
    obtain rfl : c.stage = n := le_antisymm hcn (hfirst _ _ hat)
    exact ⟨c, hc, errorAt_unique hat he⟩
  · rintro ⟨c, hc, rfl⟩
    refine ⟨c.stage, errorAt_of_effectOf_error hc, fun m f hf => ?_⟩
    obtain ⟨c', hc', hcm⟩ := effectOf_failsBy hf
    cases hc.symm.trans hc'
    exact hcm

/-- The bits an embed command requires are below 2^27 where it reports them, as DBLEN has passed its check (R214). -/
theorem req_lt_of_reports {i : Instr} {s : State} {e : ErrorFigures} (h : reports i s e) (hcode : e.code = 2)
    (hsub : e.sub = 1) : e.req < 2 ^ 27 := by
  obtain ⟨n, he, hfirst⟩ := h
  cases he with
  | capacity hb hr =>
    obtain ⟨-, -, -, hdb, -⟩ := s.cfg.bounds
    have hL (hi : i.checksDblen = true) : s.dblen.toNat ≤ s.cfg.dbMax :=
      not_lt.1 fun hn => absurd (hfirst 5 _ (.dblen hi hn)) (by decide)
    cases i with
    | bpcEmbed | bpcEmbedf =>
      cases hr
      have := hL rfl
      show 8 * _ < 2 ^ 27
      omega
    | bpcExtract | bpcExtractf => cases hr; cases hsub
    | _ => cases hr
  | _ => cases hcode

/-! ## Commands after the access is answered -/

/-- Answering the access changes nothing a command looks at. -/
theorem effectOf_answer (i : Instr) (s : State) (rest : List HostEvent) (r : Response) :
    effectOf i (s.answer rest r) = (effectOf i s).map (State.onHost rest (s.cp + 1) (r :: s.results)) :=
  effectOf_onHost _ ⟨_, _, _, rfl⟩ i s

/-- A command none of whose checks fails completes with no error recorded. -/
theorem step_completing {s : State} {i : Instr} {w : Word} {rest : List HostEvent} (he : s.err = false)
    (hp : s.pending = cmdWrite w :: rest) (hd : decode w = .ok i) (hn : ¬∃ e, reports i s e) :
    ∃ t, step s = .next t ∧ t.err = false := by
  cases hf : effectOf i s with
  | error c => exact absurd ⟨_, reports_iff.2 ⟨c, hf, rfl⟩⟩ hn
  | ok t =>
    have hf' : effectOf i (s.answer rest .ok) = .ok (t.onHost rest (s.cp + 1) (.ok :: s.results)) := by
      rw [effectOf_answer, hf]; rfl
    have he' : (s.answer rest .ok).err = false := he
    exact ⟨_, by rw [step_cmdWrite hp, executeWord_ok _ hd, exec_of_ok he' hf'], effectOf_err he' hf'⟩

/-! ## The statements -/

/-- Settles O25: `reports` names the figures of the cause a command fails with, which the error entry records. -/
theorem theFirstFailingCheckIsReported : Obligations.TheFirstFailingCheckIsReported := by
  refine fun s w rest hp => ⟨fun he h1 h2 => step_gated he h1 h2 hp, fun he hno => ?_, fun he i hd =>
    ⟨fun e hr => ?_, step_completing he hp hd⟩⟩
  · cases hd : decode w with
    | ok i => exact absurd hd (hno i)
    | error d => rw [← opcodeField_eq, step_illegal he hp hd]
  · obtain ⟨c, hc, rfl⟩ := reports_iff.1 hr
    obtain ⟨-, rfl⟩ := wellFormed_encode_of_decode hd
    have hc' : effectOf i (s.answer rest .ok) = .error c := by rw [effectOf_answer, hc]; rfl
    obtain ⟨hreq, havail⟩ := effectOf_error hc
    exact ⟨step_failing he hp hd hc', hreq, havail, req_lt_of_reports hr⟩

/-- Settles O24: a word that leaves an error recorded is illegal or a command that fails, and both take the error
entry. -/
theorem failingCommandsWriteOnlyTheErrorRegisters : Obligations.FailingCommandsWriteOnlyTheErrorRegisters := by
  intro s t w rest he hp h ht
  cases hd : decode w with
  | error d =>
    obtain rfl := Host.Outcome.next.inj ((step_illegal he hp hd).symm.trans h)
    exact ⟨4, _, 0, 0, rfl, by decide⟩
  | ok i =>
    rw [step_cmdWrite hp, executeWord_ok _ hd] at h
    obtain ⟨c, hc, rfl⟩ := exec_failed (s := s.answer rest .ok) he h ht
    obtain ⟨-, rfl⟩ := wellFormed_encode_of_decode hd
    obtain ⟨hcode1, hcode5⟩ := c.code_bounds
    obtain ⟨hreq, havail⟩ := effectOf_error hc
    exact ⟨c.code, c.sub, c.req, c.avail, errorEntry_eq_failed _ _ _, hcode1, hcode5, by omega, by omega⟩

/-- Settles O26: the words 1 and 2 are the encodings of the two commands outside the gate, and the bus looks at no
STATUS.ERR. -/
theorem commandsAreIgnoredWhileAnErrorIsRecorded : Obligations.CommandsAreIgnoredWhileAnErrorIsRecorded := by
  refine ⟨fun s w rest he hp => ⟨?_, ?_, fun h1 h2 => step_gated he h1 h2 hp⟩,
    fun s off n v e hport => ⟨?_, ?_, fun t ht => ?_⟩⟩
  · rintro rfl
    exact (step_cmdWrite hp).trans (executeWord_ok _ (decode_encode (i := .sysClrerr) rfl))
  · rintro rfl
    exact (step_cmdWrite hp).trans (executeWord_ok _ (decode_encode (i := .sysSreset) rfl))
  · rw [notAccepted_read_iff, notAccepted_read_iff, busRead_none_iff, busRead_none_iff]
  · rw [notAccepted_write_iff hport, notAccepted_write_iff hport]
    exact ⟨busWrite_none_congr rfl, busWrite_none_congr rfl⟩
  · obtain ⟨p, hw⟩ := (writesAs_iff hport).1 ht
    exact (writesAs_iff hport).2 ⟨p, by rw [busWrite_err, hw]; rfl⟩

end Sys2Proof.Machine
end

section
/-! PROOFS. The statements on encoding and on the whole machine that rest on one fact each: decoding and encoding undo
each other (spec/30_encoding.md), every step keeps the invariant, a program ends after its last access, and what a step
does to STATUS.ERR, the configuration and the draws. -/

namespace Sys2Proof.Machine

/-! ## The invariant -/

/-- A word that is no command keeps the invariant: its two causes carry no figures (60_exceptions.md R214). -/
theorem illegalCommand_inv {s : State} (d : DecodeError) (w : Word) (h : s.Inv) : (illegalCommand d w s).Inv := by
  have hc : (illegalCause d).bounded := by
    cases d with
    | unknownOpcode | reservedBit => exact Cause.bounded_of_zero rfl rfl
  rw [illegalCommand]
  split_ifs
  · exact h
  · exact errorEntry_inv w hc h

/-- A hard reset gives the power-on state beside the host's side it found, which still has one result per access. -/
theorem hardReset_inv {s : State} (h : s.Inv) : (hardReset s).Inv :=
  have hp := powerOn_inv s.cfg (s.resets + 1)
  ⟨hp.memories, hp.fit, hp.errors, hp.unsplit, h.responses⟩

theorem step_inv {s t : State} (hi : s.Inv) (h : step s = .next t) : t.Inv := by
  rcases step_cases h with ⟨-, rfl⟩ | ⟨rest, -, rfl⟩ | ⟨off, n, rest, -, rfl⟩ | ⟨w, rest, i, -, -, he⟩ |
    ⟨w, rest, d, -, -, rfl⟩ | ⟨off, n, v, rest, u, -, -, hw, rfl⟩ | ⟨off, n, v, rest, -, -, -, rfl⟩
  · exact hi
  · exact hardReset_inv (pending_inv rest hi)
  · exact answer_inv rest _ hi
  · exact exec_inv (answer_inv rest .ok hi) he
  · exact illegalCommand_inv d w (answer_inv rest .ok hi)
  · exact answer_inv rest .ok (busWrite_inv hi hw)
  · exact answer_inv rest .busError hi

/-! ## Runs -/

/-- A run begins with a step. -/
theorem run_succ {s u : State} (h : core.step s = .next u) (k : Nat) : core.run (k + 1) s = core.run k u := by
  simp only [Host.Core.run, h]

/-- A run that reached a state goes on from there. -/
theorem run_add {m k : Nat} {s t : State} (h : core.run m s = .next t) : core.run (m + k) s = core.run k t := by
  induction m generalizing s with
  | zero =>
    obtain rfl : s = t := Host.Outcome.next.inj h
    rw [Nat.zero_add]
  | succ m ih =>
    rw [Nat.succ_add]
    simp only [Host.Core.run] at h ⊢
    cases hs : core.step s with
    | next u => rw [hs] at h; exact ih h
    | fault f => rw [hs] at h; cases h
    | refused r => rw [hs] at h; cases h

/-- With nothing left to do no step changes anything (70_reset_and_hazards.md R240; entry 3). -/
theorem run_idle {s : State} (h : s.pending = []) (k : Nat) : core.run k s = .next s := by
  have hs : core.step s = .next s := step_idle h
  induction k with
  | zero => rfl
  | succ k ih => exact (run_succ hs k).trans ih

/-- A list of accesses is made in as many steps as it is long, each with one result (R254). -/
theorem run_accesses (as : List Access) {s : State} (h : s.pending = as.map HostEvent.access) :
    ∃ t, core.run as.length s = .next t ∧ t.pending = [] ∧ t.cp = s.cp + as.length ∧
      t.results.length = s.results.length + as.length ∧ s.results <:+ t.results := by
  induction as generalizing s with
  | nil => exact ⟨s, rfl, h, rfl, rfl, List.suffix_rfl⟩
  | cons a as ih =>
    obtain ⟨u, r, hstep, hp, hcp, hres, -⟩ := eachAccessIsOneStepWithOneResult s a _ h
    obtain ⟨t, hrun, ht, htcp, htlen, htres⟩ := ih hp
    have hstep' : core.step s = .next u := hstep
    refine ⟨t, (run_succ hstep' _).trans hrun, ht, ?_, ?_, ?_⟩
    · rw [htcp, hcp, List.length_cons]; omega
    · rw [htlen, hres, List.length_cons, List.length_cons]; omega
    · rw [hres] at htres
      exact (List.suffix_cons r s.results).trans htres

/-! ## STATUS.ERR -/

/-- What a command can do to STATUS.ERR (R26). -/
theorem exec_err {i : Instr} {s t : State} (h : exec i s = .next t) :
    t.err = s.err ∨ (s.err = false ∧ t.err = true) ∨ (i = .sysClrerr ∨ i = .sysSreset) ∧ t.err = false := by
  rcases exec_cases h with ⟨-, -, -, rfl⟩ | ⟨-, rfl, rfl⟩ | ⟨-, rfl, rfl⟩ | ⟨hs, he⟩ | ⟨hs, c, -, rfl⟩
  · exact .inl rfl
  · exact .inr (.inr ⟨.inl rfl, rfl⟩)
  · exact .inr (.inr ⟨.inr rfl, rfl⟩)
  · exact .inl ((effectOf_err hs he).trans hs.symm)
  · exact .inr (.inl ⟨hs, rfl⟩)

/-- After a word that is no command an error is recorded: the one before it, or its own. -/
theorem illegalCommand_err (d : DecodeError) (w : Word) (s : State) : (illegalCommand d w s).err = true := by
  rw [illegalCommand]
  split_ifs with h
  · exact h
  · rfl

/-- No bus write but the command port's reaches STATUS.ERR. -/
theorem busWrite_keeps_err {s t : State} {off n : Nat} {v : Word} (h : busWrite s off n v = some t) :
    t.err = s.err := by
  rcases busWrite_cases h with rfl | ⟨_, rfl⟩ | ⟨_, rfl⟩ | ⟨_, rfl⟩ | ⟨_, rfl⟩ | ⟨_, rfl⟩ | ⟨_, _, _, rfl⟩ |
    ⟨_, _, _, rfl⟩ | ⟨_, _, _, rfl⟩ <;> rfl

/-- What a step can do to STATUS.ERR (R26). -/
theorem step_err {s t : State} (h : step s = .next t) :
    t.err = s.err ∨ (s.err = false ∧ t.err = true ∧ ∃ w rest, s.pending = cmdWrite w :: rest) ∨
    (t.err = false ∧ ∃ rest, s.pending = cmdWrite 1 :: rest ∨ s.pending = cmdWrite 2 :: rest ∨
      s.pending = .hardReset :: rest) := by
  rcases step_cases h with ⟨-, rfl⟩ | ⟨rest, hp, rfl⟩ | ⟨off, n, rest, -, rfl⟩ | ⟨w, rest, i, hp, hd, he⟩ |
    ⟨w, rest, d, hp, -, rfl⟩ | ⟨off, n, v, rest, u, -, -, hw, rfl⟩ | ⟨off, n, v, rest, -, -, -, rfl⟩
  · exact .inl rfl
  · exact .inr (.inr ⟨rfl, rest, .inr (.inr hp)⟩)
  · exact .inl rfl
  · obtain rfl : encode i = w := (wellFormed_encode_of_decode hd).2
    rcases exec_err he with hk | ⟨hs, ht⟩ | ⟨rfl | rfl, ht⟩
    · exact .inl hk
    · exact .inr (.inl ⟨hs, ht, _, rest, hp⟩)
    · exact .inr (.inr ⟨ht, rest, .inl hp⟩)
    · exact .inr (.inr ⟨ht, rest, .inr (.inl hp)⟩)
  · have ht := illegalCommand_err d w (s.answer rest .ok)
    cases hs : s.err with
    | true => exact .inl ht
    | false => exact .inr (.inl ⟨rfl, ht, w, rest, hp⟩)
  · exact .inl (busWrite_keeps_err hw : u.err = s.err)
  · exact .inl rfl

/-! ## Configuration and draws -/

/-- No word that is no command touches more than the error registers. -/
theorem illegalCommand_frame (d : DecodeError) (w : Word) (s : State) :
    (illegalCommand d w s).cfg = s.cfg ∧ (illegalCommand d w s).resets = s.resets ∧
    (illegalCommand d w s).pm = s.pm ∧ (illegalCommand d w s).db = s.db ∧ (illegalCommand d w s).qb = s.qb := by
  unfold illegalCommand
  split_ifs <;> exact ⟨rfl, rfl, rfl, rfl, rfl⟩

/-- No bus write reaches a quadrant buffer (20_memory.md R65). -/
theorem busWrite_qb {s t : State} {off n : Nat} {v : Word} (h : busWrite s off n v = some t) : t.qb = s.qb := by
  rcases busWrite_cases h with rfl | ⟨_, rfl⟩ | ⟨_, rfl⟩ | ⟨_, rfl⟩ | ⟨_, rfl⟩ | ⟨_, rfl⟩ | ⟨_, _, _, rfl⟩ |
    ⟨_, _, _, rfl⟩ | ⟨_, _, _, rfl⟩ <;> rfl

/-- No new bytes are drawn: no hard reset is counted, PM and DB keep their draws, and every quadrant buffer has a draw
one of them had (10_state.md R48, U1; entry 1). -/
def drawsKept (s t : State) : Prop :=
  t.resets = s.resets ∧ t.pm.draw = s.pm.draw ∧ t.db.draw = s.db.draw ∧
    ∀ k : Fin 4, ∃ k' : Fin 4, t.qb[k].data.draw = s.qb[k'].data.draw

theorem drawsKept_of_qb {s t : State} (hr : t.resets = s.resets) (hpm : t.pm.draw = s.pm.draw)
    (hdb : t.db.draw = s.db.draw) (hqb : t.qb = s.qb) : drawsKept s t :=
  ⟨hr, hpm, hdb, fun k => ⟨k, by rw [hqb]⟩⟩

/-- A step keeps the configuration, and it is a hard reset or keeps the draws. -/
theorem step_cfg_draws {s t : State} (h : step s = .next t) :
    t.cfg = s.cfg ∧ ((∃ rest, s.pending = .hardReset :: rest) ∨ drawsKept s t) := by
  rcases step_cases h with ⟨-, rfl⟩ | ⟨rest, hp, rfl⟩ | ⟨off, n, rest, -, rfl⟩ | ⟨w, rest, i, -, -, he⟩ |
    ⟨w, rest, d, -, -, rfl⟩ | ⟨off, n, v, rest, u, -, -, hw, rfl⟩ | ⟨off, n, v, rest, -, -, -, rfl⟩
  · exact ⟨rfl, .inr (drawsKept_of_qb rfl rfl rfl rfl)⟩
  · exact ⟨rfl, .inl ⟨rest, hp⟩⟩
  · exact ⟨rfl, .inr (drawsKept_of_qb rfl rfl rfl rfl)⟩
  · obtain ⟨-, -, -, hcfg, hres, hpm, hdb⟩ := exec_host he
    exact ⟨hcfg, .inr ⟨hres, hpm, hdb, exec_qbDraw (s := s.answer rest .ok) he⟩⟩
  · obtain ⟨hcfg, hres, hpm, hdb, hqb⟩ := illegalCommand_frame d w (s.answer rest .ok)
    exact ⟨hcfg, .inr (drawsKept_of_qb hres (congrArg _ hpm) (congrArg _ hdb) hqb)⟩
  · obtain ⟨-, -, -, hcfg, hres, hpm, hdb⟩ := busWrite_host hw
    exact ⟨hcfg, .inr (drawsKept_of_qb (t := u.answer rest .ok) hres hpm hdb (busWrite_qb hw : u.qb = s.qb))⟩
  · exact ⟨rfl, .inr (drawsKept_of_qb rfl rfl rfl rfl)⟩

/-! ## The statements -/

/-- Settles O2, one format after the other. -/
theorem decodeOfEncodeIsTheCommand : Obligations.DecodeOfEncodeIsTheCommand := fun _ => decode_encode

/-- Settles O51: each kind of event keeps the invariant. -/
theorem everyStepKeepsTheInvariant : Obligations.EveryStepKeepsTheInvariant := fun _ _ => step_inv

/-- Settles O3: the opcode and the reserved bits, which the decoder tests, and the operand fields are all of the
word. -/
theorem encodeOfDecodeIsTheWord : Obligations.EncodeOfDecodeIsTheWord := fun _ _ => wellFormed_encode_of_decode

/-- Settles O9, by induction on the accesses; what follows them is idle. -/
theorem programsEndAfterTheirLastAccess : Obligations.ProgramsEndAfterTheirLastAccess := by
  intro s as hp
  obtain ⟨t, hrun, ht, hcp, hlen, hres⟩ := run_accesses as hp
  exact ⟨t, hrun, ht, hcp, hlen, hres, fun k => (run_add hrun).trans (run_idle ht k)⟩

/-- Settles O27: a step that sets STATUS.ERR is a command that failed, of which O24 says what it records. -/
theorem errIsSetAndClearedOnlyAsTheRulesSay : Obligations.ErrIsSetAndClearedOnlyAsTheRulesSay := by
  intro s t h
  rcases step_err h with hk | ⟨hs, ht, w, rest, hp⟩ | ⟨ht, rest, hp⟩
  · exact ⟨fun h0 h1 => by simp [hk, h0] at h1, fun h1 h0 => by simp [hk, h1] at h0⟩
  · obtain ⟨code, sub, req, avail, rfl, h1, h5, -⟩ := failingCommandsWriteOnlyTheErrorRegisters s t w rest hs hp h ht
    exact ⟨fun _ _ => ⟨w, rest, hp, rfl, h1, h5⟩, fun h1 _ => by simp [hs] at h1⟩
  · exact ⟨fun _ h1 => by simp [ht] at h1, fun _ _ => ⟨rest, hp⟩⟩

/-- Settles O52: only a hard reset makes a draw. -/
theorem noStepChangesTheConfiguration : Obligations.NoStepChangesTheConfiguration := by
  intro s t h
  obtain ⟨hcfg, hr | hkept⟩ := step_cfg_draws h
  · obtain ⟨rest, hp⟩ := hr
    exact ⟨hcfg, fun hno => absurd hp (hno rest)⟩
  · exact ⟨hcfg, fun _ => hkept⟩

/-- Settles O1: each word is its command's encoding, and the last two fail the two tests of the decoder. -/
theorem decodesTheWordsTheSpecWritesOut : Obligations.DecodesTheWordsTheSpecWritesOut := by
  have unknown : opcodeField 0xFFFFFFFF ∉ knownOpcodes := by decide
  have reserved : ¬bitField 0x01130231 24 8 = 0 := by decide
  exact ⟨decode_encode (i := .sysNop) rfl, decode_encode (i := .sysClrerr) rfl, decode_encode (i := .sysSreset) rfl,
    decode_encode (i := .bpcEmbed 3) rfl, decode_encode (i := .bpcExtract 3) rfl,
    decode_encode (i := .bpcEmbedf 2) rfl, decode_encode (i := .bpcExtractf 4) rfl,
    decode_encode (i := .mleaEnc) rfl, decode_encode (i := .mleaDec) rfl, decode_encode (i := .bpeSplit) rfl,
    decode_encode (i := .bpePerm 2 0 3 1) rfl, decode_encode (i := .bpeUnperm 2 0 3 1) rfl,
    decode_encode (i := .bpeMerge) rfl, decode_unknown unknown, (decode_bpePerm rfl).trans (if_neg reserved)⟩

/-- Settles O21: after power-on the memories list nothing, and every register and shape is 0. -/
theorem resetStateMeetsTheInvariant : Obligations.ResetStateMeetsTheInvariant := powerOn_inv _ _

end Sys2Proof.Machine
end

section
/-! PROOFS. The statements on single bus accesses (spec/10_state.md, spec/20_memory.md R67, R78): what each register
reads as, what a write leaves readable, and the state after a reset. -/

namespace Sys2Proof.Machine

/-! ## Register writes -/

/-- A 4-byte write of a register the host can write, `CMD` apart, leaves what `writeReg` gives. -/
theorem writesAs_reg {s t : State} {off v : Word} {r : Reg} (hr : regAt off.toNat = some r) (hcmd : r ≠ .cmd)
    (hw : writeReg s v r = some t) : writesAs s off 4 v t := by
  have hport : ¬(off = 0x04 ∧ 4 = 4) := by
    rintro ⟨rfl, -⟩
    exact hcmd (Option.some.inj hr).symm
  refine writesAs_of hport ?_
  rw [busWrite, locate_four, hr, BitVec.setWidth_eq]
  exact hw

/-- The registers at these offsets are read-only (10_state.md register summary). -/
theorem notAccepted_write_unlisted {s : State} {off v : Word}
    (h : off.toNat ∉ [0x04, 0x20, 0x24, 0x28, 0x2C, 0x44]) : notAccepted s (.write off 4 v) := by
  have hport : ¬(off = 0x04 ∧ 4 = 4) := by
    rintro ⟨rfl, -⟩
    exact h (by decide)
  refine notAccepted_write_of hport (Option.eq_none_iff_forall_ne_some.2 fun t ht => h ?_)
  obtain ⟨x, hx, hw⟩ := Option.bind_eq_some_iff.1 ht
  rw [locate_four] at hx
  obtain ⟨r, hr, rfl⟩ := Option.map_eq_some_iff.1 hx
  exact writableReg_iff.1 ⟨r, t, hr, hw⟩

/-- The two halves of a register value are its quotient and remainder (R32). -/
theorem Shape.toNat_ofWord (w : Word) :
    (Shape.ofWord w).rows.toNat = w.toNat / 2 ^ 16 ∧ (Shape.ofWord w).cols.toNat = w.toNat % 2 ^ 16 := by
  have := w.isLt
  simp only [Shape.ofWord, BitVec.extractLsb'_toNat, Nat.shiftRight_eq_div_pow]
  omega

/-! ## Reading back -/

/-- A register the host can write reads the value written, but for `CMD`, which stores nothing. -/
theorem readReg_writeReg {s t : State} {r : Reg} {v : Word} (hcmd : r ≠ .cmd) (hw : writeReg s v r = some t) :
    readReg t r = v := by
  rcases writeReg_cases hw with ⟨rfl, -⟩ | ⟨rfl, rfl⟩ | ⟨rfl, rfl⟩ | ⟨rfl, rfl⟩ | ⟨rfl, rfl⟩ | ⟨rfl, rfl⟩
  · exact absurd rfl hcmd
  · exact Shape.toWord_ofWord v
  all_goals rfl

/-- A byte the host can write reads the byte written. -/
theorem readTarget_writeTarget_same {s t : State} {x : Target} {v : Word} (hin : x.inRange s.cfg)
    (hr : ∀ r, x ≠ .reg r) (hw : writeTarget s v x = some t) : readTarget t x = .okByte (v.setWidth 8) := by
  cases x with
  | reg r => exact absurd rfl (hr r)
  | pat i | qb k i => cases hw
  | kd i => cases hw; rw [readTarget, kdRead_kdWrite _ _ _ hin, if_pos rfl]
  | db i | pm i => cases hw; rw [readTarget, Memory.read_write_same]

/-- A read looks at the place `locate` finds, which a write does not move. -/
theorem busRead_after_busWrite {s t : State} {off n off' n' : Nat} {v : Word} {x : Target}
    (hw : busWrite s off n v = some t) (hx : locate s.cfg off' n' = some x) :
    busRead t off' n' = readTarget t x := by
  rw [busRead, (busWrite_host hw).2.2.2.1, hx]

/-- The host's list is no part of what a read returns. -/
theorem busRead_pending (s : State) (p : List HostEvent) (off n : Nat) :
    busRead { s with pending := p } off n = busRead s off n := busRead_onHost p s.cp s.results

/-! ## What a write leaves readable -/

/-- Different offsets reach different places, whatever the widths (20_memory.md R63, R64). -/
theorem locate_inj {c : Config} {a b m n : Nat} {x : Target} (ha : locate c a m = some x)
    (hb : locate c b n = some x) : a = b := by
  rcases locate_offset ha with ⟨-, r, rfl, hr⟩ | ⟨-, -, ho, hr⟩ <;>
    rcases locate_offset hb with ⟨-, r', hx, hr'⟩ | ⟨-, -, ho', hr'⟩
  · cases hx
    exact regAt_inj hr hr'
  · exact absurd rfl (hr' r)
  · exact absurd hx (hr r')
  · exact ho.symm.trans ho'

/-- A write changes what no other offset reads as, VOIDX apart (R67). -/
theorem busRead_busWrite_other {s t : State} {off n off' n' : Nat} {v : Word} (hw : busWrite s off n v = some t)
    (hne : off' ≠ off) (hvoidx : off' ≠ 0x48) : busRead t off' n' = busRead s off' n' := by
  obtain ⟨x, hx, hwx⟩ := Option.bind_eq_some_iff.1 hw
  refine busRead_congr (busWrite_host hw).2.2.2.1 fun y hy => ?_
  refine readTarget_writeTarget (locate_inRange hx) hwx ?_ ?_
  · rintro rfl
    exact hne (locate_inj hy hx)
  · rintro rfl
    exact hvoidx (locate_inj hy (rfl : locate s.cfg 0x48 4 = some (.reg .voidx)))

/-! ## Power-on -/

/-- Every register and every byte of KD is 0 after power-on, whatever the host's side (10_state.md R48). -/
theorem powerOn_registersClear (c : Config) (n : Nat) (p : List HostEvent) (cp : Nat) (rs : List Response) :
    ((State.powerOn c n).onHost p cp rs).registersClear := by
  have hshape (k : Fin 4) : (State.powerOn c n).qb[k].shape = ⟨0, 0⟩ := by fin_cases k <;> rfl
  have hkd (i : Nat) : kdRead (State.powerOn c n).kd i = 0 := kdRead_zero i
  exact ⟨rfl, rfl, rfl, rfl, rfl, rfl, rfl, rfl, rfl, rfl, rfl, rfl, rfl, rfl, rfl, hshape, hkd⟩

/-- With DIMS 0 the plane is empty and VOIDX reads all ones (R38). -/
theorem readsAs_voidx_zero {s : State} (h : s.dims = Shape.zero) : readsAs s 0x48 4 (.okWord 0xFFFFFFFF) :=
  voidx_zero h ▸ readsAs_reg (r := .voidx) rfl

/-- The buffers after power-on are each on their own draw (R48, U1; entry 1). -/
theorem powerOn_qb_read (c : Config) (n : Nat) (k : Fin 4) (j : Nat) :
    (State.powerOn c n).qb[k].data.read j = Config.powerOnByte ⟨n, .qb k⟩ j := by
  fin_cases k <;> rfl

/-! ## The statements -/

/-- Settles O14: a register with stored contents reads its field, and the offsets a write is refused at are not among
the writable ones. -/
theorem registersReadTheirContents : Obligations.RegistersReadTheirContents := by
  intro s v
  refine ⟨readsAs_reg (r := .errreql) rfl, readsAs_reg (r := .errreqh) rfl, readsAs_reg (r := .erravail) rfl,
    readsAs_reg (r := .errcmd) rfl, readsAs_reg (r := .dims) rfl, readsAs_reg (r := .dblen) rfl,
    readsAs_reg (r := .numbits) rfl, readsAs_reg (r := .kdlen) rfl, readsAs_reg (r := .splitpt) rfl, fun k => ?_,
    readsAs_reg (r := .vok) rfl, readsAs_reg (r := .hdrlen) rfl, readsAs_reg (r := .pmmax) rfl,
    readsAs_reg (r := .dbmax) rfl, readsAs_reg (r := .tilelen) rfl, fun off hoff => ?_⟩
  · have hk : regAt (BitVec.ofNat 32 (0x34 + 4 * k.val)).toNat = some (.qdim k) := by fin_cases k <;> rfl
    exact readsAs_reg hk
  · refine notAccepted_write_unlisted ?_
    simp only [List.mem_cons, List.not_mem_nil, or_false] at hoff
    rcases hoff with rfl | rfl | rfl | rfl | rfl | rfl | rfl | rfl | rfl | rfl | rfl | rfl | rfl | rfl | rfl | rfl <;>
      decide

/-- Settles O15: the two halves of DIMS are the value's quotient and remainder by 2^16. -/
theorem operandRegistersHoldAnyValueWritten : Obligations.OperandRegistersHoldAnyValueWritten := by
  intro s v
  obtain ⟨hrows, hcols⟩ := Shape.toNat_ofWord v
  exact ⟨⟨Shape.ofWord v, writesAs_reg (r := .dims) rfl nofun rfl, hrows, hcols⟩,
    writesAs_reg (r := .dblen) rfl nofun rfl, writesAs_reg (r := .numbits) rfl nofun rfl,
    writesAs_reg (r := .kdlen) rfl nofun rfl, writesAs_reg (r := .vok) rfl nofun rfl⟩

/-- Settles O18: a read looks at nothing of the host's side, and a write reaches one place, which has one offset. -/
theorem readsHaveNoEffectAndWritesAreIdempotent : Obligations.ReadsHaveNoEffectAndWritesAreIdempotent := by
  refine ⟨fun s off n => ⟨_, readsAs_of rfl, fun rest => readsAs_of (busRead_onHost _ _ _)⟩,
    fun s off n v hport => ?_⟩
  cases hw : busWrite s off.toNat n (v.setWidth 32) with
  | none => exact .inl (notAccepted_write_of hport hw)
  | some t =>
    refine .inr ⟨t, writesAs_of hport hw, writesAs_of hport (busWrite_idem hw), fun off' n' r hne hvoidx => ?_⟩
    have hne' : off'.toNat ≠ off.toNat := fun h => hne (BitVec.eq_of_toNat_eq h)
    have hvoidx' : off'.toNat ≠ 0x48 := fun h => hvoidx (BitVec.eq_of_toNat_eq h)
    rw [readsAs_iff, readsAs_iff, busRead_busWrite_other hw hne' hvoidx']

/-- Settles O19: reset and a hard reset both give the power-on state, beside the host's side as it was. -/
theorem hardResetClearsEveryRegister : Obligations.HardResetClearsEveryRegister := by
  refine ⟨powerOn_registersClear _ _ [] 0 [], readsAs_voidx_zero rfl, fun s rest hp => ?_⟩
  exact ⟨_, step_hardReset hp, powerOn_registersClear s.cfg (s.resets + 1) rest s.cp s.results,
    readsAs_voidx_zero rfl, rfl, rfl, rfl, rfl, rfl,
    fun j => ⟨rfl, rfl, fun k => powerOn_qb_read s.cfg (s.resets + 1) k j⟩⟩

/-- Settles O56: an accepted write reaches a byte that exists or a register other than `CMD`, and the same offset finds
it again. -/
theorem readsReturnTheMostRecentWrite : Obligations.ReadsReturnTheMostRecentWrite := by
  refine ⟨fun s t off v h => ?_, fun s t off v hoff h => ?_⟩
  · obtain ⟨p, hw⟩ := (writesAs_iff not_commandPort_one).1 h
    obtain ⟨x, hx, hwx⟩ := Option.bind_eq_some_iff.1 hw
    rw [readsAs_iff, ← busRead_pending t p, busRead_after_busWrite hw hx,
      readTarget_writeTarget_same (locate_inRange hx) (ne_reg_of_locate_one hx) hwx, setWidth_byte]
  · obtain ⟨p, hw⟩ := (writesAs_iff fun hport => hoff hport.1).1 h
    obtain ⟨x, hx, hwx⟩ := Option.bind_eq_some_iff.1 hw
    obtain ⟨r, hr, rfl⟩ := Option.map_eq_some_iff.1 (locate_four _ _ ▸ hx)
    have hcmd : r ≠ .cmd := by
      rintro rfl
      exact hoff (BitVec.eq_of_toNat_eq (regAt_inj hr (rfl : regAt 0x04 = some .cmd)))
    rw [readsAs_iff, ← busRead_pending t p, busRead_after_busWrite hw hx, readTarget,
      readReg_writeReg hcmd hwx, BitVec.setWidth_eq]

end Sys2Proof.Machine
end

section
/-! PROOFS. The statements on the byte scrambler and the cipher's inverse law (spec/41_mlea_cipher.md R141 to R145), and
on the visiting order (spec/42_bpc_bitplane_codec.md R161, R162). -/

namespace Sys2Proof.Machine

/-! ## Rotations and nibbles -/

theorem toNat_rotl8 (x : Byte) : (rotl8 x).toNat = 2 * x.toNat % 256 + x.toNat / 128 := by
  have hx := x.isLt
  have hlow : x.toNat / 128 < 2 ^ 1 := by omega
  have hhigh : 2 * x.toNat % 256 = 2 ^ 1 * (x.toNat % 128) := by omega
  rw [hhigh, Nat.two_pow_add_eq_or_of_lt hlow, ← hhigh, rotl8, BitVec.toNat_or, BitVec.toNat_shiftLeft,
    BitVec.toNat_ushiftRight, Nat.shiftLeft_eq, Nat.shiftRight_eq_div_pow, Nat.mul_comm]

theorem toNat_rotr8 (x : Byte) : (rotr8 x).toNat = x.toNat / 2 + x.toNat % 2 * 128 := by
  have hx := x.isLt
  have hlow : x.toNat / 2 < 2 ^ 7 := by omega
  have hbit : (x &&& 1).toNat = x.toNat % 2 := by
    rw [BitVec.toNat_and]
    exact Nat.and_one_is_mod _
  have hhigh : x.toNat % 2 * 2 ^ 7 % 2 ^ 8 = 2 ^ 7 * (x.toNat % 2) := by omega
  rw [Nat.add_comm, Nat.mul_comm, show (128 : Nat) = 2 ^ 7 from rfl, Nat.two_pow_add_eq_or_of_lt hlow, rotr8,
    BitVec.toNat_or, BitVec.toNat_shiftLeft, BitVec.toNat_ushiftRight, hbit, Nat.shiftLeft_eq,
    Nat.shiftRight_eq_div_pow, hhigh, Nat.or_comm]

theorem rotr8_rotl8 (x : Byte) : rotr8 (rotl8 x) = x := by
  have hx := x.isLt
  have hhigh : 2 * x.toNat % 256 = 2 * (x.toNat % 128) := by omega
  refine BitVec.eq_of_toNat_eq ?_
  rw [toNat_rotr8, toNat_rotl8, hhigh]
  omega

theorem rotl8_rotr8 (x : Byte) : rotl8 (rotr8 x) = x := by
  have hx := x.isLt
  have hlow : (x.toNat / 2 + x.toNat % 2 * 128) / 128 = x.toNat % 2 := by omega
  refine BitVec.eq_of_toNat_eq ?_
  rw [toNat_rotl8, toNat_rotr8, hlow]
  omega

theorem toNat_highNibble (x : Byte) : (x.extractLsb' 4 4).toNat = x.toNat / 16 := by
  have := x.isLt
  rw [BitVec.extractLsb'_toNat, Nat.shiftRight_eq_div_pow]
  omega

theorem toNat_lowNibble (x : Byte) : (x.extractLsb' 0 4).toNat = x.toNat % 16 := by
  rw [BitVec.extractLsb'_toNat]
  rfl

theorem toNat_append_nibbles (a b : BitVec 4) : (a ++ b).toNat = a.toNat * 16 + b.toNat := toNat_append' a b

theorem highNibble_append (a b : BitVec 4) : (a ++ b).extractLsb' 4 4 = a := by
  have := b.isLt
  refine BitVec.eq_of_toNat_eq ((toNat_highNibble (a ++ b)).trans ?_)
  rw [toNat_append_nibbles]
  omega

theorem lowNibble_append (a b : BitVec 4) : (a ++ b).extractLsb' 0 4 = b := by
  have := b.isLt
  refine BitVec.eq_of_toNat_eq ((toNat_lowNibble (a ++ b)).trans ?_)
  rw [toNat_append_nibbles]
  omega

theorem append_nibbles (x : Byte) : x.extractLsb' 4 4 ++ x.extractLsb' 0 4 = x := by
  refine BitVec.eq_of_toNat_eq ?_
  rw [toNat_append_nibbles, toNat_highNibble, toNat_lowNibble]
  omega

/-! ## The scrambler and the unscrambler -/

/-- `E(x)` as arithmetic on the rotated byte's nibbles (R141). -/
theorem toNat_scramble (x : Byte) :
    (scramble x).toNat = ((rotl8 x).toNat % 16 ^^^ (rotl8 x).toNat / 16) * 16 + (rotl8 x).toNat / 16 := by
  rw [scramble, toNat_append_nibbles, BitVec.toNat_xor, toNat_highNibble, toNat_lowNibble]

/-- `Dinv(y)` rotates back the byte of high nibble `y[3:0]` and low nibble `y[7:4] xor y[3:0]` (R142). -/
theorem unscramble_eq (y : Byte) :
    unscramble y = rotr8 (y.extractLsb' 0 4 ++ (y.extractLsb' 4 4 ^^^ y.extractLsb' 0 4)) := rfl

/-- `(B2 ^ B1) ^ B1 = B2` gives back the rotated byte (R142). -/
theorem unscramble_scramble (x : Byte) : unscramble (scramble x) = x := by
  rw [unscramble_eq, scramble, highNibble_append, lowNibble_append, BitVec.xor_assoc, BitVec.xor_self,
    BitVec.xor_zero, append_nibbles, rotr8_rotl8]

theorem scramble_unscramble (y : Byte) : scramble (unscramble y) = y := by
  rw [unscramble_eq, scramble, rotl8_rotr8, highNibble_append, lowNibble_append, BitVec.xor_assoc, BitVec.xor_self,
    BitVec.xor_zero, append_nibbles]

/-! ## The cipher's inverse law -/

/-- Adding the keystream twice takes it back (R145). -/
theorem xor_keystream_twice (x k : Byte) : x ^^^ k ^^^ k = x := by
  rw [BitVec.xor_assoc, BitVec.xor_self, BitVec.xor_zero]

/-- Two cipher commands of which the second's byte function undoes the first's leave every byte of DB as it was. -/
theorem execSeq_cipher_back {i j : Instr} {f g : Nat → Byte → Byte} {s : State}
    (hi : effectOf i s = cipherEffect f s)
    (hj : ∀ db, effectOf j { s with db := db } = cipherEffect g { s with db := db })
    (hback : ∀ k x, g k (f k x) = x) (he : s.err = false) (hL : s.dblen.toNat ≤ s.cfg.dbMax)
    (h1 : 1 ≤ s.kdlen.toNat) (h64 : s.kdlen.toNat ≤ 64) :
    ∃ t, execSeq [i, j] s = .next t ∧ t.err = false ∧ ∀ k, t.db.read k = s.db.read k := by
  obtain ⟨-, -, hcompletes⟩ := exec_cipher hi he
  obtain ⟨db₁, hexec₁, hin₁, hout₁⟩ := hcompletes hL h1 h64
  obtain ⟨-, -, hcompletes⟩ := exec_cipher (s := { s with db := db₁ }) (hj db₁) he
  obtain ⟨db₂, hexec₂, hin₂, hout₂⟩ := hcompletes hL h1 h64
  refine ⟨_, (execSeq_cons hexec₁).trans (execSeq_cons hexec₂), he, fun k => ?_⟩
  by_cases hk : k < s.dblen.toNat
  · exact (hin₂ k hk).trans ((congrArg (g k) (hin₁ k hk)).trans (hback k _))
  · exact (hout₂ k (not_lt.1 hk)).trans (hout₁ k (not_lt.1 hk))

/-! ## The visiting order, tile by tile -/

/-- An index of tile `t` lies in the `t`-th stretch of `T` indices (R160). -/
theorem div_of_mem_tileOrder {pat : List Nat} (hp : pat.Perm (List.range pat.length)) {n t i : Nat}
    (h : i ∈ tileOrder pat n t) : i / pat.length = t := by
  obtain ⟨hlo, hhi, -⟩ := (mem_tileOrder hp).1 h
  exact Nat.div_eq_of_lt_le hlo hhi

/-- Every index of a tile comes before every index of the next (R162). -/
theorem visitingOrder_tiles_sorted {pat : List Nat} (hp : pat.Perm (List.range pat.length)) (n : Nat) :
    (visitingOrder pat n).Pairwise fun i j => i / pat.length ≤ j / pat.length := by
  refine List.pairwise_flatMap.2 ⟨fun t _ => ?_, List.pairwise_lt_range.imp fun hlt i hi j hj => ?_⟩
  · refine List.pairwise_of_forall_mem_list fun i hi j hj => ?_
    rw [div_of_mem_tileOrder hp hi, div_of_mem_tileOrder hp hj]
  · rw [div_of_mem_tileOrder hp hi, div_of_mem_tileOrder hp hj]
    exact hlt.le

/-! ## The closed form of the visiting order -/

/-- The tile after `q` whole ones keeps the entries of the pattern below what is left of the plane (R161). -/
theorem tileOrder_last (pat : List Nat) (q r : Nat) : tileOrder pat (q * pat.length + r) q =
    (pat.filter fun p => decide (p < r)).map fun p => q * pat.length + p := by
  rw [tileOrder, List.filter_map]
  refine congrArg _ (List.filter_congr fun p _ => ?_)
  exact decide_eq_decide.2 Nat.add_lt_add_iff_left

/-- `VO(q*T + r)` is `q` whole tiles and then the last one, which is empty where `r` is 0 (R161). -/
theorem visitingOrder_eq {pat : List Nat} (hp : pat.Perm (List.range pat.length)) {q r : Nat} (hr : r < pat.length) :
    visitingOrder pat (q * pat.length + r) =
      ((List.range q).flatMap fun t => pat.map fun p => t * pat.length + p) ++
        (pat.filter fun p => decide (p < r)).map fun p => q * pat.length + p := by
  have whole : (List.range q).flatMap (tileOrder pat (q * pat.length + r)) =
      (List.range q).flatMap fun t => pat.map fun p => t * pat.length + p := by
    refine List.flatMap_congr fun t ht => tileOrder_full hp ?_
    exact (Nat.mul_le_mul_right _ (List.mem_range.1 ht)).trans (Nat.le_add_right _ _)
  rw [← tileOrder_last, ← whole, visitingOrder, ceilDiv_tiles hr]
  split_ifs with h0
  · have hnone : tileOrder pat (q * pat.length + r) q = [] := by
      rw [tileOrder_last, h0]
      simp
    rw [hnone, List.append_nil]
  · rw [List.range_succ, List.flatMap_append, List.flatMap_singleton]

/-- The `q` whole tiles have `q*T` indices (R161). -/
theorem length_wholeTiles (pat : List Nat) (q : Nat) :
    ((List.range q).flatMap fun t => pat.map fun p => t * pat.length + p).length = q * pat.length := by
  rw [length_flatMap_const (fun t => List.length_map _), List.length_range]

/-! ## The statements -/

/-- Settles O38: the unscrambler's definition read as numbers, and both inverse laws. -/
theorem theUnscramblerInvertsTheScrambler : Obligations.TheUnscramblerInvertsTheScrambler := by
  refine ⟨fun y => ⟨(y.extractLsb' 0 4 ++ (y.extractLsb' 4 4 ^^^ y.extractLsb' 0 4)).toNat, ?_, ?_⟩,
    fun x => ⟨unscramble_scramble x, scramble_unscramble x⟩⟩
  · rw [toNat_append_nibbles, BitVec.toNat_xor, toNat_highNibble, toNat_lowNibble]
  · rw [unscramble_eq, toNat_rotr8]

/-- Settles O37: the scrambler's definition read as numbers, its inverse, and its fixed points among the 256 bytes. -/
theorem theScramblerIsTheRulesBijection : Obligations.TheScramblerIsTheRulesBijection := by
  refine ⟨fun x => ?_, ?_, by decide, by decide, by decide, by decide, by decide, by decide⟩
  · rw [toNat_scramble, toNat_rotl8]
  · exact Function.bijective_iff_has_inverse.2 ⟨unscramble, unscramble_scramble, scramble_unscramble⟩

/-- Settles O41: per byte, each command's function undoes the other's. -/
theorem encryptionAndDecryptionAreInverse : Obligations.EncryptionAndDecryptionAreInverse := by
  refine fun s he hL h1 h64 => ⟨?_, ?_⟩
  · refine execSeq_cipher_back (g := fun k y => unscramble (y ^^^ s.keystream k)) (effectOf_mleaEnc s)
      (fun db => effectOf_mleaDec { s with db := db }) (fun k x => ?_) he hL h1 h64
    exact (congrArg unscramble (xor_keystream_twice _ _)).trans (unscramble_scramble x)
  · refine execSeq_cipher_back (g := fun k x => scramble x ^^^ s.keystream k) (effectOf_mleaDec s)
      (fun db => effectOf_mleaEnc { s with db := db }) (fun k x => ?_) he hL h1 h64
    exact (congrArg (· ^^^ s.keystream k) (scramble_unscramble _)).trans (xor_keystream_twice x _)

/-- Settles O42: the order holds each index once and its tiles in order; the examples are computed. -/
theorem theVisitingOrderIsAPermutation : Obligations.TheVisitingOrderIsAPermutation :=
  ⟨fun c n => ⟨visitingOrder_perm_range c.pat_perm c.pat_pos n, visitingOrder_tiles_sorted c.pat_perm n⟩,
    by decide, by decide, by decide, by decide, by decide, by decide, by decide, by decide⟩

/-- Settles O43: an index among the whole tiles is found by quotient and remainder, a later one in the last tile, whose
length is what the whole tiles leave of `N`. -/
theorem theVisitingOrderHasTheClosedForm : Obligations.TheVisitingOrderHasTheClosedForm := by
  intro c q r hr n s
  have heq := visitingOrder_eq c.pat_perm (q := q) hr
  have hwhole := length_wholeTiles c.pat q
  have hlen : (visitingOrder c.pat n).length = n := length_visitingOrder c.pat_perm c.pat_pos n
  refine ⟨hlen, ?_, fun k hk => ?_, fun k hk hkn => ?_⟩
  · have hsum := congrArg List.length heq
    rw [List.length_append, List.length_map, hwhole] at hsum
    exact Nat.add_left_cancel (hsum.symm.trans hlen)
  · have hkq : k / c.pat.length < q := (Nat.div_lt_iff_lt_mul c.pat_pos).2 hk
    refine (congrArg (·[k]?) heq).trans ?_
    rw [List.getElem?_append_left (hk.trans_eq hwhole.symm),
      getElem?_flatMap_const c.pat_pos (fun t => List.length_map _), List.getElem?_range hkq]
    exact List.getElem?_map
  · refine (congrArg (·[k]?) heq).trans ?_
    rw [List.getElem?_append_right (hwhole.le.trans hk), hwhole]
    exact List.getElem?_map

end Sys2Proof.Machine
end

section
/-! PROOFS. The statements on splits, buffers moved back and shuffles (spec/40_bpe_block_permutation.md R121, R123, R127
to R129). -/

namespace Sys2Proof.Machine

/-! ## Split, then merge -/

/-- Merged back where they came from, the four regions give the plane they were copied from (R127). -/
theorem read_merge_splitState (s : State) (j : Nat) :
    ((splitState s).pm.writeAll (mergeWrites (splitState s))).read j = s.pm.read j := by
  have ⟨⟨hrows, hcols⟩, _⟩ := splitState_fits s
  refine read_of_regions (s := s) (h2 := s.height / 2) (w2 := s.width / 2) (by omega) (by omega) (fun k r hr c hc => ?_)
    (fun j hj => read_merge_beyond (splitState s) hrows hcols hj) j
  have hk : (splitState s).mergeRegion k = s.splitRegion k := mergeRegion_center rfl rfl k
  have hmerge := read_merge (splitState s) hcols k (r := r) (c := c) (hk ▸ hr) (hk ▸ hc)
  rw [hk, splitState_qb] at hmerge
  exact hmerge.trans (read_splitQuadrant s k hr hc)

/-! ## Which shuffles fit -/

/-- The state after `bpe.split` and `bpe.perm p`. -/
def splitPermuted (s : State) (p : Equiv.Perm (Fin 4)) : State :=
  { splitState s with qb := permuteQuadrants (splitState s).qb (p 0) (p 1) (p 2) (p 3) }

theorem splitPermuted_qb (s : State) (p : Equiv.Perm (Fin 4)) (i : Fin 4) :
    (splitPermuted s p).qb[i] = splitQuadrant s (p i) :=
  (permute_eq _ p i).trans (splitState_qb s _)

theorem execSeq_split_perm {s : State} (he : s.err = false) (hN : s.count ≤ s.cfg.pmMax) (p : Equiv.Perm (Fin 4)) :
    execSeq [.bpeSplit, .bpePerm (p 0) (p 1) (p 2) (p 3)] s = .next (splitPermuted s p) :=
  (execSeq_cons (exec_split he hN)).trans (execSeq_cons (exec_perm (s := splitState s) he rfl p))

theorem region_rows_eq (h w h2 w2 : Nat) (k : Fin 4) :
    (region h w h2 w2 k).rows = if k.val / 2 = 0 then h2 else h - h2 := by
  fin_cases k <;> rfl

theorem region_cols_eq (h w h2 w2 : Nat) (k : Fin 4) :
    (region h w h2 w2 k).cols = if k.val % 2 = 0 then w2 else w - w2 := by
  fin_cases k <;> rfl

/-- Halves of an even height are alike; of an odd one the bottom half is larger (R120). -/
theorem splitRows_eq_iff (h w w2 : Nat) (j k : Fin 4) :
    (region h w (h / 2) w2 j).rows = (region h w (h / 2) w2 k).rows ↔ (h % 2 = 1 → j.val / 2 = k.val / 2) := by
  have hj := j.isLt
  have hk := k.isLt
  rw [region_rows_eq, region_rows_eq]
  split_ifs <;> omega

/-- Halves of an even width are alike; of an odd one the right half is larger (R120). -/
theorem splitCols_eq_iff (h w h2 : Nat) (j k : Fin 4) :
    (region h w h2 (w / 2) j).cols = (region h w h2 (w / 2) k).cols ↔ (w % 2 = 1 → j.val % 2 = k.val % 2) := by
  rw [region_cols_eq, region_cols_eq]
  split_ifs <;> omega

/-- A permutation of the regions keeps the shapes exactly where it keeps top and bottom apart on an odd height, and left
and right apart on an odd width (R128). -/
theorem splitShapes_kept_iff (h w : Nat) (p : Equiv.Perm (Fin 4)) :
    (∀ i : Fin 4, (region h w (h / 2) (w / 2) (p i)).rows = (region h w (h / 2) (w / 2) i).rows ∧
      (region h w (h / 2) (w / 2) (p i)).cols = (region h w (h / 2) (w / 2) i).cols) ↔
    (h % 2 = 1 → ∀ i : Fin 4, (p i).val / 2 = i.val / 2) ∧
      (w % 2 = 1 → ∀ i : Fin 4, (p i).val % 2 = i.val % 2) := by
  simp only [splitRows_eq_iff, splitCols_eq_iff, forall_and, forall_comm (α := Fin 4)]

/-- A position is fixed by its row and its column of the four. -/
theorem perm_eq_one_iff (p : Equiv.Perm (Fin 4)) :
    ((∀ i : Fin 4, (p i).val / 2 = i.val / 2) ∧ ∀ i : Fin 4, (p i).val % 2 = i.val % 2) ↔ p = 1 := by
  constructor
  · rintro ⟨hrow, hcol⟩
    refine Equiv.ext fun i => Fin.ext ?_
    have h1 := hrow i
    have h2 := hcol i
    show (p i).val = i.val
    omega
  · rintro rfl
    exact ⟨fun _ => rfl, fun _ => rfl⟩

/-! ## Shuffles -/

/-- A shuffle touches no error, no configuration and no dimension. -/
theorem shuffled_frame {s u : State} {f : Fin 4 → Fin 4} (h : shuffled s u f) :
    u.err = s.err ∧ u.cfg = s.cfg ∧ u.dims = s.dims := by
  obtain ⟨hu, -⟩ := h
  exact ⟨(congrArg State.err hu :), (congrArg State.cfg hu :), (congrArg State.dims hu :)⟩

/-! ## The statements -/

/-- Settles O29: the buffers `bpe.split` leaves, read within and beyond their shapes. -/
theorem bpeSplitCopiesTheFourRegions : Obligations.BpeSplitCopiesTheFourRegions := by
  refine ⟨decode_encode (i := .bpeSplit) rfl, fun s he => ⟨fun hN => ?_, fun hN => ?_⟩⟩
  · exact exec_of_error (i := .bpeSplit) he (if_pos hN)
  · refine ⟨(splitState s).qb, (splitState s).splitpt, exec_split he hN, splitpt_rows s, splitpt_cols s, ?_⟩
    rintro k g rfl
    obtain ⟨hrows, hcols⟩ := splitQuadrant_shape s k
    rw [splitState_qb]
    exact ⟨hrows, hcols, fun r hr c hc => read_splitQuadrant s k hr hc, fun j hj => read_splitQuadrant_beyond s k hj⟩

/-- Settles O31: a completed `bpe.unperm` replaces the buffers by those moved back, which are the buffers permuted by
the inverse. -/
theorem bpeUnpermMovesWholeBuffersBack : Obligations.BpeUnpermMovesWholeBuffersBack := by
  refine ⟨fun s p he hq => ⟨⟨_, exec_unperm he hq p, unpermute_eq s.qb p⟩, ?_⟩, fun s p0 p1 p2 p3 h0 h1 h2 h3 => ?_⟩
  · rw [exec_unperm he hq, exec_perm he hq, unperm_symm]
  · have hw : encode (.bpeUnperm p0 p1 p2 p3) = wordP 0x32 p0 p1 p2 p3 := (wordP_eq 0x32 h0 h1 h2 h3).symm
    rw [← hw]
    refine ⟨decode_encode (fitsFields_iff.2 ⟨h0, h1, h2, h3⟩), fun he hp => ?_, fun he hp hq => ?_⟩
    · exact exec_of_error he (effectOf_permInvalid rfl hp s)
    · exact exec_of_error he (effectOf_perm_noSplit rfl hp hq)

/-- Settles O34: a split leaves what a merge accepts, and the merge writes every byte where it was read. -/
theorem splitThenMergeIsTheIdentity : Obligations.SplitThenMergeIsTheIdentity := by
  intro s he hN
  have hmerge : exec .bpeMerge (splitState s) = .next _ :=
    exec_of_ok (i := .bpeMerge) (s := splitState s) he (mergeEffect_ok hN rfl (splitState_fits s))
  exact ⟨_, (execSeq_cons (exec_split he hN)).trans (execSeq_cons hmerge), he, read_merge_splitState s⟩

/-- Settles O35: the merge compares the shapes of the regions, and which of these are alike depends on the parity of
each dimension. -/
theorem whichShufflesFit : Obligations.WhichShufflesFit := by
  intro s p he hN g fits
  have hfits : fits ↔ (s.height % 2 = 1 → ∀ i : Fin 4, (p i).val / 2 = i.val / 2) ∧
      (s.width % 2 = 1 → ∀ i : Fin 4, (p i).val % 2 = i.val % 2) := splitShapes_kept_iff s.height s.width p
  have hmerge : (splitPermuted s p).mergeFits ↔ fits :=
    perm_fits s (splitPermuted s p) p rfl rfl (splitPermuted_qb s p)
  refine ⟨⟨_, execSeq_split_perm he hN p, fun hf => ?_, fun hf => ?_⟩, fun h0 w0 => ?_, fun h1 w0 _ => ?_,
    fun h0 w1 _ => ?_, fun h1 w1 => ?_⟩
  · exact ⟨_, exec_of_ok (i := .bpeMerge) (s := splitPermuted s p) he (mergeEffect_ok hN rfl (hmerge.2 hf)), he⟩
  · exact exec_of_error (i := .bpeMerge) (s := splitPermuted s p) he (mergeEffect_mismatch hN rfl (mt hmerge.1 hf))
  · exact hfits.2 ⟨fun h1 => by omega, fun w1 => by omega⟩
  · exact hfits.trans ⟨fun h => h.1 h1, fun h => ⟨fun _ => h, fun w1 => by omega⟩⟩
  · exact hfits.trans ⟨fun h => h.2 w1, fun h => ⟨fun h1 => by omega, fun _ => h⟩⟩
  · exact hfits.trans ((and_congr (imp_iff_right h1) (imp_iff_right w1)).trans (perm_eq_one_iff p))

/-- Settles O36: the unshuffle is the shuffle by the inverse permutation. -/
theorem shuffleThenUnshuffleRestoresThePlane : Obligations.ShuffleThenUnshuffleRestoresThePlane := by
  intro s p he hN h0 w0 g
  obtain ⟨t, hexec, ht⟩ := shuffle s p he hN h0 w0
  obtain ⟨hterr, htcfg, htdims⟩ := shuffled_frame ht
  have htN : t.count ≤ t.cfg.pmMax := by rw [State.count_congr htdims, htcfg]; exact hN
  obtain ⟨u, hexec', hu⟩ := unshuffle t p (hterr.trans he) htN (State.height_congr htdims ▸ h0)
    (State.width_congr htdims ▸ w0)
  obtain ⟨huerr, -, -⟩ := shuffled_frame hu
  have ⟨_, hregions, hbeyond⟩ := ht
  have ⟨_, _, hbeyond'⟩ := hu
  refine ⟨t, u, hexec, hterr.trans he, hregions, hexec', huerr.trans (hterr.trans he), fun j => ?_⟩
  by_cases hj : j < s.count
  · exact shuffled_back h0 w0 ht hu htdims (fun _ _ => rfl) j hj
  · have hj' : t.count ≤ j := (State.count_congr htdims).trans_le (not_lt.1 hj)
    exact (hbeyond' j hj').trans (hbeyond j (not_lt.1 hj))

end Sys2Proof.Machine
end

section
/-! PROOFS. The statements on extraction and on what an embedding leaves (spec/42_bpc_bitplane_codec.md R171 to R176):
the checks of both extract commands, planes that carry a payload, and the samples an embedding does not touch. -/

namespace Sys2Proof.Machine

/-! ## The checks of `bpc.extract` -/

/-- `bpc.extract` is its effect (R171). -/
theorem effectOf_bpcExtract (b : Nat) (s : State) : effectOf (.bpcExtract b) s = extractEffect b s := rfl

/-- The second check of `bpc.extract`: the plane fits PM (R171). -/
theorem extractEffect_dimsTooLarge {b : Nat} {s : State} (hb : 1 ≤ b ∧ b ≤ 4) (hN : s.cfg.pmMax < s.count) :
    extractEffect b s = .error .dimsTooLarge := by
  rw [extractEffect, if_neg (mt bppLegal_eq_false.1 (not_not.2 hb)), if_pos hN]

/-- The last check of `bpc.extract`: the plane has NUMBITS bits (R171). -/
theorem extractEffect_extractTooLong {b : Nat} {s : State} (hb : 1 ≤ b ∧ b ≤ 4) (hN : s.count ≤ s.cfg.pmMax)
    (hc : s.capacity b < s.numbits.toNat) :
    extractEffect b s = .error (.extractTooLong s.numbits.toNat (s.capacity b)) := by
  rw [extractEffect, if_neg (mt bppLegal_eq_false.1 (not_not.2 hb)), if_neg (not_lt.2 hN)]
  exact if_pos hc

/-! ## The checks of `bpc.extractf` -/

/-- `bpc.extractf` is its effect (R173). -/
theorem effectOf_bpcExtractf (b : Nat) (s : State) : effectOf (.bpcExtractf b) s = extractfEffect b s := rfl

/-- The second check of `bpc.extractf`: the plane fits PM (R173). -/
theorem extractfEffect_dimsTooLarge {b : Nat} {s : State} (hb : 1 ≤ b ∧ b ≤ 4) (hN : s.cfg.pmMax < s.count) :
    extractfEffect b s = .error .dimsTooLarge := by
  rw [extractfEffect, if_neg (mt bppLegal_eq_false.1 (not_not.2 hb)), if_pos hN]

/-- The third check of `bpc.extractf`: the plane holds a header (R173). -/
theorem extractfEffect_noRoomForHeader {b : Nat} {s : State} (hb : 1 ≤ b ∧ b ≤ 4) (hN : s.count ≤ s.cfg.pmMax)
    (hc : s.capacity b < 32) : extractfEffect b s = .error (.noRoomForHeader 32 (s.capacity b)) := by
  rw [extractfEffect, if_neg (mt bppLegal_eq_false.1 (not_not.2 hb)), if_neg (not_lt.2 hN), if_pos hc]

/-- The last check of `bpc.extractf`: the plane holds as many bytes as its header says (R173). -/
theorem extractfEffect_headerTooLarge {b : Nat} {s : State} (hb : 1 ≤ b ∧ b ≤ 4) (hN : s.count ≤ s.cfg.pmMax)
    (h32 : 32 ≤ s.capacity b) (hc : s.capacity b < 32 + 8 * headerLength b s) :
    extractfEffect b s = .error (.headerTooLarge (32 + 8 * headerLength b s) (s.capacity b)) := by
  rw [extractfEffect, if_neg (mt bppLegal_eq_false.1 (not_not.2 hb)), if_neg (not_lt.2 hN), if_neg (not_lt.2 h32)]
  exact if_pos hc

/-! ## What extraction reads -/

/-- Bit by bit, `readbits` gives the plane's stream up to its length (R163). -/
theorem getD_readBits_order {s : State} {b n m : Nat} (hb : 0 < b) (hn : n ≤ s.capacity b) :
    (readBits s.order n b s.pm).getD m false = (decide (m < n) && planeBit s b m) := by
  rw [List.getD_eq_getElem?_getD]
  by_cases hm : m < n
  · rw [getElem?_readBits_order hb hn hm, decide_eq_true hm, Bool.true_and, Option.getD_some]
  · rw [List.getElem?_eq_none ((length_readBits_order hb hn).trans_le (not_lt.1 hm)), decide_eq_false hm,
      Bool.false_and, Option.getD_none]

/-- Filling up with 0 changes no bit but the length. -/
theorem getD_append_zeros (l : List Bool) (k m : Nat) :
    (l ++ List.replicate k false).getD m false = l.getD m false := by
  rw [List.getD_eq_getElem?_getD, List.getD_eq_getElem?_getD, List.getElem?_append]
  split_ifs with h
  · rfl
  · rw [List.getElem?_eq_none (l := l) (not_lt.1 h), List.getElem?_replicate]
    split_ifs <;> rfl

/-- What `bpc.extract` loads is the plane's stream of NUMBITS bits, filled with 0 (R171). -/
theorem holdsStream_extract {s : State} {b n : Nat} (hb : 0 < b) (hn : n ≤ s.capacity b) :
    holdsStream s (s.db.load (pack (readBits s.order n b s.pm ++ List.replicate (8 * ceilDiv n 8 - n) false))) n
      (planeBit s b) := by
  have hle := le_ceilDiv_mul n (b := 8) (by decide)
  refine holdsStream_load s ?_ fun m _ => ?_
  · rw [List.length_append, length_readBits_order hb hn, List.length_replicate]
    omega
  · rw [getD_append_zeros, getD_readBits_order hb hn]

/-- A whole number of bytes is as many bytes. -/
theorem ceilDiv_eight_mul (m : Nat) : ceilDiv (8 * m) 8 = m := by
  unfold ceilDiv
  omega

/-- What `bpc.extractf` loads is the plane's stream after the header (R173). -/
theorem holdsStream_extractf {s : State} {b len : Nat} (hb : 0 < b) (hc : 32 + 8 * len ≤ s.capacity b) :
    holdsStream s (s.db.load (pack ((readBits s.order (32 + 8 * len) b s.pm).drop 32))) (8 * len)
      fun m => planeBit s b (32 + m) := by
  refine holdsStream_load s ?_ fun m _ => ?_
  · rw [List.length_drop, length_readBits_order hb hc, ceilDiv_eight_mul]
    omega
  · rw [List.getD_eq_getElem?_getD, List.getElem?_drop, ← List.getD_eq_getElem?_getD, getD_readBits_order hb hc]
    exact congrArg (· && _) (decide_eq_decide.2 (by omega))

/-- A number of bytes that fits DB fits a 32-bit register (00_scope.md R7). -/
theorem toNat_ofNat_of_le_dbMax {c : Config} {l : Nat} (h : l ≤ c.dbMax) : (BitVec.ofNat 32 l).toNat = l := by
  obtain ⟨-, -, -, hdb, -⟩ := c.bounds
  exact (BitVec.toNat_ofNat _ _).trans (Nat.mod_eq_of_lt (by omega))

/-- The bytes after a header that fits the plane fit DB (R173). -/
theorem body_le_dbMax {s : State} {b len : Nat} (hb : b ≤ 4) (hN : s.count ≤ s.cfg.pmMax)
    (hc : 32 + 8 * len ≤ s.capacity b) : len ≤ s.cfg.dbMax :=
  (ceilDiv_eight_mul len).symm.trans_le (capacity_dbMax hb hN (by omega))

/-! ## Planes that carry a payload -/

/-- The plane's stream at `b` bits per pixel begins with the bits of the payload. -/
def State.carries (s : State) (b : Nat) (payload : List Byte) : Prop :=
  8 * payload.length ≤ s.capacity b ∧ readBits s.order (8 * payload.length) b s.pm = unpack payload

/-- After an embedding the plane carries what was embedded (R163). -/
theorem carries_writeBits {s : State} {b : Nat} {payload : List Byte} (hb : 1 ≤ b ∧ b ≤ 4)
    (hc : 8 * payload.length ≤ s.capacity b) :
    ({ s with pm := writeBits s.order (unpack payload) b s.pm } : State).carries b payload := by
  obtain ⟨h1, h4⟩ := hb
  have hbits : (unpack payload).length ≤ s.order.length * b := by
    rw [length_unpack, s.length_order]
    exact hc
  have hread := readBits_writeBits (pm := s.pm) s.nodup_order h1 (by omega) hbits
  rw [length_unpack] at hread
  exact ⟨hc, hread⟩

/-- What a plane carries is a matter of its samples alone. -/
theorem carries_congr {s t : State} {b : Nat} {payload : List Byte} (hcfg : t.cfg = s.cfg) (hdims : t.dims = s.dims)
    (hpm : ∀ j < s.count, t.pm.read j = s.pm.read j) (hb : 0 < b) (h : s.carries b payload) : t.carries b payload := by
  obtain ⟨hc, hread⟩ := h
  have hcap : t.capacity b = s.capacity b := by rw [State.capacity, State.capacity, State.count_congr hdims]
  exact ⟨hc.trans_eq hcap.symm, (readBits_congr hcfg hdims hpm hb hc).trans hread⟩

/-- A shorter stretch of the stream is the beginning of the payload (R163). -/
theorem State.carries.take {s : State} {b : Nat} {p q : List Byte} (hb : 0 < b) (h : s.carries b (p ++ q)) :
    s.carries b p := by
  obtain ⟨hc, hread⟩ := h
  rw [List.length_append] at hc hread
  refine ⟨by omega, ?_⟩
  have htake := readBits_take (pm := s.pm) (n := 8 * p.length) hb (by omega)
    (by rw [s.length_order]; exact hc : 8 * (p.length + q.length) ≤ s.order.length * b)
  rw [htake, hread, unpack, List.flatMap_append]
  exact List.take_left' (length_unpack p)

/-- With NUMBITS the bits of a carried payload, `bpc.extract` loads the payload (R171). -/
theorem exec_extract_of_carries {s : State} {b : Nat} {payload : List Byte} (hb : 1 ≤ b ∧ b ≤ 4) (he : s.err = false)
    (hN : s.count ≤ s.cfg.pmMax) (hn : s.numbits.toNat = 8 * payload.length) (h : s.carries b payload) :
    exec (.bpcExtract b) s =
      .next { s with db := s.db.load payload, dblen := BitVec.ofNat 32 payload.length } := by
  obtain ⟨hc, hread⟩ := h
  have hok := extractEffect_ok hb hN (hn.trans_le hc)
  rw [hn, ceilDiv_eight_mul, Nat.sub_self, List.replicate_zero, List.append_nil, hread, pack_unpack] at hok
  exact exec_of_ok he hok

/-- A carried header is read as the length it was made of (R172, R173). -/
theorem headerLength_of_carries {s : State} {b : Nat} {len : Word} (h : s.carries b (be32 len)) :
    headerLength b s = len.toNat := by
  have hread : readBits s.order 32 b s.pm = unpack (be32 len) := h.2
  rw [headerLength, hread, pack_unpack, ube32_be32]

/-- Of a carried header and as many bytes as it says, `bpc.extractf` loads the bytes (R173). -/
theorem exec_extractf_of_carries {s : State} {b : Nat} {len : Word} {body : List Byte} (hb : 1 ≤ b ∧ b ≤ 4)
    (he : s.err = false) (hN : s.count ≤ s.cfg.pmMax) (hlen : body.length = len.toNat)
    (h : s.carries b (be32 len ++ body)) :
    exec (.bpcExtractf b) s = .next { s with db := s.db.load body, dblen := len, hdrlen := len } := by
  have hheader := headerLength_of_carries (h.take hb.1)
  obtain ⟨hc, hread⟩ := h
  have hbits : 8 * (be32 len ++ body).length = 32 + 8 * len.toNat := by
    rw [List.length_append, length_be32, hlen]
    omega
  have hdrop : (unpack (be32 len ++ body)).drop 32 = unpack body := by
    rw [unpack, List.flatMap_append]
    exact List.drop_left' (length_unpack (be32 len))
  rw [hbits] at hc hread
  have hok := extractfEffect_ok hb hN (s := s) (by rw [hheader]; exact hc)
  rw [hheader, hread, hdrop, pack_unpack, BitVec.ofNat_toNat, BitVec.setWidth_eq] at hok
  exact exec_of_ok he hok

/-- A completed `bpc.embed` leaves a plane that carries the data (R170). -/
theorem exec_bpcEmbed {s : State} {b : Nat} (hb : 1 ≤ b ∧ b ≤ 4) (he : s.err = false) (hN : s.count ≤ s.cfg.pmMax)
    (hL : s.dblen.toNat ≤ s.cfg.dbMax) (hc : 8 * s.dblen.toNat ≤ s.capacity b) :
    exec (.bpcEmbed b) s = .next { s with pm := writeBits s.order (unpack (rawPayload s)) b s.pm } ∧
      ({ s with pm := writeBits s.order (unpack (rawPayload s)) b s.pm } : State).carries b (rawPayload s) :=
  ⟨exec_of_ok he ((effectOf_bpcEmbed b s).trans (embedEffect_ok hb hN hL hc)),
    carries_writeBits hb ((length_rawPayload s).symm ▸ hc)⟩

/-- A completed `bpc.embedf` leaves a plane that carries the header and the data (R172). -/
theorem exec_bpcEmbedf {s : State} {b : Nat} (hb : 1 ≤ b ∧ b ≤ 4) (he : s.err = false) (hN : s.count ≤ s.cfg.pmMax)
    (hL : s.dblen.toNat ≤ s.cfg.dbMax) (hc : 8 * (s.dblen.toNat + 4) ≤ s.capacity b) :
    exec (.bpcEmbedf b) s = .next { s with pm := writeBits s.order (unpack (framedPayload s)) b s.pm } ∧
      ({ s with pm := writeBits s.order (unpack (framedPayload s)) b s.pm } : State).carries b (framedPayload s) :=
  ⟨exec_of_ok he ((effectOf_bpcEmbedf b s).trans (embedEffect_ok hb hN hL hc)),
    carries_writeBits hb ((length_framedPayload s).symm ▸ hc)⟩

/-- Loaded bytes of another memory read as they did there. -/
theorem read_load_bytes (m m' : Memory) {n j : Nat} (h : j < n) : (m.load (m'.bytes n)).read j = m'.read j := by
  rw [Memory.read_load, Memory.getElem?_bytes, if_pos h, Option.getD_some]

/-- The four bytes of a length, most significant first, add up to it (00_scope.md R11). -/
theorem read_load_be32 (m : Memory) (n : Word) :
    ((m.load (be32 n)).read 0).toNat * 2 ^ 24 + ((m.load (be32 n)).read 1).toNat * 2 ^ 16
      + ((m.load (be32 n)).read 2).toNat * 2 ^ 8 + ((m.load (be32 n)).read 3).toNat = n.toNat := by
  rw [← ube32_be32 n]
  simp only [Memory.read_load, be32, ube32, List.foldl_cons, List.foldl_nil, List.getElem?_cons_zero,
    List.getElem?_cons_succ, Option.getD_some]
  omega

/-! ## What an embedding leaves alone -/

/-- With no error recorded after it, a command other than the two of R218 found none, and completed. -/
theorem effectOf_of_completes {i : Instr} {s t : State} (hc : i ≠ .sysClrerr) (hr : i ≠ .sysSreset)
    (h : exec i s = .next t) (ht : t.err = false) : effectOf i s = .ok t := by
  cases hs : s.err with
  | false => exact effectOf_of hs h ht
  | true =>
    obtain rfl : s = t := Host.Outcome.next.inj ((exec_of_err hs hc hr).symm.trans h)
    simp [hs] at ht

/-- An embed command that completes has legal operands and replaces PM by the plane with the payload's bits (R170). -/
theorem embedEffect_ok_inv {b len : Nat} {payload : List Byte} {s t : State}
    (h : embedEffect b len payload s = .ok t) :
    (1 ≤ b ∧ b ≤ 4) ∧ t = { s with pm := writeBits s.order (unpack payload) b s.pm } := by
  rcases embedEffect_cases b len payload s with ⟨-, e⟩ | ⟨-, -, e⟩ | ⟨-, -, -, e⟩ | ⟨-, -, -, -, e⟩ |
    ⟨hb, -, -, -, e⟩ <;> rw [e] at h <;> cases h
  exact ⟨hb, rfl⟩

/-- Bytes with the same bits from `b` up differ by less than `2^b` (R175). -/
theorem lt_add_of_div_eq {x y d : Nat} (hd : 0 < d) (h : x / d = y / d) : x < y + d := by
  have hx := Nat.div_add_mod x d
  have hy := Nat.div_add_mod y d
  have hlt := Nat.mod_lt x hd
  rw [h] at hx
  omega

/-- Samples not visited, the high bits of all, and how far a sample moves, for the payload of either embed command
(R175). -/
theorem embedEffect_leaves {b len : Nat} {payload : List Byte} {s t : State} (hlen : payload.length = len)
    (h : embedEffect b len payload s = .ok t) :
    (∀ j, j ∉ s.order.take (ceilDiv (8 * len) b) → t.pm.read j = s.pm.read j) ∧
    (∀ j, (t.pm.read j).toNat / 2 ^ b = (s.pm.read j).toNat / 2 ^ b) ∧
    ∀ j, (t.pm.read j).toNat < (s.pm.read j).toNat + 2 ^ b ∧ (s.pm.read j).toNat < (t.pm.read j).toNat + 2 ^ b := by
  obtain ⟨⟨h1, h4⟩, rfl⟩ := embedEffect_ok_inv h
  have hbits : (unpack payload).length = 8 * len := by rw [length_unpack, hlen]
  have hembeds := embedsStream_of s h1 h4 hbits fun _ _ => rfl
  have hhigh := embedsStream_keeps hembeds
  have hpos : 0 < 2 ^ b := Nat.two_pow_pos b
  exact ⟨hembeds.2, hhigh, fun j => ⟨lt_add_of_div_eq hpos (hhigh j), lt_add_of_div_eq hpos (hhigh j).symm⟩⟩

/-! ## The statements -/

/-- Settles O46: the checks of `bpc.extract` in their order, then the bits it loads. -/
theorem bpcExtractReadsTheBitStream : Obligations.BpcExtractReadsTheBitStream := by
  intro b hb
  refine ⟨decode_wordB 0x11 .bpcExtract hb fun _ => decode_bpcExtract, fun s he => ?_⟩
  have hw : wordB 0x11 b = encode (.bpcExtract b) := wordB_eq 0x11 hb
  rw [hw]
  refine ⟨fun hbpp => ?_, fun h1 h4 hN => ?_, fun h1 h4 hN hc => ?_, fun h1 h4 hN hc => ?_⟩
  · exact exec_of_error he (effectOf_bppRange rfl hbpp s)
  · exact exec_of_error he ((effectOf_bpcExtract b s).trans (extractEffect_dimsTooLarge ⟨h1, h4⟩ hN))
  · exact exec_of_error he ((effectOf_bpcExtract b s).trans (extractEffect_extractTooLong ⟨h1, h4⟩ hN hc))
  · have hdb : ceilDiv s.numbits.toNat 8 ≤ s.cfg.dbMax := capacity_dbMax h4 hN hc
    have hl := toNat_ofNat_of_le_dbMax hdb
    exact ⟨_, _, exec_of_ok he ((effectOf_bpcExtract b s).trans (extractEffect_ok ⟨h1, h4⟩ hN hc)), hl,
      hl.trans_le hdb, holdsStream_extract h1 hc⟩

/-- Settles O47: the length is the one the header's 32 bits determine; then the checks of `bpc.extractf` in their order
and the bits it loads. -/
theorem bpcExtractfReadsHeaderAndBody : Obligations.BpcExtractfReadsHeaderAndBody := by
  intro b hb
  refine ⟨decode_wordB 0x13 .bpcExtractf hb fun _ => decode_bpcExtractf, fun s he => ?_⟩
  have hw : wordB 0x13 b = encode (.bpcExtractf b) := wordB_eq 0x13 hb
  rw [hw]
  refine ⟨fun hbpp => ?_, fun h1 h4 hN => ?_, fun h1 h4 hN hc => ?_, fun len h1 h4 hN h32 hlt hbits => ?_⟩
  · exact exec_of_error he (effectOf_bppRange rfl hbpp s)
  · exact exec_of_error he ((effectOf_bpcExtractf b s).trans (extractfEffect_dimsTooLarge ⟨h1, h4⟩ hN))
  · exact exec_of_error he ((effectOf_bpcExtractf b s).trans (extractfEffect_noRoomForHeader ⟨h1, h4⟩ hN hc))
  · obtain rfl : len = headerLength b s := header_unique h1 h32 hlt hbits
    refine ⟨fun hc => ?_, fun hc => ?_⟩
    · exact exec_of_error he ((effectOf_bpcExtractf b s).trans (extractfEffect_headerTooLarge ⟨h1, h4⟩ hN h32 hc))
    · have hdb := body_le_dbMax h4 hN hc
      exact ⟨_, _, exec_of_ok he ((effectOf_bpcExtractf b s).trans (extractfEffect_ok ⟨h1, h4⟩ hN hc)),
        toNat_ofNat_of_le_dbMax hdb, hdb, holdsStream_extractf h1 hc⟩

/-- Settles O48: the embedded plane carries DB's first DBLEN bytes, and loading them back changes no byte. -/
theorem extractAfterEmbedReturnsThePayload : Obligations.ExtractAfterEmbedReturnsThePayload := by
  intro s b he h1 h4 hN hL hc
  obtain ⟨hexec, hcarries⟩ := exec_bpcEmbed ⟨h1, h4⟩ he hN hL hc
  have hlen := length_rawPayload s
  have hnum : (BitVec.ofNat 32 (8 * s.dblen.toNat)).toNat = 8 * (rawPayload s).length := by
    obtain ⟨-, -, -, hdb, -⟩ := s.cfg.bounds
    rw [hlen, BitVec.toNat_ofNat, Nat.mod_eq_of_lt (by omega)]
  refine ⟨_, _, hexec, exec_extract_of_carries ⟨h1, h4⟩ he hN hnum hcarries, he, ?_, fun j => load_bytes_read _ _ j⟩
  show BitVec.ofNat 32 (rawPayload s).length = s.dblen
  rw [hlen, BitVec.ofNat_toNat, BitVec.setWidth_eq]

/-- Settles O49: the embedded plane carries the header and DB's first DBLEN bytes, whatever DB holds by then. -/
theorem framedRoundTrip : Obligations.FramedRoundTrip := by
  intro s b he h1 h4 hN hL hc
  obtain ⟨hexec, hcarries⟩ := exec_bpcEmbedf ⟨h1, h4⟩ he hN hL hc
  refine ⟨_, hexec, fun db0 l0 => ?_, ?_⟩
  · exact ⟨_, exec_extractf_of_carries ⟨h1, h4⟩ he hN (length_rawPayload s) hcarries, he, rfl, rfl,
      fun j hj => read_load_bytes db0 s.db hj⟩
  · exact ⟨_, exec_extract_of_carries ⟨h1, h4⟩ he hN rfl (hcarries.take h1), he, rfl, read_load_be32 s.db s.dblen⟩

/-- Settles O50: both embed commands write one stream into the plane and nothing else. -/
theorem embeddingLeavesTheRestOfThePlaneAlone : Obligations.EmbeddingLeavesTheRestOfThePlaneAlone := by
  intro s t b x hx h ht
  simp only [List.mem_cons, List.not_mem_nil, or_false] at hx
  rcases hx with rfl | rfl
  · exact embedEffect_leaves (length_rawPayload s) (effectOf_of_completes (i := .bpcEmbed b) nofun nofun h ht)
  · exact embedEffect_leaves (length_framedPayload s) (effectOf_of_completes (i := .bpcEmbedf b) nofun nofun h ht)

end Sys2Proof.Machine
end

section
/-! PROOFS. The statements on all commands at once and on their sequence: what each command that completes writes
(spec/20_memory.md R76), which of them read the digest (R43, R46), and the pipeline of embedding and extraction
(spec/70_reset_and_hazards.md R252, R253). -/

namespace Sys2Proof.Machine

/-! ## What a command that completes writes -/

/-- An embed command writes visited samples of PM only (R76). -/
theorem embedEffect_frame {b len : Nat} {payload : List Byte} {s t : State} (hlen : payload.length = len)
    (h : embedEffect b len payload s = .ok t) :
    t = { s with pm := t.pm } ∧ ∀ j, j ∉ s.order.take (ceilDiv (8 * len) b) → t.pm.read j = s.pm.read j := by
  refine ⟨?_, (embedEffect_leaves hlen h).1⟩
  obtain ⟨-, rfl⟩ := embedEffect_ok_inv h
  rfl

/-- `bpc.extract` writes DB within the stream's bytes, and DBLEN (R76). -/
theorem extractEffect_frame {b : Nat} {s t : State} (h : extractEffect b s = .ok t) :
    t = { s with db := t.db, dblen := t.dblen } ∧
      ∀ j, ceilDiv s.numbits.toNat 8 ≤ j → t.db.read j = s.db.read j := by
  rcases extractEffect_cases b s with ⟨-, e⟩ | ⟨-, -, e⟩ | ⟨-, -, -, e⟩ | ⟨⟨h1, -⟩, -, hc, e⟩ <;>
    rw [e] at h <;> cases h
  exact ⟨rfl, (holdsStream_extract h1 hc).2⟩

/-- `bpc.extractf` writes DB within the bytes the header announces, DBLEN and HDRLEN (R76). -/
theorem extractfEffect_frame {b : Nat} {s t : State} (h : extractfEffect b s = .ok t) :
    t = { s with db := t.db, dblen := t.dblen, hdrlen := t.hdrlen } ∧
      ∀ len < 2 ^ 32, (∀ m < 32, len.testBit (31 - m) = planeBit s b m) →
        ∀ j, len ≤ j → t.db.read j = s.db.read j := by
  rcases extractfEffect_cases b s with ⟨-, e⟩ | ⟨-, -, e⟩ | ⟨-, -, -, e⟩ | ⟨-, -, -, -, e⟩ | ⟨⟨h1, -⟩, -, hc, e⟩ <;>
    rw [e] at h <;> cases h
  refine ⟨rfl, fun len hlt hbits j hj => ?_⟩
  obtain rfl : len = headerLength b s := header_unique h1 (by omega) hlt hbits
  exact (holdsStream_extractf h1 hc).2 j ((ceilDiv_eight_mul _).trans_le hj)

/-- A cipher command writes the first DBLEN bytes of DB (R76). -/
theorem cipherEffect_frame {f : Nat → Byte → Byte} {s t : State} (h : cipherEffect f s = .ok t) :
    t = { s with db := t.db } ∧ ∀ j, s.dblen.toNat ≤ j → t.db.read j = s.db.read j := by
  rcases cipherEffect_cases f s with ⟨-, e⟩ | ⟨-, -, e⟩ | ⟨-, -, e⟩ <;> rw [e] at h <;> cases h
  exact ⟨rfl, fun j hj => by rw [Memory.read_writeAll_range, if_neg (not_lt.2 hj)]⟩

/-- `bpe.split` writes each buffer within its region's shape, the descriptors and STATUS.QV (R76). -/
theorem splitEffect_frame {s t : State} (h : splitEffect s = .ok t) :
    t = { s with qb := t.qb, splitpt := t.splitpt, qv := t.qv } ∧
      ∀ (k : Fin 4) (j : Nat), (s.splitRegion k).rows * (s.splitRegion k).cols ≤ j →
        t.qb[k].data.read j = s.qb[k].data.read j := by
  rcases splitEffect_cases s with ⟨-, e⟩ | ⟨-, e⟩ <;> rw [e] at h <;> cases h
  refine ⟨rfl, fun k j hj => ?_⟩
  rw [getElem_split]
  exact read_splitQuadrant_beyond s k hj

/-- `bpe.perm` and `bpe.unperm` write the buffers (R76). -/
theorem reorderEffect_frame {p0 p1 p2 p3 : Nat} {qb' : Vector Quadrant 4} {s t : State}
    (h : reorderEffect p0 p1 p2 p3 qb' s = .ok t) : t = { s with qb := t.qb } := by
  rcases reorderEffect_cases p0 p1 p2 p3 qb' s with ⟨-, e⟩ | ⟨-, -, e⟩ | ⟨-, -, e⟩ <;> rw [e] at h <;> cases h
  rfl

/-- `bpe.merge` writes the plane (R76). -/
theorem mergeEffect_frame {s t : State} (h : mergeEffect s = .ok t) :
    t = { s with pm := t.pm } ∧ ∀ j, s.count ≤ j → t.pm.read j = s.pm.read j := by
  rcases mergeEffect_cases s with ⟨-, e⟩ | ⟨-, -, e⟩ | ⟨-, -, -, e⟩ | ⟨-, -, ⟨⟨hrows, hcols⟩, -⟩, e⟩ <;>
    rw [e] at h <;> cases h
  exact ⟨rfl, fun j hj => read_merge_beyond s hrows hcols hj⟩

/-- With no error recorded `sys.clrerr` writes at most the error registers (R76). -/
theorem clearError_frame {s : State} (he : s.err = false) : clearError s =
    { s with
      errCode := (clearError s).errCode, errSub := (clearError s).errSub, errReqL := (clearError s).errReqL
      errReqH := (clearError s).errReqH, errAvail := (clearError s).errAvail, errCmd := (clearError s).errCmd } := by
  cases s
  cases he
  rfl

/-! ## Who reads the digest -/

/-- The state with another digest. -/
def State.withDigest (kd : Vector Byte 64) (kdlen : Word) (s : State) : State := { s with kd := kd, kdlen := kdlen }

/-- The checks and writes of a command other than the cipher's two and `sys.sreset` do not look at the digest (R43). -/
theorem effectOf_withDigest {i : Instr} (kd : Vector Byte 64) (l : Word) (s : State) (henc : i ≠ .mleaEnc)
    (hdec : i ≠ .mleaDec) (hsr : i ≠ .sysSreset) :
    effectOf i (s.withDigest kd l) = (effectOf i s).map (State.withDigest kd l) := by
  cases i
  case mleaEnc => exact absurd rfl henc
  case mleaDec => exact absurd rfl hdec
  case sysSreset => exact absurd rfl hsr
  case sysNop | sysClrerr => rfl
  all_goals
    simp only [effectOf, embedEffect, extractEffect, extractfEffect, splitEffect, reorderEffect, mergeEffect,
      apply_ite (Except.map _)]
    rfl

/-- Such a command does the same whatever the digest, the gate included. -/
theorem exec_withDigest {i : Instr} {s t : State} (kd : Vector Byte 64) (l : Word) (henc : i ≠ .mleaEnc)
    (hdec : i ≠ .mleaDec) (hsr : i ≠ .sysSreset) (h : exec i s = .next t) :
    exec i (s.withDigest kd l) = .next (t.withDigest kd l) := by
  by_cases hc : i = .sysClrerr
  · subst hc; cases h; rfl
  · exact exec_upd (State.withDigest kd l) (fun _ => rfl) (fun _ _ _ => rfl) hc hsr
      (effectOf_withDigest kd l s henc hdec hsr) h

/-- A cipher command keeps the digest, completed, failed or ignored. -/
theorem exec_cipher_digest {i : Instr} {f : Nat → Byte → Byte} {s t : State} (hc : i ≠ .sysClrerr)
    (hr : i ≠ .sysSreset) (hi : effectOf i s = cipherEffect f s) (h : exec i s = .next t) :
    t.kd = s.kd ∧ t.kdlen = s.kdlen := by
  rcases exec_cases h with ⟨-, -, -, rfl⟩ | ⟨-, rfl, -⟩ | ⟨-, rfl, -⟩ | ⟨-, he⟩ | ⟨-, c, -, rfl⟩
  · exact ⟨rfl, rfl⟩
  · exact absurd rfl hc
  · exact absurd rfl hr
  · obtain ⟨ht, -⟩ := cipherEffect_frame (hi.symm.trans he)
    exact ⟨(congrArg State.kd ht :), (congrArg State.kdlen ht :)⟩
  · exact ⟨rfl, rfl⟩

/-- No command but `sys.sreset` writes the digest: one that does not look at it would show another one (R46). -/
theorem exec_digest {i : Instr} {s t : State} (hr : i ≠ .sysSreset) (h : exec i s = .next t) :
    t.kd = s.kd ∧ t.kdlen = s.kdlen := by
  by_cases henc : i = .mleaEnc
  · subst henc
    exact exec_cipher_digest (i := .mleaEnc) nofun nofun (effectOf_mleaEnc s) h
  by_cases hdec : i = .mleaDec
  · subst hdec
    exact exec_cipher_digest (i := .mleaDec) nofun nofun (effectOf_mleaDec s) h
  have hsame := exec_withDigest s.kd s.kdlen henc hdec hr h
  have ht : t = t.withDigest s.kd s.kdlen := Host.Outcome.next.inj (h.symm.trans hsame)
  exact ⟨(congrArg State.kd ht :), (congrArg State.kdlen ht :)⟩

/-! ## The pipeline -/

/-- A shuffle touches PM, the buffers, SPLITPT and STATUS.QV and nothing else. -/
theorem shuffled_eq {s u : State} {f : Fin 4 → Fin 4} (h : shuffled s u f) :
    ∃ pm qb sp qv, u = { s with pm := pm, qb := qb, splitpt := sp, qv := qv } := ⟨_, _, _, _, h.1⟩

/-- A shuffle keeps the digest. -/
theorem shuffled_digest {s u : State} {f : Fin 4 → Fin 4} (h : shuffled s u f) : u.kd = s.kd ∧ u.kdlen = s.kdlen := by
  obtain ⟨hu, -⟩ := h
  exact ⟨(congrArg State.kd hu :), (congrArg State.kdlen hu :)⟩

/-- The embedding: the shuffled plane is made to carry the header and the enciphered data, and is unshuffled (R252). -/
theorem execSeq_embedding (s : State) (p : Equiv.Perm (Fin 4)) {b : Nat} (he : s.err = false) (hb : 1 ≤ b ∧ b ≤ 4)
    (hN : s.count ≤ s.cfg.pmMax) (h0 : s.height % 2 = 0) (w0 : s.width % 2 = 0) (hL : s.dblen.toNat ≤ s.cfg.dbMax)
    (h1 : 1 ≤ s.kdlen.toNat) (h64 : s.kdlen.toNat ≤ 64) (hc : 8 * (s.dblen.toNat + 4) ≤ s.capacity b) :
    ∃ (db : Memory) (v t : State),
      execSeq [.bpeSplit, .bpePerm (p 0) (p 1) (p 2) (p 3), .bpeMerge, .mleaEnc, .bpcEmbedf b,
        .bpeSplit, .bpeUnperm (p 0) (p 1) (p 2) (p 3), .bpeMerge] s = .next t ∧ t.err = false ∧
      (∀ j < s.dblen.toNat, db.read j = scramble (s.db.read j) ^^^ s.keystream j) ∧
      v.carries b (be32 s.dblen ++ db.bytes s.dblen.toNat) ∧ v.cfg = s.cfg ∧ v.dims = s.dims ∧
      shuffled v t p.symm := by
  obtain ⟨u, hshuffle, hu⟩ := shuffle s p he hN h0 w0
  obtain ⟨pm, qb, sp, qv, rfl⟩ := shuffled_eq hu
  set u : State := { s with pm := pm, qb := qb, splitpt := sp, qv := qv }
  obtain ⟨db, henc, hin, -⟩ := (exec_cipher (effectOf_mleaEnc u) he).2.2 hL h1 h64
  obtain ⟨hembed, hcarries⟩ := exec_bpcEmbedf (s := { u with db := db }) hb he hN hL hc
  obtain ⟨t, hunshuffle, ht⟩ :=
    unshuffle { u with db := db, pm := writeBits u.order (unpack (framedPayload { u with db := db })) b u.pm } p
      he hN h0 w0
  refine ⟨db, _, t, ?_, (shuffled_frame ht).1.trans he, hin, hcarries, rfl, rfl, ht⟩
  exact (execSeq_append [_, _, _] _ hshuffle).trans ((execSeq_cons henc).trans ((execSeq_cons hembed).trans hunshuffle))

/-- The extraction: from the shuffled plane that carries a header and enciphered data, the data deciphered (R253). -/
theorem execSeq_extraction {s : State} {b : Nat} {len : Word} {db : Memory} (he : s.err = false)
    (hb : 1 ≤ b ∧ b ≤ 4) (hN : s.count ≤ s.cfg.pmMax) (hL : len.toNat ≤ s.cfg.dbMax) (h1 : 1 ≤ s.kdlen.toNat)
    (h64 : s.kdlen.toNat ≤ 64) (h : s.carries b (be32 len ++ db.bytes len.toNat)) :
    ∃ u, execSeq [.bpcExtractf b, .mleaDec] s = .next u ∧ u.err = false ∧ u.dblen = len ∧ u.hdrlen = len ∧
      ∀ j < len.toNat, u.db.read j = unscramble (db.read j ^^^ s.keystream j) := by
  have hextract := exec_extractf_of_carries hb he hN (db.length_bytes _) h
  set v : State := { s with db := s.db.load (db.bytes len.toNat), dblen := len, hdrlen := len } with hv_def
  obtain ⟨db', hdec, hin, -⟩ := (exec_cipher (effectOf_mleaDec v) he).2.2 hL h1 h64
  refine ⟨_, (execSeq_cons hextract).trans (execSeq_cons hdec), he, rfl, rfl, fun j hj => ?_⟩
  refine (hin j hj).trans ?_
  rw [hv_def, read_load_bytes s.db db hj]
  rfl

/-! ## The statements -/

/-- Settles O53, one command after the other. -/
theorem eachCommandWritesOnlyItsPlaces : Obligations.EachCommandWritesOnlyItsPlaces := by
  intro i s t he h ht
  have hok := effectOf_of he h ht
  cases i with
  | sysNop => cases hok; rfl
  | sysClrerr => cases hok; exact clearError_frame he
  | sysSreset =>
    cases hok
    exact ⟨rfl, rfl, fun k => by rw [softReset_qb], rfl, rfl, rfl, rfl, rfl⟩
  | bpcEmbed b => exact embedEffect_frame (length_rawPayload s) hok
  | bpcEmbedf b => exact embedEffect_frame (length_framedPayload s) hok
  | bpcExtract b => exact extractEffect_frame hok
  | bpcExtractf b => exact extractfEffect_frame hok
  | mleaEnc => exact cipherEffect_frame ((effectOf_mleaEnc s).symm.trans hok)
  | mleaDec => exact cipherEffect_frame ((effectOf_mleaDec s).symm.trans hok)
  | bpeSplit =>
    obtain ⟨hframe, hbeyond⟩ := splitEffect_frame hok
    refine ⟨hframe, ?_⟩
    rintro k g rfl
    exact hbeyond k
  | bpePerm | bpeUnperm => exact reorderEffect_frame hok
  | bpeMerge => exact mergeEffect_frame hok

/-- Settles O55: a command's checks and writes do not look at the digest, and so cannot have written it. -/
theorem onlyTheCipherReadsTheKeyDigest : Obligations.OnlyTheCipherReadsTheKeyDigest :=
  ⟨fun _ _ _ kd' l' henc hdec hsr h => exec_withDigest kd' l' henc hdec hsr h, fun _ _ _ hsr h => exec_digest hsr h⟩

/-- Settles O57: shuffled again, the carried plane is the one the payload was embedded in, so the extraction finds what
the embedding enciphered. -/
theorem thePipelineReturnsThePayload : Obligations.ThePipelineReturnsThePayload := by
  intro s p b he h1 h4 hN h0 w0 hL hk1 hk64 hc
  obtain ⟨db, v, t, hembed, hterr, hdb, hcarries, hvcfg, hvdims, ht⟩ :=
    execSeq_embedding s p he ⟨h1, h4⟩ hN h0 w0 hL hk1 hk64 hc
  refine ⟨t, hembed, hterr, fun s' he' hcfg hdims hkd hkdlen hpm => ?_⟩
  have hN' : s'.count ≤ s'.cfg.pmMax := by rw [State.count_congr hdims, hcfg]; exact hN
  obtain ⟨u, hshuffle, hu⟩ := shuffle s' p he' hN' (State.height_congr hdims ▸ h0) (State.width_congr hdims ▸ w0)
  obtain ⟨huerr, hucfg, hudims⟩ := shuffled_frame hu
  obtain ⟨hukd, hukdlen⟩ := shuffled_digest hu
  have huN : u.count ≤ u.cfg.pmMax := by rw [State.count_congr hudims, hucfg]; exact hN'
  have hlen : u.kdlen = s.kdlen := hukdlen.trans hkdlen
  have hback (j : Nat) (hj : j < v.count) : u.pm.read j = v.pm.read j :=
    shuffled_back (p := p.symm) (State.height_congr hvdims ▸ h0) (State.width_congr hvdims ▸ w0) ht hu
      (hdims.trans hvdims.symm) (fun j hj => hpm j (hj.trans_eq (State.count_congr hvdims))) j hj
  have hucarries := carries_congr (hucfg.trans (hcfg.trans hvcfg.symm)) (hudims.trans (hdims.trans hvdims.symm))
    hback h1 hcarries
  obtain ⟨w, hextract, hwerr, hwlen, hwhdr, hwdb⟩ := execSeq_extraction (huerr.trans he') ⟨h1, h4⟩ huN
    (by rw [hucfg, hcfg]; exact hL) (hlen ▸ hk1) (hlen ▸ hk64) hucarries
  have hks (j : Nat) : u.keystream j = s.keystream j := by rw [State.keystream, State.keystream, hukd, hkd, hlen]
  refine ⟨w, (execSeq_append [_, _, _] _ hshuffle).trans hextract, hwerr, hwlen, hwhdr, fun j hj => ?_⟩
  rw [hwdb j hj, hks, hdb j hj, xor_keystream_twice, unscramble_scramble]

end Sys2Proof.Machine
end
